-- ==== Sys2Proof/Word.lean ====
section
/-! DEFINITION. The words of the BlackBird voice core: a transport byte, a 32-bit register word, a 64-bit command word and a
binary32 value held as its 32 bits (spec 00 R10, R11; 20 R82, R84; 30 R100). -/

namespace Sys2Proof

/-- One byte of a byte transport (20 R84). -/
abbrev Byte := BitVec 8

/-- One 32-bit word of the register space, and any `u32` (00 R10; 20 R82). -/
abbrev Word := BitVec 32

/-- One 64-bit command word (30 R100). -/
abbrev Cmd := BitVec 64

/-- A binary32 value as its bit pattern: bit 31 the sign, bits 30:23 the biased exponent, bits 22:0 the fraction (10 R33). -/
abbrev F32 := BitVec 32

end Sys2Proof
end

