-- ==== Sys2Proof/Machine/Bits.lean ====
section
/-! DEFINITION. The fields of a binary32 bit pattern, its classes, its exact value and its order, before any configuration
(spec 00 R11, R13; 10 R33). -/

namespace Sys2Proof.Machine

/-- Bits 30:0 of a pattern: exponent and fraction read as one number. -/
def fMag (x : F32) : Nat := x.toNat % 2147483648

/-- Bit 31: true for a negative pattern. -/
def fSign (x : F32) : Bool := decide (2147483648 ≤ x.toNat)

/-- The pattern with sign `s` and bits 30:0 equal to `mag`. -/
def fPack (s : Bool) (mag : Nat) : F32 := BitVec.ofNat 32 ((if s then 2147483648 else 0) + mag)

def fIsNaN (x : F32) : Bool := decide (2139095040 < fMag x)
def fIsInf (x : F32) : Bool := decide (fMag x = 2139095040)
def fIsFinite (x : F32) : Bool := decide (fMag x < 2139095040)
def fIsZero (x : F32) : Bool := decide (fMag x = 0)
def fIsSubnormal (x : F32) : Bool := decide (0 < fMag x) && decide (fMag x < 8388608)

/-- The magnitude of a finite pattern in units of `2^-149`, the least positive binary32 value. A biased exponent `e >= 1` stands
for `(2^23 + fraction) * 2^(e-1)` units, the exponent 0 for `fraction` units. -/
def fUnits (x : F32) : Nat :=
  if fMag x < 8388608 then fMag x
  else (fMag x % 8388608 + 8388608) * 2 ^ (fMag x / 8388608 - 1)

/-- The exact value of a finite pattern in units of `2^-149`. -/
def fVal (x : F32) : Int := if fSign x then -(fUnits x : Int) else (fUnits x : Int)

/-- A number that orders the patterns other than NaN as IEEE-754 orders their values; both zeros have key 0. -/
def fKey (x : F32) : Int := if fSign x then -(fMag x : Int) else (fMag x : Int)

/-- `x <= y` of two patterns taken as they stand (no flushing); false when either is NaN. -/
def fLeRaw (x y : F32) : Bool := !fIsNaN x && !fIsNaN y && decide (fKey x ≤ fKey y)

/-- The pattern with its sign bit inverted (unary minus). -/
def fNeg (x : F32) : F32 := fPack (!fSign x) (fMag x)

end Sys2Proof.Machine
end

