-- ==== Sys2Proof/Config.lean ====
section
/-! DEFINITION. What an implementation fixes: the parameters of spec 00 R7 and R8 as plain data, the configuration functions of
00 R18 as an opaque constant that has exactly the named properties, and the free values. -/

namespace Sys2Proof

/-- The implementation parameters (00 R7, R8). `NB` is the length of `bandMax`. They are data that no step changes: a statement
about every state speaks about every choice of them (00 R7: a model must not assume a default). -/
structure Config where
  nv : Nat
  tb : Nat
  bandMax : List F32
  sub : Nat
  oscGainRampLen : Nat
  filterRampS : F32
  idleS : F32
  maxAnalog : F32
  maxDetune : F32
  lfoRateHz : F32
  lfoDepth : F32
  voiceGain : F32
  minCutoff : F32
  maxCutoff : F32
  defaultSeed : Word
  fsMax : F32
  ftz : Bool
  qnan : F32
  lfB0 : F32
  lfB1 : F32
  lfComp : F32
  lfOut : F32
  lfRMin : F32
  lfGA : F32
  lfGB : F32
  lfGE : F32
  lfD2A : F32
  lfD2B : F32
  lfSatMin : F32
  lfSatMax : F32
  lfSatN : Nat
  deriving DecidableEq, Repr

/-- `NB`, the number of bands (00 R7). -/
def Config.nb (c : Config) : Nat := c.bandMax.length

/-- `FB = 32 - TB` (00 R9). -/
def Config.fb (c : Config) : Nat := 32 - c.tb

/-- The default of every parameter (00 R7, R8); the bit patterns are those of 95 V6.1. -/
def Config.default : Config where
  nv := 5
  tb := 10
  bandMax := [0x429C4000#32, 0x431C4000#32, 0x439C4000#32, 0x441C4000#32, 0x449C4000#32, 0x451C4000#32,
    0x459C4000#32, 0x461C4000#32, 0x469C4000#32]
  sub := 50
  oscGainRampLen := 50
  filterRampS := 0x3D4CCCCD#32
  idleS := 0x3F800000#32
  maxAnalog := 0x3BA3D70A#32
  maxDetune := 0x3CA3D70A#32
  lfoRateHz := 0x40A00000#32
  lfoDepth := 0x3CA3D70A#32
  voiceGain := 0x3F000000#32
  minCutoff := 0x41A00000#32
  maxCutoff := 0x469C4000#32
  defaultSeed := 0x6D2B79F5#32
  fsMax := 0x48BB8000#32
  ftz := false
  qnan := 0x7FC00000#32
  lfB0 := 0x3F44EC4F#32
  lfB1 := 0x3E6C4EC5#32
  lfComp := 0x3F000000#32
  lfOut := 0x3F99999A#32
  lfRMin := 0x3DCCCCCD#32
  lfGA := 0x3F1C3C9F#32
  lfGB := 0x3EC7D567#32
  lfGE := 0xC0291687#32
  lfD2A := 0x3D23D70A#32
  lfD2B := 0x3F75C28F#32
  lfSatMin := 0xC0A00000#32
  lfSatMax := 0x40A00000#32
  lfSatN := 128

/-- The configuration functions of 00 R18 together with the properties a model may assume of them, and no others. The field
values written here only show that such functions exist; the constant below is opaque, so nothing can be proved from them. -/
structure ConfigFunctions where
  exp : F32 → F32 := fun _ => 0x00000000#32
  exp2 : F32 → F32 := fun _ => 0x3F800000#32
  pow : F32 → F32 → F32 := fun _ _ => 0x3F800000#32
  /-- `wtv w n k`: waveform, harmonic order, table point. -/
  wtv : Nat → Nat → Nat → F32 := fun _ _ _ => 0x00000000#32
  /-- Entry `k` of the saturation ROM. -/
  sat : Nat → F32 := fun _ => 0x00000000#32
  /-- EXP_RANGE. -/
  exp_range : ∀ x, Machine.fIsFinite x → Machine.fLeRaw x 0x00000000#32 →
    Machine.fLeRaw 0x00000000#32 (exp x) ∧ Machine.fLeRaw (exp x) 0x3F800000#32 := by
    intros; decide
  /-- EXP2_ZERO. -/
  exp2_zero : exp2 0x00000000#32 = 0x3F800000#32 ∧ exp2 0x80000000#32 = 0x3F800000#32 := by decide
  /-- EXP2_MONO. -/
  exp2_mono : ∀ x y, Machine.fIsFinite x → Machine.fIsFinite y → Machine.fLeRaw x y →
    Machine.fLeRaw (exp2 x) (exp2 y) := by
    intros; decide
  /-- POW_POS. -/
  pow_pos : ∀ x y, Machine.fIsFinite x → Machine.fLeRaw 0x3F800000#32 x → Machine.fIsFinite y →
    Machine.fIsFinite (pow x y) ∧ Machine.fLeRaw (pow x y) 0x00000000#32 = false := by
    intros; decide
  /-- WT_FINITE. -/
  wt_finite : ∀ w n k, Machine.fIsFinite (wtv w n k) := by
    intros; decide
  /-- SAT_FINITE, with the range of the entries. -/
  sat_finite : ∀ k, Machine.fIsFinite (sat k) ∧ Machine.fLeRaw 0xBF800000#32 (sat k) ∧
    Machine.fLeRaw (sat k) 0x3F800000#32 := by
    intros; decide
  deriving Inhabited

/-- The hardware's functions (00 R18): any functions with the properties above. -/
opaque Config.functions : ConfigFunctions

/-- FREE VALUE: sample `k` drawn from the reverb return port once the frames in `ports.rvRet` are used up (45 R283). -/
opaque Config.reverbReturn : Nat → F32

/-- FREE VALUE: a wavetable entry that PREPARE has not built (10 R54: unspecified). -/
opaque Config.wtUnbuilt : Nat → Nat → Nat → F32

/-- FREE VALUE: `floor` or `trunc` of an operand that is not finite; 00 R13 defines them for finite ones. -/
opaque Config.floorOpen : F32 → Int

/-- FREE VALUE: `rne_u32_sat` of an operand that is not finite, before the saturation; 00 R13 defines it for finite ones. -/
opaque Config.rneOpen : F32 → Nat

/-- FREE VALUE: the floor of the product of two operands of which one is not finite (00 R13). -/
opaque Config.floorProdOpen : F32 → F32 → Int

/-- FREE VALUE: the `u32` a field holds for an integer outside `0 .. 2^32-1`; no rule states it. -/
opaque Config.u32Open : Int → Word

end Sys2Proof
end

