-- ==== Sys2Proof/Machine/Fp.lean ====
section
/-! DEFINITION. Binary32 arithmetic as spec 00 R11 to R13 and R18 give it: each operation forms the exact result as an integer
number of units and rounds once, to nearest with ties to even. Every operation takes the configuration for `FTZ` and `QNAN32`. -/

namespace Sys2Proof.Machine

/-- A subnormal operand read as a zero of its sign when `FTZ` is set (00 R12). -/
def fIn (c : Config) (x : F32) : F32 := if c.ftz && fIsSubnormal x then fPack (fSign x) 0 else x

/-- Bits 30:0 of the binary32 value nearest to `n * 2^-(149+d)`, ties to even, infinity on overflow. `sh` is how many low bits
do not fit: at least `d` (no value is finer than `2^-149`), and enough to leave 24 bits. Adding the rounded quotient to
`(sh - d) * 2^23` sets exponent and fraction together, also when the rounding carries into the next exponent. -/
def roundMag (n d : Nat) : Nat :=
  let sh := max d (Nat.log2 n - 23)
  let q := n / 2 ^ sh
  let r := n % 2 ^ sh
  let up := decide (2 ^ sh < 2 * r) || (decide (2 * r = 2 ^ sh) && decide (q % 2 = 1))
  min ((sh - d) * 8388608 + (if up then q + 1 else q)) 2139095040

/-- The rounded value of `n * 2^-(149+d)` with sign `s`; a subnormal result becomes a zero when `FTZ` is set (00 R11, R12). -/
def fRound (c : Config) (s : Bool) (n d : Nat) : F32 :=
  let m := roundMag n d
  if c.ftz && decide (m < 8388608) then fPack s 0 else fPack s m

/-- An exact integer number of units `2^-149` rounded to binary32. -/
def fOfUnits (c : Config) (z : Int) : F32 := fRound c (decide (z < 0)) z.natAbs 0

/-- Binary32 addition of operands that FTZ has already read. An exact zero sum is `-0` only for two negative operands. -/
def faddRaw (c : Config) (x y : F32) : F32 :=
  if fIsNaN x || fIsNaN y then c.qnan
  else if fIsInf x then (if fIsInf y && (fSign x != fSign y) then c.qnan else x)
  else if fIsInf y then y
  else if fVal x + fVal y = 0 then fPack (fSign x && fSign y) 0
  else fOfUnits c (fVal x + fVal y)

/-- `x + y` (00 R11). -/
def fadd (c : Config) (x y : F32) : F32 := faddRaw c (fIn c x) (fIn c y)

/-- `x - y` (00 R11). -/
def fsub (c : Config) (x y : F32) : F32 := faddRaw c (fIn c x) (fNeg (fIn c y))

/-- Binary32 multiplication of operands that FTZ has already read: the exact product has units `2^-298`. -/
def fmulRaw (c : Config) (x y : F32) : F32 :=
  let s := fSign x != fSign y
  if fIsNaN x || fIsNaN y then c.qnan
  else if fIsInf x then (if fIsZero y then c.qnan else fPack s 2139095040)
  else if fIsInf y then (if fIsZero x then c.qnan else fPack s 2139095040)
  else fRound c s (fUnits x * fUnits y) 149

/-- `x * y` (00 R11). -/
def fmul (c : Config) (x y : F32) : F32 := fmulRaw c (fIn c x) (fIn c y)

/-- Binary32 division of operands that FTZ has already read. The quotient is formed in units `2^-151`; one more bit says
whether a remainder was left, which is all that rounding needs to know of it. 46 R311 infers that no divisor is zero or infinite;
where legal parameters break that, the quotient is the IEEE-754 one of 00 R11: DEDUCED, log entry 20. -/
def fdivRaw (c : Config) (x y : F32) : F32 :=
  let s := fSign x != fSign y
  if fIsNaN x || fIsNaN y then c.qnan
  else if fIsInf x then (if fIsInf y then c.qnan else fPack s 2139095040)
  else if fIsInf y then fPack s 0
  else if fIsZero y then (if fIsZero x then c.qnan else fPack s 2139095040)
  else
    let n := fUnits x * 2 ^ 151
    fRound c s (2 * (n / fUnits y) + (if n % fUnits y = 0 then 0 else 1)) 3

/-- `x / y` (00 R11). -/
def fdiv (c : Config) (x y : F32) : F32 := fdivRaw c (fIn c x) (fIn c y)

/-- `x < y`, false with a NaN (00 R11). -/
def flt (c : Config) (x y : F32) : Bool :=
  !fIsNaN x && !fIsNaN y && decide (fKey (fIn c x) < fKey (fIn c y))

/-- `x <= y`, false with a NaN. -/
def fle (c : Config) (x y : F32) : Bool :=
  !fIsNaN x && !fIsNaN y && decide (fKey (fIn c x) ≤ fKey (fIn c y))

/-- `x == y`, false with a NaN; the two zeros are equal. -/
def feq (c : Config) (x y : F32) : Bool :=
  !fIsNaN x && !fIsNaN y && decide (fKey (fIn c x) = fKey (fIn c y))

/-- `min(a, b)`: `a` if `a <= b` else `b` (00 R11). -/
def fmin (c : Config) (a b : F32) : F32 := if fle c a b then a else b

/-- `max(a, b)`: `a` if `a >= b` else `b` (00 R11). -/
def fmax (c : Config) (a b : F32) : F32 := if fle c b a then a else b

/-- `clamp(x, lo, hi) = min(max(x, lo), hi)` (00 R11). -/
def fclamp (c : Config) (x lo hi : F32) : F32 := fmin c (fmax c x lo) hi

/-- `toF32(n)` of an integer (00 R11). -/
def fOfInt (c : Config) (z : Int) : F32 := fOfUnits c (z * 2 ^ 149)

/-- `toF32(n)` of an unsigned integer (00 R11). -/
def fOfNat (c : Config) (n : Nat) : F32 := fOfInt c n

/-- `floor(x)` (00 R13), and `trunc(x)` of a non-negative value. -/
def fFloor (x : F32) : Int := if fIsFinite x then fVal x / 2 ^ 149 else Config.floorOpen x

/-- `floor` of the exact real product of two operands (00 R13). An operand is taken at its own value, with FTZ set too: that FTZ
does not read a subnormal one as a zero here is DEDUCED, log entry 17. -/
def fFloorProd (x y : F32) : Int :=
  if fIsFinite x && fIsFinite y then fVal x * fVal y / 2 ^ 298 else Config.floorProdOpen x y

/-- `rne_u32_sat(x, hi)` (00 R13): the nearest integer, ties to even, saturated to `0 .. hi`. -/
def fRneSat (x : F32) (hi : Nat) : Nat :=
  if !fIsFinite x then min (Config.rneOpen x) hi
  else if fSign x then 0
  else
    let q := fUnits x / 2 ^ 149
    let r := fUnits x % 2 ^ 149
    let up := decide (2 ^ 149 < 2 * r) || (decide (2 * r = 2 ^ 149) && decide (q % 2 = 1))
    min (if up then q + 1 else q) hi

/-- The `u32` that holds an integer (00 R13); an integer that does not fit gives a free value. -/
def toU32 (z : Int) : Word :=
  if 0 ≤ z ∧ z < 4294967296 then BitVec.ofNat 32 z.toNat else Config.u32Open z

/-- `f32(2^-n)` for `n < 127`: exact. -/
def fPow2Neg (n : Nat) : F32 := BitVec.ofNat 32 ((127 - n) * 8388608)

/-- `EXP(x)` (00 R18). With FTZ set too, operand and result are passed as they stand, here and in the other configuration
functions: DEDUCED, log entry 19. -/
def cfgExp (x : F32) : F32 := Config.functions.exp x

/-- `EXP2(x)` (00 R18). The zero case is EXP2_ZERO written so that it computes. -/
def cfgExp2 (x : F32) : F32 := if fIsZero x then 0x3F800000#32 else Config.functions.exp2 x

/-- `POW(x, y)` (00 R18); FTZ does not reach it: log entry 19. -/
def cfgPow (x y : F32) : F32 := Config.functions.pow x y

/-- `WTV(w, n, k)` (00 R18, 40 R131). -/
def cfgWtv (w n k : Nat) : F32 := Config.functions.wtv w n k

/-- `SATLUT[k]` (43 R211): entry `LF_SATN` is a copy of entry `LF_SATN - 1`. -/
def cfgSatLut (c : Config) (k : Nat) : F32 := Config.functions.sat (min k (c.lfSatN - 1))

end Sys2Proof.Machine
end

