-- ==== Sys2Proof/Machine/State.lean ====
section
/-! DEFINITION. All the state the spec gives the BVC (10 R31 to R54, 70 R370), the words at its ports, and the reasons a step stops. -/

namespace Sys2Proof.Machine

/-- The lifecycle of a voice (10 R46, 44 R240). -/
inductive VoiceState where
  | idle | playing | releasing | fading
  deriving DecidableEq, Repr

/-- The stage of an envelope (10 R49, 42 R180). -/
inductive EnvStage where
  | idle | attack | decay | sustain | release
  deriving DecidableEq, Repr

/-- The error codes of 60 R340 other than "none". -/
inductive ErrorCode where
  | illegalOpcode | notPrepared | badVoice | badLength | badAddr | badValue | badPrepare
  deriving DecidableEq, Repr

/-- The binary32 parameter registers of 10 R33, the ones SET_PARAM clamps. -/
inductive ParamReg where
  | detune | cutoff | resonance | drive | attack | decay | sustain | release
  | cutoffEnvAmt | resEnvAmt | velEnvAmt | reverb | masterGain
  deriving DecidableEq, Repr

/-- What an address of the register space names (10 R31); a reserved address names nothing. -/
inductive Reg where
  | waveform
  | param (p : ParamReg)
  | modWheel | pitchWheel | ctrl | rngState
  | status | errCode | sampleRate | maxBlock | numChannels | frameCountLo | frameCountHi | config
  /-- Readback word `k` of voice `v` (10 R45). -/
  | voice (v k : Nat)
  deriving DecidableEq, Repr

/-- A linear smoother (10 R48). -/
structure Smoother where
  cur : F32
  tgt : F32
  cnt : Word
  step : F32
  len : Word
  deriving DecidableEq, Repr

/-- An oscillator with its gain stage (10 R47). -/
structure Osc where
  phase : Word
  freq : F32
  inc : Word
  band : BitVec 4
  gain : Smoother
  deriving DecidableEq, Repr

/-- An envelope (10 R49). -/
structure Envelope where
  stage : EnvStage
  level : F32
  rA : F32
  rD : F32
  rR : F32
  sus : F32
  ticks : Word
  deriving DecidableEq, Repr

/-- A ladder filter (10 R50): its five stage values and two smoothed coefficients. -/
structure Filter where
  s0 : F32
  s1 : F32
  s2 : F32
  s3 : F32
  s4 : F32
  cut : Smoother
  res : Smoother
  deriving DecidableEq, Repr

/-- The drive coefficients (10 R51). -/
structure Drive where
  drv : F32
  gn : F32
  drv2 : F32
  gn2 : F32
  deriving DecidableEq, Repr

/-- The low-frequency modulator (10 R52). -/
structure Lfo where
  phase : Word
  val : F32
  deriving DecidableEq, Repr

/-- One voice (10 R46 to R53). -/
structure Voice where
  state : VoiceState
  note : BitVec 7
  vel : F32
  velLevel : F32
  wave : BitVec 2
  det : F32
  df1 : F32
  df2 : F32
  fbase : F32
  f2base : F32
  osc1 : Osc
  osc2 : Osc
  env : Envelope
  flt : Filter
  drive : Drive
  lfo : Lfo
  sbc : Word
  fade : Word
  deriving DecidableEq, Repr

/-- The registers of 10 R31 that have storage of their own; RNG_STATE is `G.rng`. -/
structure Regs where
  waveform : Word
  detune : F32
  cutoff : F32
  resonance : F32
  drive : F32
  attack : F32
  decay : F32
  sustain : F32
  release : F32
  cutoffEnvAmt : F32
  resEnvAmt : F32
  velEnvAmt : F32
  reverb : F32
  masterGain : F32
  modWheel : Word
  pitchWheel : Word
  ctrl : Word
  deriving DecidableEq, Repr

/-- Global state that is not a register (10 R40). -/
structure Global where
  prepared : Bool
  fs : F32
  maxBlock : Word
  nch : Word
  nyq : F32
  incScale : F32
  cutScale : F32
  fc : F32
  fRamp : Word
  idleLen : Word
  lfoInc : Word
  /-- `order[w][b]`. -/
  order : List (List Word)
  gDryLast : F32
  gWetLast : F32
  gMLast : F32
  rng : Word
  frames : BitVec 64
  err : Bool
  errCode : Byte
  errOp : Byte
  errCount : BitVec 16
  deriving DecidableEq, Repr

/-- The reset input (70 R371): not asserted, asserted before the next command starts, or asserted during the next command once it
has made `k` transfers at the response, frame and reverb ports (or is waiting before that). -/
inductive ResetPin where
  | low
  | high
  | highDuring (k : Nat)
  deriving DecidableEq, Repr

/-- What stands at the ports (70 R382). Lists are oldest first. A credit of `some k` says that the partner takes or answers `k`
more words and then never again; `none` says that it never stalls. -/
structure Ports where
  /-- Bytes the host has put on `cmd` that no command has used. -/
  cmdIn : List Byte
  rst : ResetPin
  /-- Words handed over on `resp`. -/
  respOut : List Word
  /-- Frames handed over on `frame`. -/
  frameOut : List (List F32)
  /-- Frames handed over on `rv_send`. -/
  rvSend : List (List F32)
  /-- Frames the reverb unit has presented on `rv_ret`; past them its samples are free values. -/
  rvRet : List (List F32)
  /-- How many samples have been taken from `rv_ret`: the index of the next free value. -/
  rvDraws : Nat
  respCredit : Option Nat
  frameCredit : Option Nat
  rvCredit : Option Nat
  deriving DecidableEq, Repr

/-- The whole machine. -/
structure State where
  /-- The implementation's parameters (00 R7); no step changes them. -/
  cfg : Config
  regs : Regs
  g : Global
  /-- The wavetable store, `wt[w][b][k]` (10 R54); empty until PREPARE builds it. -/
  wt : List (List (List F32))
  /-- The pool of voices, `cfg.nv` of them (44 R261). -/
  voices : List Voice
  ports : Ports
  deriving DecidableEq, Repr

/-- Why a step stops. Each is a stuck state of 70 R382 and 93 section 1.4: the port partner withholds a word for ever. Stopping
there is safe: the hardware does nothing further either. -/
inductive Fault where
  /-- Raised by `step`: no whole command word stands at the command port (70 R382). Safe. -/
  | commandPortWaiting
  /-- Raised by READ_REG: the host never takes the response word (70 R382, R383). Safe. -/
  | responsePortStuck
  /-- Raised by RENDER: the host never takes the frame (70 R382, R383). Safe. -/
  | framePortStuck
  /-- Raised by RENDER in an active block: the reverb unit never takes or answers the frame (45 R283, 70 R382). Safe. -/
  | reverbPortStuck
  deriving DecidableEq, Repr

/-- Why an instruction has no meaning. -/
inductive Refusal where
  /-- Raised by `exec` for an instruction that has no meaning yet; no arm of this model does. Safe. -/
  | notModelled (mnemonic : String)
  deriving DecidableEq, Repr

/-- How far a command that uses a port got: to its end, or to a port whose partner stalls. -/
inductive Progress where
  | done (s : State)
  | stuck (f : Fault) (s : State)
  deriving DecidableEq, Repr

/-- A smoother at reset (10 R48). -/
def Smoother.reset : Smoother where
  cur := 0#32
  tgt := 0#32
  cnt := 0#32
  step := 0#32
  len := 0#32

/-- An oscillator at reset (10 R47). -/
def Osc.reset : Osc where
  phase := 0#32
  freq := 0#32
  inc := 0#32
  band := 0#4
  gain := Smoother.reset

/-- An envelope at reset (10 R49). -/
def Envelope.reset : Envelope where
  stage := .idle
  level := 0#32
  rA := 0#32
  rD := 0#32
  rR := 0#32
  sus := 0#32
  ticks := 0#32

/-- A filter at reset (10 R50). -/
def Filter.reset : Filter where
  s0 := 0#32
  s1 := 0#32
  s2 := 0#32
  s3 := 0#32
  s4 := 0#32
  cut := Smoother.reset
  res := Smoother.reset

/-- A voice at reset (10 R46 to R53). -/
def Voice.reset : Voice where
  state := .idle
  note := 0#7
  vel := 0#32
  velLevel := 0#32
  wave := 0#2
  det := 0#32
  df1 := 0#32
  df2 := 0#32
  fbase := 0#32
  f2base := 0#32
  osc1 := Osc.reset
  osc2 := Osc.reset
  env := Envelope.reset
  flt := Filter.reset
  drive := ⟨0#32, 0#32, 0#32, 0#32⟩
  lfo := ⟨0#32, 0#32⟩
  sbc := 0#32
  fade := 0#32

/-- The registers at reset (10 R31). -/
def Regs.reset (c : Config) : Regs where
  waveform := 0#32
  detune := 0x00000000#32
  cutoff := c.maxCutoff
  resonance := 0x00000000#32
  drive := 0x3F800000#32
  attack := 0x3C23D70A#32
  decay := 0x3C23D70A#32
  sustain := 0x3F800000#32
  release := 0x3C23D70A#32
  cutoffEnvAmt := 0x00000000#32
  resEnvAmt := 0x00000000#32
  velEnvAmt := 0x00000000#32
  reverb := 0x00000000#32
  masterGain := 0x3F800000#32
  modWheel := 0#32
  pitchWheel := 0x2000#32
  ctrl := 0x00000001#32

/-- The global state at reset (10 R40). -/
def Global.reset (c : Config) : Global where
  prepared := false
  fs := 0#32
  maxBlock := 0#32
  nch := 0#32
  nyq := 0#32
  incScale := 0#32
  cutScale := 0#32
  fc := 0#32
  fRamp := 0#32
  idleLen := 0#32
  lfoInc := 0#32
  order := List.replicate 3 (List.replicate c.nb 0#32)
  gDryLast := 0x3F800000#32
  gWetLast := 0x00000000#32
  gMLast := 0x3F800000#32
  rng := c.defaultSeed
  frames := 0#64
  err := false
  errCode := 0#8
  errOp := 0#8
  errCount := 0#16

/-- Ports at which nothing has happened, with partners that never stall. -/
def Ports.reset : Ports where
  cmdIn := []
  rst := .low
  respOut := []
  frameOut := []
  rvSend := []
  rvRet := []
  rvDraws := 0
  respCredit := none
  frameCredit := none
  rvCredit := none

/-- The reset state of a BVC with parameters `c` whose ports hold `p` (70 R370). -/
def State.resetWith (c : Config) (p : Ports) : State where
  cfg := c
  regs := Regs.reset c
  g := Global.reset c
  wt := []
  voices := List.replicate c.nv Voice.reset
  ports := p

/-- The machine right after reset, with the default parameters (70 R370, 00 R7). -/
def State.reset : State := State.resetWith Config.default Ports.reset

end Sys2Proof.Machine
end

