-- ==== Sys2Proof/Machine/Ops.lean ====
section
/-! DEFINITION. The named operations over the state: voices, the RNG, the error action, the ports, reset (spec 10 R41; 45 R283;
60 R342; 70 R370, R371, R382). -/

namespace Sys2Proof.Machine

def State.setRegs (s : State) (r : Regs) : State := { s with regs := r }
def State.setG (s : State) (g : Global) : State := { s with g := g }
def State.setVoices (s : State) (vs : List Voice) : State := { s with voices := vs }
def State.setPorts (s : State) (p : Ports) : State := { s with ports := p }

/-- `V[v]`. Past the pool, where no command reaches (44 R261), a voice at reset. -/
def State.voice (s : State) (v : Nat) : Voice := s.voices.getD v Voice.reset

/-- `V[v] <- V`. -/
def State.setVoice (s : State) (v : Nat) (V : Voice) : State := s.setVoices (s.voices.set v V)

/-- One step of the xorshift generator (10 R41). -/
def xorshift (r0 : Word) : Word :=
  let r1 := r0 ^^^ (r0 <<< 13)
  let r2 := r1 ^^^ (r1 >>> 17)
  r2 ^^^ (r2 <<< 5)

/-- The 8-bit code of an error (60 R340). -/
def errorByte : ErrorCode → Byte
  | .illegalOpcode => 1#8
  | .notPrepared => 2#8
  | .badVoice => 3#8
  | .badLength => 4#8
  | .badAddr => 5#8
  | .badValue => 6#8
  | .badPrepare => 7#8

/-- `raise Error(code)` for a command with opcode `op` (60 R342): the first error's code and opcode are kept, the mark is
sticky, the count saturates, and nothing else changes. -/
def raiseError (code : ErrorCode) (op : Byte) (s : State) : State :=
  s.setG { s.g with
    err := true
    errCode := if s.g.err then s.g.errCode else errorByte code
    errOp := if s.g.err then s.g.errOp else op
    errCount := if s.g.errCount = 0xFFFF#16 then s.g.errCount else s.g.errCount + 1#16 }

/-- The output line `err_o` (60 R345). -/
def errO (s : State) : Bool := s.g.err

/-- One word taken from a port partner's credit: none when the partner stalls (70 R382). -/
def takeCredit : Option Nat → Option (Option Nat)
  | none => some none
  | some 0 => none
  | some (k + 1) => some (some k)

/-- `respond(r)` (46 R304). -/
def respond (r : Word) (s : State) : Progress :=
  match takeCredit s.ports.respCredit with
  | none => .stuck .responsePortStuck s
  | some cr => .done (s.setPorts { s.ports with respOut := s.ports.respOut ++ [r], respCredit := cr })

/-- `emit(y)` (45 R285): the host takes the frame and the frame counter advances modulo 2^64 (10 R43). -/
def emit (y : List F32) (s : State) : Progress :=
  match takeCredit s.ports.frameCredit with
  | none => .stuck .framePortStuck s
  | some cr =>
    .done ((s.setG { s.g with frames := s.g.frames + 1#64 }).setPorts
      { s.ports with frameOut := s.ports.frameOut ++ [y], frameCredit := cr })

/-- The frame `recv()` returns (45 R283): `nch` samples of the frame the reverb unit has presented, or free values. -/
def reverbFrame (p : Ports) (nch : Nat) : List F32 :=
  (List.range nch).map fun ch => (p.rvRet.headD []).getD ch (Config.reverbReturn (p.rvDraws + ch))

/-- The ports after one `send(d)` and one `recv()` of `nch` samples, with `cr` the reverb unit's remaining credit. -/
def portsAfterReverb (p : Ports) (d : List F32) (nch : Nat) (cr : Option Nat) : Ports :=
  { p with
    rvSend := p.rvSend ++ [d]
    rvRet := p.rvRet.tail
    rvDraws := p.rvDraws + nch
    rvCredit := cr }

/-- `Progress` as an outcome of a step: a stalled partner stops the machine. -/
def Progress.outcome : Progress → Host.Outcome State Fault Refusal
  | .done s => .next s
  | .stuck f _ => .fault f

/-- The state a `Progress` has reached. -/
def Progress.state : Progress → State
  | .done s => s
  | .stuck _ s => s

/-- What is left on the command port after a reset: the whole words. A partial command word, which is what stands past the last
whole one, is discarded (70 R371). -/
def dropPartialWord (bytes : List Byte) : List Byte := bytes.take (bytes.length / 8 * 8)

/-- Reset (70 R370, R371): every piece of state to its reset value. The parameters are the implementation's; words already
handed over at the ports stay handed over; what the partners do later is theirs. -/
def resetState (s : State) : State :=
  State.resetWith s.cfg { s.ports with cmdIn := dropPartialWord s.ports.cmdIn, rst := .low }

/-- The command port after a command word has been taken from it. -/
def setCmdIn (bytes : List Byte) (s : State) : State := s.setPorts { s.ports with cmdIn := bytes }

end Sys2Proof.Machine
end

