-- ==== Sys2Proof/Machine/Adsr.lean ====
section
/-! DEFINITION. The ADSR envelope generator (spec 42 R180 to R186). -/

namespace Sys2Proof.Machine

/-- `satinc(n)` (42 R185). -/
def satInc (n : Word) : Word := if n = 0xFFFFFFFF#32 then n else n + 1#32

/-- `envPush(v)` (42 R182). That a rate is finite and the attack rate positive is inferred there; where `x[ATTACK] * G.fc` overflows
the rate is the zero that 00 R11 gives: DEDUCED, log entry 20. -/
def envPush (s : State) (e : Envelope) : Envelope :=
  let c := s.cfg
  let e' := { e with
    rA := fdiv c 0x3F800000#32 (fmul c s.regs.attack s.g.fc)
    rD := fdiv c (fsub c 0x3F800000#32 s.regs.sustain) (fmul c s.regs.decay s.g.fc)
    sus := s.regs.sustain }
  if e.stage = .decay ∧ fle c e.level s.regs.sustain then { e' with stage := .sustain, ticks := 0#32 } else e'

/-- `envNoteOn(v)` (42 R183). -/
def envNoteOn (e : Envelope) : Envelope := { e with stage := .attack, ticks := 0#32 }

/-- `envNoteOff(v)` (42 R184). -/
def envNoteOff (s : State) (e : Envelope) : Envelope :=
  if e.stage = .idle then e
  else { e with
    rR := fdiv s.cfg e.level (fmul s.cfg s.regs.release s.g.fc)
    stage := .release
    ticks := 0#32 }

/-- `envTick(v)` (42 R185); the value it returns is the new `level`. A rate below half the spacing of the level does not move it,
so a stage may last for ever although 42 R188 infers that it ends: DEDUCED, log entry 20. A tick in IDLE leaves `ticks` as it is,
as R185 writes it, although R189 counts ticks in the current stage: DEDUCED, log entry 21. -/
def envTick (c : Config) (e : Envelope) : Envelope :=
  match e.stage with
  | .idle => { e with level := 0#32 }
  | .attack =>
    let l := fadd c e.level e.rA
    if fle c 0x3F800000#32 l then
      { e with level := 0x3F800000#32, stage := if flt c 0#32 e.rD then .decay else .sustain, ticks := 0#32 }
    else { e with level := l, ticks := satInc e.ticks }
  | .decay =>
    let l := fsub c e.level e.rD
    if fle c l e.sus then { e with level := e.sus, stage := .sustain, ticks := 0#32 }
    else { e with level := l, ticks := satInc e.ticks }
  | .sustain => { e with level := e.sus, ticks := satInc e.ticks }
  | .release =>
    let l := fsub c e.level e.rR
    if fle c l 0#32 then { e with level := 0#32, stage := .idle, ticks := 0#32 }
    else { e with level := l, ticks := satInc e.ticks }

/-- `envReset(v)` (42 R186). -/
def envReset (e : Envelope) : Envelope := { e with stage := .idle, level := 0#32, ticks := 0#32 }

end Sys2Proof.Machine
end

