-- ==== Sys2Proof/Machine/Flags.lean ====
section
/-! DEFINITION. The status words a host reads: STATUS, ERR_CODE, CONFIG and the VSTATE readback (spec 10 R38, R39, R44, R45). -/

namespace Sys2Proof.Machine

/-- `x[REVERB] != 0 or G.gWetLast != 0` (45 R282, 10 R38). -/
def reverbActive (s : State) : Bool :=
  !feq s.cfg s.regs.reverb 0#32 || !feq s.cfg s.g.gWetLast 0#32

/-- A voice is busy when its state is not IDLE (44 R240). -/
def Voice.busy (V : Voice) : Bool := V.state != .idle

/-- The VOICE_BUSY field: bit `v` is 1 when voice `v` is busy. -/
def busyBits : List Voice → Nat
  | [] => 0
  | V :: vs => (if V.busy then 1 else 0) + 2 * busyBits vs

/-- STATUS (10 R38). -/
def statusWord (s : State) : Word :=
  BitVec.ofNat 32 ((if s.g.prepared then 1 else 0) + (if reverbActive s then 2 else 0) +
    (if s.g.err then 4 else 0) + 256 * (busyBits (s.voices.take s.cfg.nv) % 256))

/-- ERR_CODE (10 R39): COUNT, FIRST_OPCODE, FIRST_CODE from the most significant bits down. -/
def errCodeWord (s : State) : Word := s.g.errCount ++ s.g.errOp ++ s.g.errCode

/-- CONFIG (10 R44): version 1, NB, TB, NV from the most significant byte down. -/
def configWord (c : Config) : Word :=
  (1#8 ++ BitVec.ofNat 8 c.nb ++ BitVec.ofNat 8 c.tb ++ BitVec.ofNat 8 c.nv : BitVec 32)

/-- The encoding of a lifecycle state in VSTATE (10 R45). -/
def voiceStateBits : VoiceState → BitVec 2
  | .idle => 0#2
  | .playing => 1#2
  | .releasing => 2#2
  | .fading => 3#2

/-- The encoding of an envelope stage in VSTATE (10 R45). -/
def envStageBits : EnvStage → BitVec 3
  | .idle => 0#3
  | .attack => 1#3
  | .decay => 2#3
  | .sustain => 3#3
  | .release => 4#3

/-- VSTATE (10 R45): the note in bits 14:8, the stage in bits 6:4, the state in bits 1:0. -/
def vstateWord (V : Voice) : Word :=
  (0#17 ++ V.note ++ 0#1 ++ envStageBits V.env.stage ++ 0#2 ++ voiceStateBits V.state : BitVec 32)

/-- Readback word `k` of a voice (10 R45). -/
def voiceWord (V : Voice) (k : Nat) : Word :=
  match k with
  | 0 => vstateWord V
  | 1 => V.env.level
  | 2 => V.osc1.freq
  | 3 => V.osc2.freq
  | 4 => V.osc1.phase
  | 5 => V.osc2.phase
  | 6 => V.fade
  | _ => V.env.ticks

end Sys2Proof.Machine
end

