-- ==== Sys2Proof/Machine/Wavetable.lean ====
section
/-! DEFINITION. The wavetable store: harmonic orders, the build, the lookup and the band selection (spec 40 R130 to R137). -/

namespace Sys2Proof.Machine

/-- `max(1, floor(x))` as an order (40 R130). An integer too large for a `u32` gives a free value that is still at least 1, the
limit 40 R136 sets. -/
def orderOf (x : F32) : Word :=
  let n := toU32 (max 1 (fFloor x))
  if n = 0#32 then 1#32 else n

/-- The orders of waveform `w` for Nyquist frequency `nyq` and one band maximum (40 R130). -/
def harmonicOrder (c : Config) (nyq : F32) (w : Nat) (bandMax : F32) : Word :=
  let ratio := fdiv c nyq bandMax
  match w with
  | 0 => 1#32
  | 1 => orderOf ratio
  | _ => orderOf (fmul c 0x3F000000#32 (fadd c ratio 0x3F800000#32))

/-- `G.order[w][b]` for every waveform and band (40 R130). -/
def buildOrders (c : Config) (nyq : F32) : List (List Word) :=
  (List.range 3).map fun w => c.bandMax.map fun bm => harmonicOrder c nyq w bm

/-- The table of waveform `w` and order `n`: points `0 .. T` (40 R131). -/
def buildTable (c : Config) (w : Nat) (n : Word) : List F32 :=
  (List.range (2 ^ c.tb + 1)).map fun k => cfgWtv w n.toNat k

/-- The tables of one waveform, a band each. -/
def buildWave (c : Config) (w : Nat) (orders : List Word) : List (List F32) :=
  orders.map fun n => buildTable c w n

/-- `WT[w][b][k] <- WTV(w, G.order[w][b], k)` for all of them (40 R131). -/
def buildTables (c : Config) (order : List (List Word)) : List (List (List F32)) :=
  (List.range 3).map fun w => buildWave c w (order.getD w [])

/-- `WT[w][b][k]`; an entry that has not been built is a free value (10 R54). -/
def wtRead (wt : List (List (List F32))) (w b k : Nat) : F32 :=
  ((wt.getD w []).getD b []).getD k (Config.wtUnbuilt w b k)

/-- `lookup(w, b, p)` (40 R133); table entries so far apart that their difference overflows are log entry 20. -/
def lookup (s : State) (w b : Nat) (p : Word) : F32 :=
  let c := s.cfg
  let k := p.toNat / 2 ^ c.fb
  let fr := fmul c (fOfNat c (p.toNat % 2 ^ c.fb)) (fPow2Neg c.fb)
  let y0 := wtRead s.wt w b k
  let y1 := wtRead s.wt w b (k + 1)
  fadd c y0 (fmul c fr (fsub c y1 y0))

/-- The index of the first band maximum that exceeds `f`, or the index of the last one. -/
def bandScan (c : Config) (f : F32) : List F32 → Nat
  | [] => 0
  | [_] => 0
  | m :: ms => if flt c f m then 0 else bandScan c f ms + 1

/-- `bandSelect(f)` (40 R134). -/
def bandSelect (c : Config) (f : F32) : Nat := bandScan c f c.bandMax

end Sys2Proof.Machine
end

