-- ==== Sys2Proof/Machine/Oscillator.lean ====
section
/-! DEFINITION. The linear smoother and the oscillator with its gain stage (spec 41 R150 to R159). -/

namespace Sys2Proof.Machine

/-- `smSetTarget(s, t)` (41 R156). -/
def smSetTarget (c : Config) (m : Smoother) (t : F32) : Smoother :=
  if feq c t m.tgt then m
  else if m.len = 0#32 then { m with cur := t, tgt := t, cnt := 0#32 }
  else { m with tgt := t, cnt := m.len, step := fdiv c (fsub c t m.cur) (fOfNat c m.len.toNat) }

/-- `smNext(s)` (41 R157): the value to apply and the smoother one step on. -/
def smNext (c : Config) (m : Smoother) : F32 × Smoother :=
  if m.cnt = 0#32 then (m.tgt, m)
  else
    let cnt := m.cnt - 1#32
    let cur := if cnt = 0#32 then m.tgt else fadd c m.cur m.step
    (cur, { m with cur := cur, cnt := cnt })

/-- `smSetNow(s, t)` (41 R158). -/
def smSetNow (m : Smoother) (t : F32) : Smoother := { m with cur := t, tgt := t, cnt := 0#32 }

/-- `smInit(s, L, t)` (41 R158). -/
def smInit (m : Smoother) (len : Word) (t : F32) : Smoother := smSetNow { m with len := len } t

/-- `setFreq(v, i, f)` on the oscillator itself (41 R150). -/
def setFreq (s : State) (o : Osc) (f : F32) : Osc :=
  let c := s.cfg
  let fq := fclamp c f 0#32 s.g.nyq
  { o with
    freq := fq
    inc := BitVec.ofNat 32 (fRneSat (fmul c fq s.g.incScale) 2147483648)
    band := BitVec.ofNat 4 (bandSelect c fq) }

/-- `setLevel(v, i, g)` (41 R159). -/
def setLevel (c : Config) (o : Osc) (g : F32) : Osc := { o with gain := smSetTarget c o.gain g }

/-- `oscSample(v, i)` of an oscillator that plays waveform `wave` (41 R153): the sample and the oscillator one sample on. -/
def oscSample (s : State) (wave : BitVec 2) (o : Osc) : F32 × Osc :=
  let y := lookup s wave.toNat o.band.toNat o.phase
  let g := smNext s.cfg o.gain
  (fmul s.cfg g.1 y, { o with gain := g.2, phase := o.phase + o.inc })

end Sys2Proof.Machine
end

