-- ==== Sys2Proof/Machine/LadderFilter.lean ====
section
/-! DEFINITION. The ladder low-pass filter (spec 43 R210 to R223). -/

namespace Sys2Proof.Machine

/-- `SAT_SCALE` (43 R212). -/
def satScale (c : Config) : F32 := fdiv c (fOfInt c ((c.lfSatN : Int) - 1)) (fsub c c.lfSatMax c.lfSatMin)

/-- `SAT_OFF` (43 R212). -/
def satOff (c : Config) : F32 := fmul c (fNeg c.lfSatMin) (satScale c)

/-- `sat(x)` (43 R212). -/
def sat (c : Config) (x : F32) : F32 :=
  let xc := fclamp c x c.lfSatMin c.lfSatMax
  let idx := fadd c (fmul c (satScale c) xc) (satOff c)
  let i := (min (fFloor (fmax c idx 0#32)) ((c.lfSatN : Int) - 1)).toNat
  let fr := fsub c idx (fOfNat c i)
  fadd c (cfgSatLut c i) (fmul c fr (fsub c (cfgSatLut c (i + 1)) (cfgSatLut c i)))

/-- `latchDrive(v)` for the value `d` of DRIVE (43 R213). -/
def latchDrive (c : Config) (d : F32) : Drive :=
  let drv2 := fadd c (fmul c d c.lfD2A) c.lfD2B
  { drv := d
    gn := fadd c (fmul c (cfgPow d c.lfGE) c.lfGA) c.lfGB
    drv2 := drv2
    gn2 := fadd c (fmul c (cfgPow drv2 c.lfGE) c.lfGA) c.lfGB }

/-- The pole coefficient of a cutoff frequency (43 R214), in `[0, 1]` when the product is finite (log entry 20). -/
def cutCoeff (s : State) (fcut : F32) : F32 := cfgExp (fmul s.cfg fcut s.g.cutScale)

/-- The scaled resonance of a resonance value (43 R215), with `LF_RSPAN = 1.0 - LF_RMIN`. -/
def resCoeff (c : Config) (r : F32) : F32 := fadd c c.lfRMin (fmul c r (fsub c 0x3F800000#32 c.lfRMin))

/-- `filterSetCutoff(v, fcut)` (43 R214). -/
def filterSetCutoff (s : State) (F : Filter) (fcut : F32) : Filter :=
  { F with cut := smSetTarget s.cfg F.cut (cutCoeff s fcut) }

/-- `filterSetRes(v, r)` (43 R215). -/
def filterSetRes (c : Config) (F : Filter) (r : F32) : Filter :=
  { F with res := smSetTarget c F.res (resCoeff c r) }

/-- One one-pole section: `b1 * old + a1 * next + b0 * new` (43 R217). -/
def ladderStage (c : Config) (b1 a1 b0 old next new : F32) : F32 :=
  fadd c (fadd c (fmul c b1 old) (fmul c a1 next)) (fmul c b0 new)

/-- The filter running, FILTER_EN = 1 (43 R217). 43 R219 infers that every stage value stays finite; where an operation overflows
the stage holds the infinity or the NaN that 00 R11 gives: DEDUCED, log entry 20. -/
def filterRun (c : Config) (D : Drive) (F : Filter) (xin : F32) : F32 × Filter :=
  let cut := smNext c F.cut
  let res := smNext c F.res
  let a1 := cut.1
  let g := fsub c 0x3F800000#32 a1
  let b0 := fmul c g c.lfB0
  let b1 := fmul c g c.lfB1
  let dx := fmul c D.gn (sat c (fmul c D.drv xin))
  let fb := fmul c D.gn2 (sat c (fmul c D.drv2 F.s4))
  let a := fadd c dx (fmul c (fmul c res.1 0xC0800000#32) (fsub c fb (fmul c dx c.lfComp)))
  let b := ladderStage c b1 a1 b0 F.s0 F.s1 a
  let cc := ladderStage c b1 a1 b0 F.s1 F.s2 b
  let d := ladderStage c b1 a1 b0 F.s2 F.s3 cc
  let e := ladderStage c b1 a1 b0 F.s3 F.s4 d
  (fmul c e c.lfOut, { s0 := a, s1 := b, s2 := cc, s3 := d, s4 := e, cut := cut.2, res := res.2 })

/-- `filterSample(v, xin)` (43 R217, R220): a disabled filter passes its input and keeps its state. -/
def filterSample (s : State) (D : Drive) (F : Filter) (xin : F32) : F32 × Filter :=
  if s.regs.ctrl.getLsbD 0 then filterRun s.cfg D F xin else (xin, F)

/-- `filterInit(v)` (43 R222). -/
def filterInit (s : State) (F : Filter) : Filter :=
  { s0 := 0#32, s1 := 0#32, s2 := 0#32, s3 := 0#32, s4 := 0#32
    cut := smInit F.cut s.g.fRamp (cutCoeff s s.regs.cutoff)
    res := smInit F.res s.g.fRamp (resCoeff s.cfg s.regs.resonance) }

/-- `filterClear(v)` (43 R223). -/
def filterClear (F : Filter) : Filter :=
  { s0 := 0#32, s1 := 0#32, s2 := 0#32, s3 := 0#32, s4 := 0#32
    cut := smSetNow F.cut F.cut.tgt
    res := smSetNow F.res F.res.tgt }

end Sys2Proof.Machine
end

