-- ==== Sys2Proof/Machine/VoiceControl.lean ====
section
/-! DEFINITION. The voice controller: note start, control update, per-sample chain, LFO, note-off, kill and pitch bend (spec 44
R240 to R263). Each works on one voice and reads the rest of the state. -/

namespace Sys2Proof.Machine

/-- `noteFreq(n)` (44 R242). -/
def noteFreq (c : Config) (n : Nat) : F32 :=
  fmul c 0x43DC0000#32 (cfgExp2 (fdiv c (fOfInt c ((n : Int) - 69)) 0x41400000#32))

/-- The bend of a wheel position, in `[-1, 1]`: one slope on each side of the centre (44 R243, conflict C1). -/
def bendOf (c : Config) (w : Nat) : F32 :=
  if w < 8192 then fdiv c (fOfInt c ((w : Int) - 8192)) 0x46000000#32
  else fdiv c (fOfInt c ((w : Int) - 8192)) 0x45FFF800#32

/-- The bend in semitones, range two (44 R243). -/
def bendSemis (c : Config) (w : Nat) : F32 := fmul c 0x40000000#32 (bendOf c w)

/-- `bendMult(w)` (44 R243). -/
def bendMult (c : Config) (w : Nat) : F32 := cfgExp2 (fdiv c (bendSemis c w) 0x41400000#32)

/-- The factor `driftFactor()` returns for the draw `r` (44 R244). -/
def driftFactor (c : Config) (r : Word) : F32 :=
  let mag := fmul c (fOfNat c (r.toNat % 16777216)) 0x33800000#32
  let d := fmul c c.maxAnalog mag
  if r.getLsbD 31 then fsub c 0x3F800000#32 d else fadd c 0x3F800000#32 d

/-- Oscillator 2's frequency before the LFO (44 R245). -/
def f2baseOf (c : Config) (V : Voice) : F32 :=
  fmul c (fmul c V.fbase V.df2)
    (fadd c 0x3F800000#32 (fmul c (fmul c c.maxDetune V.det) V.df2))

/-- `applyLfo(v)` (44 R256); an LFO value that is not finite is log entry 20. -/
def applyLfo (s : State) (V : Voice) : Voice :=
  let c := s.cfg
  let mw := fdiv c (fOfNat c s.regs.modWheel.toNat) 0x42FE0000#32
  let factor := fadd c 0x3F800000#32 (fmul c (fmul c c.lfoDepth mw) V.lfo.val)
  { V with osc2 := setFreq s V.osc2 (fmul c V.f2base factor) }

/-- `retune(v)` (44 R246); that both frequencies are finite before the clamp is inferred there (log entry 20). -/
def retune (s : State) (V : Voice) : Voice :=
  applyLfo s { V with
    osc1 := setFreq s V.osc1 (fmul s.cfg V.fbase V.df1)
    f2base := f2baseOf s.cfg V }

/-- `1.0 - amt * (1.0 - vel)` (44 R247). -/
def velLevelOf (c : Config) (amt vel : F32) : F32 :=
  fsub c 0x3F800000#32 (fmul c amt (fsub c 0x3F800000#32 vel))

/-- `toF32(vel7) / 127` (44 R241). -/
def velocityOf (c : Config) (vel7 : Nat) : F32 := fdiv c (fOfNat c vel7) 0x42FE0000#32

/-- The voice with the latches of a note start, before the frequencies are set (44 R241 steps 1, 2, 3 and 5); `r1` and `r2` are
the two draws. -/
def latchNote (s : State) (V : Voice) (n vel7 w : Nat) (r1 r2 : Word) : Voice :=
  let c := s.cfg
  { V with
    note := BitVec.ofNat 7 n
    vel := velocityOf c vel7
    fbase := fmul c (noteFreq c n) (bendMult c w)
    wave := s.regs.waveform.extractLsb' 0 2
    drive := latchDrive c s.regs.drive
    det := s.regs.detune
    df1 := driftFactor c r1
    df2 := driftFactor c r2
    velLevel := velLevelOf c s.regs.velEnvAmt (velocityOf c vel7) }

/-- `startNote(v, n, vel7, w)` on the voice itself (44 R241). -/
def startVoice (s : State) (V : Voice) (n vel7 w : Nat) (r1 r2 : Word) : Voice :=
  let V' := retune s (latchNote s V n vel7 w r1 r2)
  { V' with
    env := envNoteOn (envPush s V'.env)
    state := .playing
    sbc := 0#32
    fade := 0#32 }

/-- `startNote(v, n, vel7, w)` (44 R241): two draws, oscillator 1 first (44 R244). -/
def startNote (s : State) (v n vel7 w : Nat) : State :=
  let r1 := xorshift s.g.rng
  let r2 := xorshift r1
  (s.setG { s.g with rng := r2 }).setVoice v (startVoice s (s.voice v) n vel7 w r1 r2)

/-- `amtFactor(amt, e)` (44 R248). -/
def amtFactor (c : Config) (amt e : F32) : F32 :=
  if fle c 0#32 amt then fadd c (fsub c 0x3F800000#32 amt) (fmul c amt e)
  else fadd c 0x3F800000#32 (fmul c amt e)

/-- The final cutoff for envelope value `e` (44 R249). -/
def finalCutoff (s : State) (e : F32) : F32 :=
  let c := s.cfg
  fadd c (fmul c (amtFactor c s.regs.cutoffEnvAmt e) (fsub c s.regs.cutoff c.minCutoff)) c.minCutoff

/-- The final resonance for envelope value `e` (44 R249). -/
def finalResonance (s : State) (e : F32) : F32 :=
  fmul s.cfg (amtFactor s.cfg s.regs.resEnvAmt e) s.regs.resonance

/-- `lfoTick(v)` (44 R255). -/
def lfoTick (s : State) (l : Lfo) : Lfo :=
  { val := lookup s 0 0 l.phase, phase := l.phase + s.g.lfoInc }

/-- The envelope part of a control update: re-push, one tick, and RELEASING to FADING when the envelope is idle (44 R250). -/
def envUpdate (s : State) (V : Voice) : Voice :=
  let e := envTick s.cfg (envPush s V.env)
  if V.state = .releasing ∧ e.stage = .idle then { V with env := e, state := .fading, fade := s.g.idleLen }
  else { V with env := e }

/-- `controlUpdate(v)` (44 R250). -/
def controlUpdate (s : State) (V : Voice) : Voice :=
  let c := s.cfg
  let V1 := envUpdate s V
  let e := V1.env.level
  let g := fmul c e V1.velLevel
  let V2 := { V1 with
    flt := filterSetRes c (filterSetCutoff s V1.flt (finalCutoff s e)) (finalResonance s e)
    osc1 := setLevel c V1.osc1 g
    osc2 := setLevel c V1.osc2 g
    lfo := lfoTick s V1.lfo }
  { applyLfo s V2 with sbc := BitVec.ofNat 32 c.sub }

/-- `fadeStep(v)` (44 R253). -/
def fadeStep (V : Voice) : Voice :=
  if V.state = .fading then
    if V.fade.toNat ≤ 1 then { V with state := .idle, fade := 0#32 }
    else { V with fade := V.fade - 1#32 }
  else V

/-- The signal chain of one sample after any control update: oscillators, filter, gain (44 R252). -/
def voiceChain (s : State) (V : Voice) : F32 × Voice :=
  let c := s.cfg
  let o1 := oscSample s V.wave V.osc1
  let o2 := oscSample s V.wave V.osc2
  let y := filterSample s V.drive V.flt (fadd c o1.1 o2.1)
  (fmul c c.voiceGain y.1,
    fadeStep { V with osc1 := o1.2, osc2 := o2.2, flt := y.2, sbc := V.sbc - 1#32 })

/-- `voiceSample(v)` (44 R252). -/
def voiceSample (s : State) (V : Voice) : F32 × Voice :=
  voiceChain s (if V.sbc = 0#32 then controlUpdate s V else V)

/-- `noteOffTail(v)` (44 R258). -/
def releaseVoice (s : State) (V : Voice) : Voice :=
  if V.state = .playing ∨ V.state = .releasing then { V with env := envNoteOff s V.env, state := .releasing }
  else V

/-- An oscillator silenced by a kill (44 R262). -/
def killOsc (o : Osc) : Osc := { o with gain := smSetNow o.gain 0#32, phase := 0#32 }

/-- `killVoice(v)` (44 R262). -/
def killVoice (V : Voice) : Voice :=
  { V with
    state := .idle
    env := envReset V.env
    osc1 := killOsc V.osc1
    osc2 := killOsc V.osc2
    flt := filterClear V.flt
    lfo := ⟨0#32, 0#32⟩
    sbc := 0#32
    fade := 0#32 }

/-- `bendVoice(v, w)` (44 R263). -/
def bendVoice (s : State) (w : Nat) (V : Voice) : Voice :=
  retune s { V with fbase := fmul s.cfg (noteFreq s.cfg V.note.toNat) (bendMult s.cfg w) }

end Sys2Proof.Machine
end

