-- ==== Sys2Proof/Machine/Mixer.lean ====
section
/-! DEFINITION. The voice mixer: frame sum, reverb blend, ramps and one RENDER block (spec 45 R280 to R286). -/

namespace Sys2Proof.Machine

/-- The sum over the voices in ascending order onto `acc`, and the voices one sample on (45 R280). -/
def sumVoices (s : State) (acc : F32) : List Voice → F32 × List Voice
  | [] => (acc, [])
  | V :: vs =>
    if V.busy then
      let y := voiceSample s V
      let r := sumVoices s (fadd s.cfg acc y.1) vs
      (r.1, y.2 :: r.2)
    else
      let r := sumVoices s acc vs
      (r.1, V :: r.2)

/-- The frame sum (45 R280). -/
def frameSum (s : State) : F32 × List Voice := sumVoices s 0#32 s.voices

/-- `ramp(g0, t, i, N)` (45 R286). -/
def ramp (c : Config) (g0 t : F32) (i n : Nat) : F32 :=
  if n = 1 then g0
  else if i = n - 1 then t
  else fadd c g0 (fmul c (fsub c t g0) (fdiv c (fOfNat c i) (fOfNat c (n - 1))))

/-- What a RENDER reads once, at its start (45 R285): activity and the three targets; and its length. -/
structure Block where
  n : Nat
  active : Bool
  tD : F32
  tW : F32
  tM : F32
  deriving DecidableEq, Repr

/-- The start of a block of `n` frames (45 R282, R285). -/
def openBlock (n : Nat) (s : State) : Block where
  n := n
  active := reverbActive s
  tD := fsub s.cfg 0x3F800000#32 s.regs.reverb
  tW := s.regs.reverb
  tM := s.regs.masterGain

/-- The samples of frame `i` before the master gain: the voice sum on every channel, or its blend with the return frame `w`
(45 R281, R285). -/
def blend (b : Block) (i : Nat) (s : State) (acc : F32) (w : List F32) : List F32 :=
  let c := s.cfg
  let gD := ramp c s.g.gDryLast b.tD i b.n
  let gW := ramp c s.g.gWetLast b.tW i b.n
  w.map fun x => fadd c (fmul c gD acc) (fmul c gW x)

/-- A frame with the master gain of frame `i` applied (45 R285). A product past the largest finite value is an infinity (00 R11)
although 45 R284 and R289 infer finite samples from finite inputs: DEDUCED, log entry 18. -/
def masterFrame (b : Block) (i : Nat) (s : State) (out : List F32) : List F32 :=
  out.map fun x => fmul s.cfg (ramp s.cfg s.g.gMLast b.tM i b.n) x

/-- Frame `i` of a block (45 R285): voices, reverb exchange when active, master gain, emission. -/
def renderFrame (b : Block) (i : Nat) (s : State) : Progress :=
  let sum := frameSum s
  let s1 := s.setVoices sum.2
  let nch := s.g.nch.toNat
  if b.active then
    match takeCredit s.ports.rvCredit with
    | none => .stuck .reverbPortStuck s1
    | some cr =>
      let w := reverbFrame s.ports nch
      let s2 := s1.setPorts (portsAfterReverb s.ports (List.replicate nch sum.1) nch cr)
      emit (masterFrame b i s (blend b i s sum.1 w)) s2
  else emit (masterFrame b i s (List.replicate nch sum.1)) s1

/-- Frames `i`, `i+1`, ... of a block, `k` of them. -/
def renderFrames (b : Block) : Nat → Nat → State → Progress
  | 0, _, s => .done s
  | k + 1, i, s =>
    match renderFrame b i s with
    | .stuck f s' => .stuck f s'
    | .done s' => renderFrames b k (i + 1) s'

/-- The end of a block: the last gains, in a block of two frames or more (45 R285). -/
def closeBlock (b : Block) (s : State) : State :=
  if 2 ≤ b.n then
    s.setG { s.g with
      gMLast := b.tM
      gDryLast := if b.active then b.tD else s.g.gDryLast
      gWetLast := if b.active then b.tW else s.g.gWetLast }
  else s

/-- `renderBlock(N)` (45 R285). -/
def renderBlock (n : Nat) (s : State) : Progress :=
  match renderFrames (openBlock n s) n 0 s with
  | .stuck f s' => .stuck f s'
  | .done s' => .done (closeBlock (openBlock n s) s')

end Sys2Proof.Machine
end

