-- ==== Sys2Proof/Machine/Operands.lean ====
section
/-! DEFINITION. The one operand form with an address: the register space, its map, its reads and its writes (spec 10 R31 to R45;
46 R303, R304). -/

namespace Sys2Proof.Machine

/-- What address `a` names (10 R31); `none` for a reserved address. -/
def regOf (c : Config) (a : Byte) : Option Reg :=
  match a.toNat with
  | 0x00 => some .waveform
  | 0x01 => some (.param .detune)
  | 0x02 => some (.param .cutoff)
  | 0x03 => some (.param .resonance)
  | 0x04 => some (.param .drive)
  | 0x05 => some (.param .attack)
  | 0x06 => some (.param .decay)
  | 0x07 => some (.param .sustain)
  | 0x08 => some (.param .release)
  | 0x09 => some (.param .cutoffEnvAmt)
  | 0x0A => some (.param .resEnvAmt)
  | 0x0B => some (.param .velEnvAmt)
  | 0x0C => some (.param .reverb)
  | 0x0D => some (.param .masterGain)
  | 0x0E => some .modWheel
  | 0x0F => some .pitchWheel
  | 0x10 => some .ctrl
  | 0x11 => some .rngState
  | 0x20 => some .status
  | 0x21 => some .errCode
  | 0x22 => some .sampleRate
  | 0x23 => some .maxBlock
  | 0x24 => some .numChannels
  | 0x25 => some .frameCountLo
  | 0x26 => some .frameCountHi
  | 0x27 => some .config
  | n =>
    if 0x40 ≤ n ∧ n ≤ 0x7F ∧ (n - 0x40) / 8 < c.nv then some (.voice ((n - 0x40) / 8) ((n - 0x40) % 8))
    else none

/-- `x[r]` of a binary32 parameter register. -/
def getParam (r : Regs) : ParamReg → F32
  | .detune => r.detune
  | .cutoff => r.cutoff
  | .resonance => r.resonance
  | .drive => r.drive
  | .attack => r.attack
  | .decay => r.decay
  | .sustain => r.sustain
  | .release => r.release
  | .cutoffEnvAmt => r.cutoffEnvAmt
  | .resEnvAmt => r.resEnvAmt
  | .velEnvAmt => r.velEnvAmt
  | .reverb => r.reverb
  | .masterGain => r.masterGain

/-- `x[r] <- f` of a binary32 parameter register. -/
def putParam (r : Regs) (p : ParamReg) (f : F32) : Regs :=
  match p with
  | .detune => { r with detune := f }
  | .cutoff => { r with cutoff := f }
  | .resonance => { r with resonance := f }
  | .drive => { r with drive := f }
  | .attack => { r with attack := f }
  | .decay => { r with decay := f }
  | .sustain => { r with sustain := f }
  | .release => { r with release := f }
  | .cutoffEnvAmt => { r with cutoffEnvAmt := f }
  | .resEnvAmt => { r with resEnvAmt := f }
  | .velEnvAmt => { r with velEnvAmt := f }
  | .reverb => { r with reverb := f }
  | .masterGain => { r with masterGain := f }

/-- `LO(a)` (46 R303). -/
def paramLo (c : Config) : ParamReg → F32
  | .detune | .resonance | .sustain | .velEnvAmt | .reverb | .masterGain => 0x00000000#32
  | .cutoff => c.minCutoff
  | .drive => 0x3F800000#32
  | .attack | .decay | .release => 0x3C23D70A#32
  | .cutoffEnvAmt | .resEnvAmt => 0xBF800000#32

/-- `HI(a)` (46 R303). -/
def paramHi (c : Config) : ParamReg → F32
  | .detune | .resonance | .sustain | .velEnvAmt | .reverb | .cutoffEnvAmt | .resEnvAmt => 0x3F800000#32
  | .cutoff => c.maxCutoff
  | .drive => 0x42480000#32
  | .attack | .decay | .release => 0x41700000#32
  | .masterGain => 0x40800000#32

/-- The value a finite `f` is stored as: clamped to the register's range, a zero stored as `+0.0` (46 R303). -/
def storedParam (c : Config) (p : ParamReg) (f : F32) : F32 :=
  let f' := fclamp c f (paramLo c p) (paramHi c p)
  if feq c f' 0#32 then 0#32 else f'

/-- `MemRead(a, 4)` of the register an address names (46 R304). -/
def regValue (s : State) : Reg → Word
  | .waveform => s.regs.waveform
  | .param p => getParam s.regs p
  | .modWheel => s.regs.modWheel
  | .pitchWheel => s.regs.pitchWheel
  | .ctrl => s.regs.ctrl
  | .rngState => s.g.rng
  | .status => statusWord s
  | .errCode => errCodeWord s
  | .sampleRate => s.g.fs
  | .maxBlock => s.g.maxBlock
  | .numChannels => s.g.nch
  | .frameCountLo => s.g.frames.extractLsb' 0 32
  | .frameCountHi => s.g.frames.extractLsb' 32 32
  | .config => configWord s.cfg
  | .voice v k => voiceWord (s.voice v) k

/-- The read of address `a`; `none` for a reserved address. -/
def readReg (s : State) (a : Byte) : Option Word := (regOf s.cfg a).map (regValue s)

/-- The write of value `d` to the register `r` (46 R303): the new state, or the error that refuses the write. -/
def writeReg (s : State) (r : Option Reg) (d : Word) : Except ErrorCode State :=
  match r with
  | some .waveform => .ok (s.setRegs { s.regs with waveform := if d.toNat < 2 then d else 2#32 })
  | some .ctrl => .ok (s.setRegs { s.regs with ctrl := d &&& 0x00000001#32 })
  | some .rngState => .ok (s.setG { s.g with rng := if d = 0#32 then s.cfg.defaultSeed else d })
  | some (.param p) =>
    if fIsNaN d || fIsInf d then .error .badValue
    else .ok (s.setRegs (putParam s.regs p (storedParam s.cfg p d)))
  | _ => .error .badAddr

end Sys2Proof.Machine
end

