-- ==== Sys2Proof/Machine/Commands.lean ====
section
/-! DEFINITION. The nine commands, one meaning each (spec 46 R301 to R309), with their errors in the order of 60 R341 and R343. -/

namespace Sys2Proof.Machine

/-- NOP (46 R301). -/
def execNop (s : State) : Host.Outcome State Fault Refusal := .next s

/-- The arguments PREPARE accepts (46 R302, 60 R340). -/
def prepareLegal (c : Config) (nch mb : Nat) (fs : F32) : Bool :=
  fle c 0x3F800000#32 fs && fle c fs c.fsMax && decide (mb ≠ 0) && (decide (nch = 1) || decide (nch = 2))

/-- The derived rates of PREPARE (46 R302), before the tables. -/
def prepareRates (c : Config) (g : Global) (nch mb : Nat) (fs : F32) : Global :=
  let incScale := fdiv c 0x4F800000#32 fs
  let lfoRate := fmul c (fmul c c.lfoRateHz (fOfNat c c.sub)) incScale
  { g with
    fs := fs
    maxBlock := BitVec.ofNat 32 mb
    nch := BitVec.ofNat 32 nch
    nyq := fmul c fs 0x3F000000#32
    incScale := incScale
    cutScale := fdiv c 0xC0C90FDB#32 fs
    fc := fdiv c fs (fOfNat c c.sub)
    fRamp := toU32 (fFloorProd c.filterRampS fs)
    idleLen := toU32 (fFloorProd c.idleS fs)
    lfoInc := BitVec.ofNat 32 (fRneSat lfoRate 2147483648) }

/-- A voice as PREPARE leaves it (46 R302): reset, with its smoothers initialised. -/
def preparedVoice (s : State) : Voice :=
  let len := BitVec.ofNat 32 s.cfg.oscGainRampLen
  { Voice.reset with
    osc1 := { Osc.reset with gain := smInit Smoother.reset len 0#32 }
    osc2 := { Osc.reset with gain := smInit Smoother.reset len 0#32 }
    flt := filterInit s Filter.reset }

/-- The state a successful PREPARE leaves (46 R302). -/
def prepared (s : State) (nch mb : Nat) (fs : F32) : State :=
  let c := s.cfg
  let g1 := prepareRates c s.g nch mb fs
  let g2 := { g1 with order := buildOrders c g1.nyq }
  let s1 := { s with g := g2, wt := buildTables c g2.order }
  { s1 with
    voices := List.replicate c.nv (preparedVoice s1)
    g := { g2 with
      gDryLast := fsub c 0x3F800000#32 s.regs.reverb
      gWetLast := s.regs.reverb
      gMLast := s.regs.masterGain
      prepared := true } }

/-- PREPARE (46 R302). -/
def execPrepare (nch mb : Nat) (fs : F32) (s : State) : Host.Outcome State Fault Refusal :=
  if prepareLegal s.cfg nch mb fs then .next (prepared s nch mb fs)
  else .next (raiseError .badPrepare 0x01#8 s)

/-- SET_PARAM (46 R303). -/
def execSetParam (a : Byte) (d : Word) (s : State) : Host.Outcome State Fault Refusal :=
  match writeReg s (regOf s.cfg a) d with
  | .ok s' => .next s'
  | .error e => .next (raiseError e 0x02#8 s)

/-- READ_REG (46 R304): one response word always, 0 with BAD_ADDR for a reserved address. -/
def execReadReg (a : Byte) (s : State) : Host.Outcome State Fault Refusal :=
  match readReg s a with
  | some r => (respond r s).outcome
  | none =>
    match respond 0#32 s with
    | .done s' => .next (raiseError .badAddr 0x03#8 s')
    | .stuck f _ => .fault f

/-- NOTE_ON (46 R305). -/
def execNoteOn (v note vel wheel : Nat) (s : State) : Host.Outcome State Fault Refusal :=
  if !s.g.prepared then .next (raiseError .notPrepared 0x04#8 s)
  else if s.cfg.nv ≤ v then .next (raiseError .badVoice 0x04#8 s)
  else .next (startNote (s.setRegs { s.regs with pitchWheel := BitVec.ofNat 32 wheel }) v note vel wheel)

/-- NOTE_OFF (46 R306); the release velocity is read by no rule. -/
def execNoteOff (v : Nat) (tail : Bool) (_relVel : Nat) (s : State) : Host.Outcome State Fault Refusal :=
  if !s.g.prepared then .next (raiseError .notPrepared 0x05#8 s)
  else if s.cfg.nv ≤ v then .next (raiseError .badVoice 0x05#8 s)
  else if tail then .next (s.setVoice v (releaseVoice s (s.voice v)))
  else .next (s.setVoice v (killVoice (s.voice v)))

/-- PITCH_BEND (46 R307): the register, then every busy voice. -/
def execPitchBend (wheel : Nat) (s : State) : Host.Outcome State Fault Refusal :=
  let s1 := s.setRegs { s.regs with pitchWheel := BitVec.ofNat 32 wheel }
  .next (s1.setVoices (s1.voices.map fun V => if V.busy then bendVoice s1 wheel V else V))

/-- CONTROLLER (46 R308): controller 1 is the modulation wheel, every other number is ignored. -/
def execController (cc val : Nat) (s : State) : Host.Outcome State Fault Refusal :=
  if cc = 1 then .next (s.setRegs { s.regs with modWheel := BitVec.ofNat 32 val }) else .next s

/-- RENDER (46 R309). -/
def execRender (n : Nat) (s : State) : Host.Outcome State Fault Refusal :=
  if !s.g.prepared then .next (raiseError .notPrepared 0x08#8 s)
  else if s.g.maxBlock.toNat < n then .next (raiseError .badLength 0x08#8 s)
  else if n = 0 then .next s
  else (renderBlock n s).outcome

end Sys2Proof.Machine
end

