-- ==== Sys2Proof/Syntax.lean ====
section
/-! DEFINITION. The nine commands of the command port, one constructor per row of the opcode table (spec 30 R101, R104). -/

namespace Sys2Proof

/-- A command with its operands. Integer operands are the zero-extended fields of the word (30 R102), so they are numbers;
a register address and a data word stay bits. Bits that 30 R101 marks "ignored" are no operands. -/
inductive Instr where
  /-- OP 0x00, 46 R301. -/
  | nop
  /-- OP 0x01, 46 R302: channel count `A`, block size `B`, sample rate `D` as binary32. -/
  | prepare (nch mb : Nat) (fs : F32)
  /-- OP 0x02, 46 R303: register address `A`, value `D`. -/
  | setParam (a : Byte) (d : Word)
  /-- OP 0x03, 46 R304: register address `A`. -/
  | readReg (a : Byte)
  /-- OP 0x04, 46 R305: voice `A`, note `B[6:0]`, velocity `B[14:8]`, pitch wheel `D[13:0]`. -/
  | noteOn (v note vel wheel : Nat)
  /-- OP 0x05, 46 R306: voice `A`, allowTailOff `B[0]`, release velocity `B[14:8]`, which no rule reads. -/
  | noteOff (v : Nat) (tail : Bool) (relVel : Nat)
  /-- OP 0x06, 46 R307: pitch wheel `D[13:0]`. -/
  | pitchBend (wheel : Nat)
  /-- OP 0x07, 46 R308: controller number `A[6:0]`, value `D[6:0]`. -/
  | controller (cc val : Nat)
  /-- OP 0x08, 46 R309: frame count `B`. -/
  | render (n : Nat)
  deriving DecidableEq, Repr

end Sys2Proof
end

