-- ==== Sys2Proof/Machine/Dispatch.lean ====
section
/-! DEFINITION. One arm per command (spec 46 R300: the opcode selects the command). -/

namespace Sys2Proof.Machine

def exec (i : Instr) (s : State) : Host.Outcome State Fault Refusal :=
  match i with
  | .nop => Sys2Proof.Machine.execNop s
  | .prepare nch mb fs => Sys2Proof.Machine.execPrepare nch mb fs s
  | .setParam a d => Sys2Proof.Machine.execSetParam a d s
  | .readReg a => Sys2Proof.Machine.execReadReg a s
  | .noteOn v note vel wheel => Sys2Proof.Machine.execNoteOn v note vel wheel s
  | .noteOff v tail relVel => Sys2Proof.Machine.execNoteOff v tail relVel s
  | .pitchBend wheel => Sys2Proof.Machine.execPitchBend wheel s
  | .controller cc val => Sys2Proof.Machine.execController cc val s
  | .render n => Sys2Proof.Machine.execRender n s

end Sys2Proof.Machine
end

