-- ==== Sys2Proof/WellFormed.lean ====
section
/-! DEFINITION. Which commands the 64-bit word can carry: every integer operand fits its field (spec 30 R100 to R102). A value
that fits its field and that the command refuses (30 R106) is well formed: the machine records the error. -/

namespace Sys2Proof

/-- Every operand fits the field 30 R101 gives it. -/
def Instr.wellFormed : Instr → Bool
  | .nop => true
  | .prepare nch mb _ => decide (nch < 256) && decide (mb < 65536)
  | .setParam _ _ => true
  | .readReg _ => true
  | .noteOn v note vel wheel =>
    decide (v < 256) && decide (note < 128) && decide (vel < 128) && decide (wheel < 16384)
  | .noteOff v _ relVel => decide (v < 256) && decide (relVel < 128)
  | .pitchBend wheel => decide (wheel < 16384)
  | .controller cc val => decide (cc < 128) && decide (val < 128)
  | .render n => decide (n < 65536)

end Sys2Proof
end

