-- ==== Sys2Proof/Decode.lean ====
section
/-! DEFINITION. The decoder of command words and of the byte transport, and the encoder (spec 30 R100 to R108; 20 R84, R85). The
transport carries commands, register values and samples, each least significant byte first. -/

namespace Sys2Proof

/-- Why bytes are no command: fewer than eight of them (20 R85), or a reserved opcode (30 R105). -/
inductive DecodeError where
  | partialWord
  | illegalOpcode (op : Byte)
  deriving DecidableEq, Repr

/-- `cmd[63:56]` (30 R100). -/
def cmdOp (w : Cmd) : Byte := w.extractLsb' 56 8
/-- `cmd[55:48]`. -/
def cmdA (w : Cmd) : Byte := w.extractLsb' 48 8
/-- `cmd[47:32]`. -/
def cmdB (w : Cmd) : BitVec 16 := w.extractLsb' 32 16
/-- `cmd[31:0]`. -/
def cmdD (w : Cmd) : Word := w.extractLsb' 0 32

/-- One command word (30 R101, R104). Only the bits 30 R101 names are read. -/
def decodeCmd (w : Cmd) : Except DecodeError Instr :=
  match (cmdOp w).toNat with
  | 0x00 => .ok .nop
  | 0x01 => .ok (.prepare (cmdA w).toNat (cmdB w).toNat (cmdD w))
  | 0x02 => .ok (.setParam (cmdA w) (cmdD w))
  | 0x03 => .ok (.readReg (cmdA w))
  | 0x04 => .ok (.noteOn (cmdA w).toNat ((cmdB w).extractLsb' 0 7).toNat ((cmdB w).extractLsb' 8 7).toNat
      ((cmdD w).extractLsb' 0 14).toNat)
  | 0x05 => .ok (.noteOff (cmdA w).toNat ((cmdB w).getLsbD 0) ((cmdB w).extractLsb' 8 7).toNat)
  | 0x06 => .ok (.pitchBend ((cmdD w).extractLsb' 0 14).toNat)
  | 0x07 => .ok (.controller ((cmdA w).extractLsb' 0 7).toNat ((cmdD w).extractLsb' 0 7).toNat)
  | 0x08 => .ok (.render (cmdB w).toNat)
  | _ => .error (.illegalOpcode (cmdOp w))

/-- The first whole command word of a byte stream, least significant byte first (20 R84), and what follows it. -/
def takeCommand : List Byte → Except DecodeError (Cmd × List Byte)
  | b0 :: b1 :: b2 :: b3 :: b4 :: b5 :: b6 :: b7 :: rest =>
    .ok (b7 ++ b6 ++ b5 ++ b4 ++ b3 ++ b2 ++ b1 ++ b0, rest)
  | _ => .error .partialWord

/-- The first command of a byte stream and what follows it. -/
def decode (bytes : List Byte) : Except DecodeError (Instr × List Byte) :=
  match takeCommand bytes with
  | .error e => .error e
  | .ok (w, rest) =>
    match decodeCmd w with
    | .error e => .error e
    | .ok i => .ok (i, rest)

/-- A command word from its four fields (30 R100). -/
def mkCmd (op a : Byte) (b : BitVec 16) (d : Word) : Cmd := op ++ a ++ b ++ d

/-- The opcode of each command (30 R104). -/
def Instr.opcode : Instr → Byte
  | .nop => 0x00#8
  | .prepare _ _ _ => 0x01#8
  | .setParam _ _ => 0x02#8
  | .readReg _ => 0x03#8
  | .noteOn _ _ _ _ => 0x04#8
  | .noteOff _ _ _ => 0x05#8
  | .pitchBend _ => 0x06#8
  | .controller _ _ => 0x07#8
  | .render _ => 0x08#8

/-- The word of a command, with 0 in every ignored bit (30 R108). -/
def encodeCmd : Instr → Cmd
  | .nop => mkCmd 0x00#8 0#8 0#16 0#32
  | .prepare nch mb fs => mkCmd 0x01#8 (BitVec.ofNat 8 nch) (BitVec.ofNat 16 mb) fs
  | .setParam a d => mkCmd 0x02#8 a 0#16 d
  | .readReg a => mkCmd 0x03#8 a 0#16 0#32
  | .noteOn v note vel wheel =>
    mkCmd 0x04#8 (BitVec.ofNat 8 v) (0#1 ++ BitVec.ofNat 7 vel ++ 0#1 ++ BitVec.ofNat 7 note)
      (0#18 ++ BitVec.ofNat 14 wheel)
  | .noteOff v tail relVel =>
    mkCmd 0x05#8 (BitVec.ofNat 8 v) (0#1 ++ BitVec.ofNat 7 relVel ++ 0#7 ++ BitVec.ofBool tail) 0#32
  | .pitchBend wheel => mkCmd 0x06#8 0#8 0#16 (0#18 ++ BitVec.ofNat 14 wheel)
  | .controller cc val => mkCmd 0x07#8 (0#1 ++ BitVec.ofNat 7 cc) 0#16 (0#25 ++ BitVec.ofNat 7 val)
  | .render n => mkCmd 0x08#8 0#8 (BitVec.ofNat 16 n) 0#32

/-- A command word as the eight bytes of a byte transport, least significant first (20 R84). -/
def bytesOfCmd (w : Cmd) : List Byte :=
  [w.extractLsb' 0 8, w.extractLsb' 8 8, w.extractLsb' 16 8, w.extractLsb' 24 8,
   w.extractLsb' 32 8, w.extractLsb' 40 8, w.extractLsb' 48 8, w.extractLsb' 56 8]

/-- A register value or a binary32 sample as the four bytes of a byte transport, least significant first (20 R84). -/
def bytesOfWord (w : Word) : List Byte :=
  [w.extractLsb' 0 8, w.extractLsb' 8 8, w.extractLsb' 16 8, w.extractLsb' 24 8]

/-- The whole 32-bit words of a byte stream, least significant byte of each first (20 R84). -/
def wordsOfBytes : List Byte → List Word
  | b0 :: b1 :: b2 :: b3 :: rest => (b3 ++ b2 ++ b1 ++ b0) :: wordsOfBytes rest
  | _ => []

/-- The bytes of a command. -/
def encode (i : Instr) : List Byte := bytesOfCmd (encodeCmd i)

/-- What the decoder reads from an instruction whose bits are `w`, numbered as `spec/opcode_table.json` numbers them; bits above
`nbits` are 0. A command has 64 bits, so `w` is laid out as its eight bytes. -/
def decodeTableWord (nbits w : Nat) : Option Instr :=
  match decode (bytesOfCmd (BitVec.ofNat 64 (w % 2 ^ nbits))) with
  | .ok (i, _) => some i
  | .error _ => none

end Sys2Proof
end

