-- ==== Sys2Proof/Machine/Fetch.lean ====
section
/-! DEFINITION. Taking a command word from the command port, a reserved opcode, and a reset during a command (spec 46 R300; 30
R105; 70 R371, R382), and what the ports carry as the bytes of a byte transport (20 R84). -/

namespace Sys2Proof.Machine

/-- The command word at the head of the command port and the state with it taken; `none` while no whole word stands there. -/
def fetch (s : State) : Option (Cmd × State) :=
  match takeCommand s.ports.cmdIn with
  | .ok (w, rest) => some (w, setCmdIn rest s)
  | .error _ => none

/-- A word that decodes to no command: ILLEGAL_OPCODE and no other effect (30 R105, 46 R300). -/
def illegalWord (w : Cmd) (s : State) : State := raiseError .illegalOpcode (cmdOp w) s

/-- The port transfers of one frame (45 R285): `send`, `recv` and the emission in an active block, else the emission alone. -/
def transfersPerFrame (b : Block) : Nat := if b.active then 3 else 1

/-- A frame of an active block that a reset abandons before its emission: after no transfer, after its `send`, or after its
`send` and its `recv`. A reverb unit that has stalled makes no transfer. -/
def partialFrame (transfers : Nat) (s : State) : State :=
  match takeCredit s.ports.rvCredit with
  | none => s
  | some cr =>
    let d := List.replicate s.g.nch.toNat (frameSum s).1
    match transfers with
    | 0 => s
    | 1 => s.setPorts { s.ports with rvSend := s.ports.rvSend ++ [d] }
    | _ => s.setPorts (portsAfterReverb s.ports d s.g.nch.toNat cr)

/-- What a RENDER of `n` frames has done before a reset that comes once `k` port transfers are made (70 R371). -/
def partialRender (k n : Nat) (s : State) : State :=
  if s.g.prepared && decide (n ≤ s.g.maxBlock.toNat) then
    let b := openBlock n s
    let m := min (k / transfersPerFrame b) n
    match renderFrames b m 0 s with
    | .stuck _ s' => s'
    | .done s' => if m < n then partialFrame (k % transfersPerFrame b) s' else s'
  else s

/-- What a READ_REG has done before a reset that comes once `k` port transfers are made: its response is taken or not. -/
def partialRead (k : Nat) (a : Byte) (s : State) : State :=
  if k = 0 then s else (respond ((readReg s a).getD 0#32) s).state

/-- What a command has done at its ports when a reset abandons it after `k` transfers (70 R371): reset discards every other
effect, and no command but RENDER and READ_REG uses a port. -/
def abandonedCommand (k : Nat) (s : State) : State :=
  match fetch s with
  | none => s
  | some (w, s') =>
    match decodeCmd w with
    | .ok (.render n) => partialRender k n s'
    | .ok (.readReg a) => partialRead k a s'
    | _ => s'

/-- The responses handed over, as a byte transport carries them (20 R84). -/
def respBytes (p : Ports) : List Byte := p.respOut.flatMap bytesOfWord

/-- Frames as a byte transport carries them: frame after frame, channel 0 first, four bytes a sample (20 R84, 70 R382). -/
def bytesOfFrames (ys : List (List F32)) : List Byte := ys.flatMap fun y => y.flatMap bytesOfWord

/-- The frames emitted, as a byte transport carries them. -/
def frameBytes (p : Ports) : List Byte := bytesOfFrames p.frameOut

/-- The frames sent to the reverb unit, as a byte transport carries them. -/
def sendBytes (p : Ports) : List Byte := bytesOfFrames p.rvSend

/-- The ports once the reverb unit has presented one return frame over a byte transport (20 R84, 45 R283). -/
def offerReturn (bytes : List Byte) (p : Ports) : Ports := { p with rvRet := p.rvRet ++ [wordsOfBytes bytes] }

/-- The command port with a command word put in front of what stands there. -/
def offerCommand (w : Cmd) (s : State) : State :=
  s.setPorts { s.ports with cmdIn := bytesOfCmd w ++ s.ports.cmdIn, rst := .low }

end Sys2Proof.Machine
end

