-- ==== Sys2Proof/Machine/Step.lean ====
section
/-! DEFINITION. One step: a reset that is asserted, or the next command word of the command port, executed to completion (spec 46
R300; 20 R87; 70 R371, R382). -/

namespace Sys2Proof.Machine

/-- One command (46 R300). -/
def stepCommand (s : State) : Host.Outcome State Fault Refusal :=
  match fetch s with
  | none => .fault .commandPortWaiting
  | some (w, s') =>
    match decodeCmd w with
    | .ok i => exec i s'
    | .error _ => .next (illegalWord w s')

/-- One step of the machine. -/
def step (s : State) : Host.Outcome State Fault Refusal :=
  match s.ports.rst with
  | .low => stepCommand s
  | .high => .next (resetState s)
  | .highDuring k => .next (resetState (abandonedCommand k s))

/-- `s` with the instruction whose bits are `w` put where `step` takes its next command: the command port. -/
def State.withFetchWord (s : State) (nbits w : Nat) : State :=
  offerCommand (BitVec.ofNat 64 (w % 2 ^ nbits)) s

end Sys2Proof.Machine
end

