-- ==== Sys2Proof/Safety.lean ====
section
/-! DEFINITION. What a safe machine is: legal parameters (spec 00 R7), registers in their ranges (10 R31, R33), voices in a legal
lifecycle state (44 R251, R257), a consistent error record (60 R342), and the whole-state invariant made of them. -/

namespace Sys2Proof.Machine

/-- `lo <= x <= hi` with all three taken as they stand. -/
def within (lo x hi : F32) : Bool := fLeRaw lo x && fLeRaw x hi

/-- A finite value above zero. -/
def positive (x : F32) : Bool := fIsFinite x && !fLeRaw x 0#32

/-- Strictly ascending finite values above zero (00 R7, `BANDMAX`). -/
def ascending : List F32 → Bool
  | [] => true
  | [m] => positive m
  | m :: m' :: ms => positive m && !fLeRaw m' m && ascending (m' :: ms)

/-- The legal ranges of 00 R7. That `MAX_CUTOFF` and `FS_MAX` are finite is DEDUCED: CUTOFF always holds a finite value (10 R33),
and `+inf` fails `fs <= FS_MAX` (46 R302). -/
def legalConfig (c : Config) : Bool :=
  decide (1 ≤ c.nv) && decide (c.nv ≤ 8) && decide (4 ≤ c.tb) && decide (c.tb ≤ 16) &&
  decide (1 ≤ c.nb) && decide (c.nb ≤ 16) && ascending c.bandMax &&
  decide (1 ≤ c.sub) && decide (c.sub ≤ 65535) && decide (c.oscGainRampLen ≤ 1048576) &&
  within 0#32 c.filterRampS 0x3F800000#32 && within 0#32 c.idleS 0x41200000#32 &&
  within 0#32 c.maxAnalog 0x3DCCCCCD#32 && within 0#32 c.maxDetune 0x3F800000#32 &&
  within 0#32 c.lfoRateHz 0x42C80000#32 && within 0#32 c.lfoDepth 0x3F800000#32 &&
  within 0#32 c.voiceGain 0x40800000#32 &&
  positive c.minCutoff && fIsFinite c.maxCutoff && fLeRaw c.minCutoff c.maxCutoff &&
  decide (c.defaultSeed ≠ 0#32) && fIsFinite c.fsMax && fLeRaw 0x3F800000#32 c.fsMax && fIsNaN c.qnan

/-- A parameter register holds a finite value in its range, never `-0.0` (10 R33). -/
def legalParam (c : Config) (p : ParamReg) (x : F32) : Prop :=
  fIsFinite x ∧ fle c (paramLo c p) x ∧ fle c x (paramHi c p) ∧ x ≠ 0x80000000#32

/-- Every register holds a legal value (10 R31 to R36). -/
def legalRegs (c : Config) (r : Regs) : Prop :=
  (∀ p, legalParam c p (getParam r p)) ∧ r.waveform.toNat ≤ 2 ∧ r.modWheel.toNat ≤ 127 ∧
    r.pitchWheel.toNat ≤ 0x3FFF ∧ r.ctrl.toNat ≤ 1

/-- The stages an envelope can be in when its voice is in a given lifecycle state, between two samples (44 R251, R257): a voice
that is IDLE or FADING has an idle envelope, a RELEASING one is in RELEASE, a PLAYING one in ATTACK, DECAY or SUSTAIN. -/
def stageFits : VoiceState → EnvStage → Bool
  | .idle, e => e == .idle
  | .fading, e => e == .idle
  | .releasing, e => e == .release
  | .playing, e => e == .attack || e == .decay || e == .sustain

/-- A voice between two samples: its stage fits its state, its fade timer runs exactly in FADING (44 R253), its sub-block counter
is at most `SUB` (44 R252), its waveform is one of three (10 R46). -/
def legalVoice (c : Config) (V : Voice) : Prop :=
  stageFits V.state V.env.stage ∧ (V.state = .fading ↔ V.fade ≠ 0#32) ∧ V.sbc.toNat ≤ c.sub ∧ V.wave.toNat ≤ 2

/-- The error record (10 R39, 60 R342): empty before the first error, and then a code of 60 R340 and a count of at least 1. -/
def legalRecord (g : Global) : Prop :=
  (g.err = false → g.errCode = 0#8 ∧ g.errOp = 0#8 ∧ g.errCount = 0#16) ∧
  (g.err = true → 1 ≤ g.errCode.toNat ∧ g.errCode.toNat ≤ 7 ∧ g.errCount ≠ 0#16)

/-- The derived rates are those PREPARE computes from the sample rate (46 R302). -/
def ratesOk (s : State) : Prop :=
  let r := prepareRates s.cfg s.g s.g.nch.toNat s.g.maxBlock.toNat s.g.fs
  s.g.nyq = r.nyq ∧ s.g.incScale = r.incScale ∧ s.g.cutScale = r.cutScale ∧ s.g.fc = r.fc ∧ s.g.fRamp = r.fRamp ∧
    s.g.idleLen = r.idleLen ∧ s.g.lfoInc = r.lfoInc

/-- What a successful PREPARE has left and nothing changes after it (46 R302, 40 R138): the operands are legal, the rates and
orders are those of the sample rate, the tables are those of the orders. -/
def preparedOk (s : State) : Prop :=
  (∃ nch mb, prepareLegal s.cfg nch mb s.g.fs = true ∧ mb < 65536 ∧ s.g.nch = BitVec.ofNat 32 nch ∧
    s.g.maxBlock = BitVec.ofNat 32 mb) ∧
  ratesOk s ∧ s.g.order = buildOrders s.cfg s.g.nyq ∧ s.wt = buildTables s.cfg s.g.order

/-- The dry and wet gains go together (45 R288). -/
def dryWetOk (s : State) : Prop := s.g.gDryLast = fsub s.cfg 0x3F800000#32 s.g.gWetLast

/-- The invariant of the whole machine between two commands. -/
structure Inv (s : State) : Prop where
  cfg : legalConfig s.cfg = true
  pool : s.voices.length = s.cfg.nv
  regs : legalRegs s.cfg s.regs
  rng : s.g.rng ≠ 0#32
  voices : ∀ V ∈ s.voices, legalVoice s.cfg V
  record : legalRecord s.g
  built : s.g.prepared = true → preparedOk s
  silent : s.g.prepared = false → ∀ V ∈ s.voices, V.state = .idle
  dryWet : dryWetOk s

/-- The errors each command may raise (60 R341). -/
def allowedErrors : Instr → List ErrorCode
  | .nop => []
  | .prepare _ _ _ => [.badPrepare]
  | .setParam _ _ => [.badAddr, .badValue]
  | .readReg _ => [.badAddr]
  | .noteOn _ _ _ _ => [.notPrepared, .badVoice]
  | .noteOff _ _ _ => [.notPrepared, .badVoice]
  | .pitchBend _ => []
  | .controller _ _ => []
  | .render _ => [.notPrepared, .badLength]

/-- The lifecycle changes a command may cause in voice `v` (44 R257), from state `a` to state `b`; `a = b` always may be. -/
def mayBecome (i : Instr) (v : Nat) (a b : VoiceState) : Prop :=
  a = b ∨
  match i with
  | .noteOn u _ _ _ => u = v ∧ b = .playing
  | .noteOff u true _ => u = v ∧ a = .playing ∧ b = .releasing
  | .noteOff u false _ => u = v ∧ b = .idle
  | .prepare _ _ _ => b = .idle
  | .render _ => (a = .releasing ∧ (b = .fading ∨ b = .idle)) ∨ (a = .fading ∧ b = .idle)
  | _ => False

/-- The bits of a command word that are decoded, by opcode (30 R101). -/
def usedBits (op : Byte) : Cmd :=
  match op.toNat with
  | 0x00 => 0xFF00000000000000#64
  | 0x01 => 0xFFFFFFFFFFFFFFFF#64
  | 0x02 => 0xFFFF0000FFFFFFFF#64
  | 0x03 => 0xFFFF000000000000#64
  | 0x04 => 0xFFFF7F7F00003FFF#64
  | 0x05 => 0xFFFF7F0100000000#64
  | 0x06 => 0xFF00000000003FFF#64
  | 0x07 => 0xFF7F00000000007F#64
  | 0x08 => 0xFF00FFFF00000000#64
  | _ => 0xFFFFFFFFFFFFFFFF#64

/-- A voice after `k` frames of a RENDER (45 R280): a busy voice makes a sample in each, an idle one stays. -/
def voiceRun (s : State) : Nat → Voice → Voice
  | 0, V => V
  | k + 1, V => voiceRun s k (if V.busy then (voiceSample s V).2 else V)

/-- The sample a busy voice makes next: a control update if one is due, the two oscillators added, the filter, the voice gain
(44 R252). -/
def voiceOut (s : State) (V : Voice) : F32 :=
  let U := if V.sbc = 0#32 then controlUpdate s V else V
  let x := fadd s.cfg (oscSample s U.wave U.osc1).1 (oscSample s U.wave U.osc2).1
  fmul s.cfg s.cfg.voiceGain (filterSample s U.drive U.flt x).1

/-- The voice sum of frame `i` of a RENDER: the samples of the busy voices, added in ascending order onto `+0.0` (45 R280). -/
def voiceMix (s : State) (i : Nat) : F32 :=
  (s.voices.map (voiceRun s i)).foldl (fun acc V => if V.state = .idle then acc else fadd s.cfg acc (voiceOut s V)) 0#32

/-- Sample `ch` of return frame `i` of an active RENDER (45 R283). -/
def returnSample (s : State) (i ch : Nat) : F32 :=
  (s.ports.rvRet.getD i []).getD ch (Config.reverbReturn (s.ports.rvDraws + i * s.g.nch.toNat + ch))

/-- Oscillator 2's frequency for base frequency `f2base` and LFO value `val`: `clamp(f2base * (1.0 + LFO_DEPTH * mw * val), +0, nyq)`
with `mw = toF32(MOD_WHEEL) / 127` (44 R256, 41 R150). -/
def lfoFreq (s : State) (f2base val : F32) : F32 :=
  let c := s.cfg
  let mw := fdiv c (fOfNat c s.regs.modWheel.toNat) 0x42FE0000#32
  fclamp c (fmul c f2base (fadd c 0x3F800000#32 (fmul c (fmul c c.lfoDepth mw) val))) 0#32 s.g.nyq

/-- An oscillator's increment and band are those of its frequency (41 R150). -/
def tuned (s : State) (o : Osc) : Prop :=
  o.inc.toNat = fRneSat (fmul s.cfg o.freq s.g.incScale) 2147483648 ∧ o.band = BitVec.ofNat 4 (bandSelect s.cfg o.freq)

/-- A smoother after `k` calls of `smNext` (41 R157). -/
def smAfter (c : Config) (m : Smoother) : Nat → Smoother
  | 0 => m
  | k + 1 => (smNext c (smAfter c m k)).2

/-- The value that call number `k + 1` of `smNext` returns (41 R157). -/
def smValue (c : Config) (m : Smoother) (k : Nat) : F32 := (smNext c (smAfter c m k)).1

/-- A run is safe while no error is recorded (60 R342: a claim about a run takes "no error recorded" as a premise). -/
def noError (s : State) : Bool := !s.g.err

/-- Every port partner does its duty for ever (70 R383). -/
def partnersAnswer (s : State) : Prop :=
  s.ports.respCredit = none ∧ s.ports.frameCredit = none ∧ s.ports.rvCredit = none

end Sys2Proof.Machine
end

