-- ==== Sys2Proof/Certificates/Slice0/Obligations.lean ====
section
/-! DEFINITION. The statements about the model, from the numbered rules of the spec. A docstring names the rule; where a clause
rests on the model's own choice it names the log entry. -/

open Sys2Proof Sys2Proof.Machine

/-! ### Encoding -/

/-- Decoding the bytes of a well-formed command gives the command back and leaves what follows (30 R100, R101, R108; the byte
order is 20 R84). -/
def Obligations.DecodeInvertsEncode : Prop :=
  ∀ (i : Instr) (rest : List Byte), i.wellFormed = true → decode (encode i ++ rest) = .ok (i, rest)

/-- The worked encodings of 30 R110 decode to the commands they are written for. -/
def Obligations.WorkedEncodingsDecode : Prop :=
  decodeCmd 0x01020200473B8000#64 = .ok (.prepare 2 512 0x473B8000#32) ∧
  decodeCmd 0x04007F4500002000#64 = .ok (.noteOn 0 69 127 0x2000) ∧
  decodeCmd 0x0500000000000000#64 = .ok (.noteOff 0 false 0) ∧
  decodeCmd 0x0501000100000000#64 = .ok (.noteOff 1 true 0) ∧
  decodeCmd 0x02020000447A0000#64 = .ok (.setParam 0x02#8 0x447A0000#32) ∧
  decodeCmd 0x020700003F000000#64 = .ok (.setParam 0x07#8 0x3F000000#32) ∧
  decodeCmd 0x0320000000000000#64 = .ok (.readReg 0x20#8) ∧
  decodeCmd 0x0600000000003FFF#64 = .ok (.pitchBend 0x3FFF) ∧
  decodeCmd 0x0701000000000040#64 = .ok (.controller 1 64) ∧
  decodeCmd 0x0800020000000000#64 = .ok (.render 512)

/-- 30 R104: a word matches the row of opcode `k` exactly when the decoder reads a command with that opcode from it, exactly one
row matches a word with `OP <= 0x08`, and the operands read fit their fields; a word that matches no row is refused. -/
def Obligations.OpcodeAloneSelectsCommand : Prop :=
  ∀ w : Cmd,
    (∀ k : Nat, k ≤ 8 →
      (w &&& 0xFF00000000000000#64 = BitVec.ofNat 64 (k * 2 ^ 56) ↔
        ∃ i, decodeCmd w = .ok i ∧ i.opcode.toNat = k)) ∧
    ((cmdOp w).toNat ≤ 8 → ∃! k : Nat, k ≤ 8 ∧ w &&& 0xFF00000000000000#64 = BitVec.ofNat 64 (k * 2 ^ 56)) ∧
    (∀ i, decodeCmd w = .ok i → i.wellFormed = true ∧ i.opcode = cmdOp w) ∧
    (8 < (cmdOp w).toNat → decodeCmd w = .error (.illegalOpcode (cmdOp w)))

/-! ### One step -/

/-- 46 R300, 20 R87: when the bytes on the command port begin with a command, a step takes its eight bytes and is the execution
of that command. -/
def Obligations.StepRunsDecodedCommand : Prop :=
  ∀ (s : State) (i : Instr) (rest : List Byte), s.ports.rst = .low → decode s.ports.cmdIn = .ok (i, rest) →
    step s = exec i (setCmdIn rest s)

/-- 30 R105: a word with a reserved opcode raises ILLEGAL_OPCODE and does nothing else; in a word with another opcode the ignored
bits have no effect. -/
def Obligations.ReservedOpcodeIsRecorded : Prop :=
  (∀ (s : State) (w : Cmd) (rest : List Byte), s.ports.rst = .low → s.ports.cmdIn = bytesOfCmd w ++ rest →
    8 < (cmdOp w).toNat → step s = .next (raiseError .illegalOpcode (cmdOp w) (setCmdIn rest s))) ∧
  (∀ w : Cmd, decodeCmd (w &&& usedBits (cmdOp w)) = decodeCmd w)

/-- 20 R85, 70 R382: with fewer than eight bytes on the command port there is no command; the machine waits. That waiting is the
fault `commandPortWaiting` is log entry 9. -/
def Obligations.PartialWordIsNoCommand : Prop :=
  ∀ s : State, s.ports.rst = .low → s.ports.cmdIn.length < 8 → step s = .fault .commandPortWaiting

/-- 70 R370, R371: an asserted reset puts every piece of state at its reset value, leaves at the ports everything that has been
handed over, and discards the partial command word: what stays on the command port is whole words, and fewer than eight bytes are
gone from its end. The ports' form is log entries 9 to 11. -/
def Obligations.ResetInputRestoresResetState : Prop :=
  ∀ s : State, s.ports.rst = .high → ∃ t part, step s = .next t ∧
    t = State.resetWith s.cfg t.ports ∧ t.ports = { s.ports with cmdIn := t.ports.cmdIn, rst := .low } ∧
    s.ports.cmdIn = t.ports.cmdIn ++ part ∧ part.length < 8 ∧ t.ports.cmdIn.length % 8 = 0

/-- 70 R371: a RENDER that a reset abandons after `k` port transfers has emitted the first `m` frames of that RENDER, where a frame
is one transfer, or three in an active block (45 R285); they stay emitted, the state is the reset state, and of the bytes that
follow the command the partial word is discarded. The form of the input is log entry 10. -/
def Obligations.ResetDuringRenderKeepsEmittedFrames : Prop :=
  ∀ (s : State) (k n : Nat) (rest : List Byte), s.ports.rst = .highDuring k →
    decode s.ports.cmdIn = .ok (.render n, rest) → s.g.prepared = true → n ≤ s.g.maxBlock.toNat → partnersAnswer s →
    ∃ t u ys zs part, step s = .next t ∧ exec (.render n) (setCmdIn rest s) = .next u ∧
      let m := min (if reverbActive s then k / 3 else k) n
      t = State.resetWith s.cfg t.ports ∧ t.ports.rst = .low ∧ ys.length = m ∧ zs.length = n - m ∧
      t.ports.frameOut = s.ports.frameOut ++ ys ∧ u.ports.frameOut = s.ports.frameOut ++ (ys ++ zs) ∧
      rest = t.ports.cmdIn ++ part ∧ part.length < 8 ∧ t.ports.cmdIn.length % 8 = 0

/-- 10 R31, R38, R39, R44; 70 R370: what the registers read right after reset, for any legal parameters. -/
def Obligations.ResetRegisterValues : Prop :=
  ∀ (c : Config) (p : Ports),
    let s := State.resetWith c p
    readReg s 0x00#8 = some 0#32 ∧ readReg s 0x01#8 = some 0#32 ∧ readReg s 0x02#8 = some c.maxCutoff ∧
    readReg s 0x03#8 = some 0#32 ∧ readReg s 0x04#8 = some 0x3F800000#32 ∧ readReg s 0x05#8 = some 0x3C23D70A#32 ∧
    readReg s 0x06#8 = some 0x3C23D70A#32 ∧ readReg s 0x07#8 = some 0x3F800000#32 ∧
    readReg s 0x08#8 = some 0x3C23D70A#32 ∧ readReg s 0x09#8 = some 0#32 ∧ readReg s 0x0A#8 = some 0#32 ∧
    readReg s 0x0B#8 = some 0#32 ∧ readReg s 0x0C#8 = some 0#32 ∧ readReg s 0x0D#8 = some 0x3F800000#32 ∧
    readReg s 0x0E#8 = some 0#32 ∧ readReg s 0x0F#8 = some 0x2000#32 ∧ readReg s 0x10#8 = some 1#32 ∧
    readReg s 0x11#8 = some c.defaultSeed ∧ readReg s 0x20#8 = some 0#32 ∧ readReg s 0x21#8 = some 0#32 ∧
    readReg s 0x22#8 = some 0#32 ∧ readReg s 0x23#8 = some 0#32 ∧ readReg s 0x24#8 = some 0#32 ∧
    readReg s 0x25#8 = some 0#32 ∧ readReg s 0x26#8 = some 0#32 ∧
    (∀ a : Byte, 0x40 ≤ a.toNat → a.toNat < 0x40 + 8 * c.nv → a.toNat ≤ 0x7F → readReg s a = some 0#32) ∧
    errO s = false

/-! ### Errors -/

/-- 60 R342, 10 R39: the error action keeps the first code and opcode, sets the sticky mark, counts up to 0xFFFF, and changes
nothing else. -/
def Obligations.ErrorActionKeepsFirstError : Prop :=
  ∀ (e : ErrorCode) (op : Byte) (s : State),
    let t := raiseError e op s
    t.g.err = true ∧ errO t = true ∧
    t.g.errCount.toNat = min (s.g.errCount.toNat + 1) 0xFFFF ∧
    (s.g.err = false → t.g.errCode = errorByte e ∧ t.g.errOp = op) ∧
    (s.g.err = true → t.g.errCode = s.g.errCode ∧ t.g.errOp = s.g.errOp) ∧
    t.cfg = s.cfg ∧ t.regs = s.regs ∧ t.wt = s.wt ∧ t.voices = s.voices ∧ t.ports = s.ports ∧
    t.g = { s.g with err := t.g.err, errCode := t.g.errCode, errOp := t.g.errOp, errCount := t.g.errCount }

/-- 60 R341: a command that completes leaves the error record as it was, or has added exactly one of the errors listed for it,
under its own opcode. -/
def Obligations.CommandsRaiseOnlyListedErrors : Prop :=
  ∀ (i : Instr) (s t : State), exec i s = .next t →
    (t.g.err = s.g.err ∧ t.g.errCode = s.g.errCode ∧ t.g.errOp = s.g.errOp ∧ t.g.errCount = s.g.errCount) ∨
    ∃ e ∈ allowedErrors i,
      t.g.err = true ∧ t.g.errCode = (raiseError e i.opcode s).g.errCode ∧
      t.g.errOp = (raiseError e i.opcode s).g.errOp ∧ t.g.errCount = (raiseError e i.opcode s).g.errCount ∧
      t.regs = s.regs ∧ t.voices = s.voices ∧ t.wt = s.wt

/-- 60 R342: once an error is recorded, no step but a reset clears the mark or changes the first code and opcode, and the count
never falls. -/
def Obligations.ErrorMarkIsSticky : Prop :=
  ∀ s t : State, s.ports.rst = .low → step s = .next t → s.g.err = true →
    t.g.err = true ∧ t.g.errCode = s.g.errCode ∧ t.g.errOp = s.g.errOp ∧ s.g.errCount.toNat ≤ t.g.errCount.toNat

/-- 46 R302, R305, R306, R309; 60 R340, R343: before PREPARE the three note and render commands record NOT_PREPARED whatever their
operands are; after it a voice past the pool records BAD_VOICE and a RENDER longer than MAX_BLOCK records BAD_LENGTH. A PREPARE with
a sample rate outside `[1.0, FS_MAX]` (NaN included), a block size of 0 or a channel count other than 1 or 2 records BAD_PREPARE in
either state. Nothing else happens. -/
def Obligations.RefusedCommands : Prop :=
  ∀ (s : State) (v n vel w rv : Nat) (tail : Bool),
    (s.g.prepared = false →
      exec (.noteOn v n vel w) s = .next (raiseError .notPrepared 0x04#8 s) ∧
      exec (.noteOff v tail rv) s = .next (raiseError .notPrepared 0x05#8 s) ∧
      exec (.render n) s = .next (raiseError .notPrepared 0x08#8 s)) ∧
    (s.g.prepared = true → s.cfg.nv ≤ v →
      exec (.noteOn v n vel w) s = .next (raiseError .badVoice 0x04#8 s) ∧
      exec (.noteOff v tail rv) s = .next (raiseError .badVoice 0x05#8 s)) ∧
    (s.g.prepared = true → s.g.maxBlock.toNat < n →
      exec (.render n) s = .next (raiseError .badLength 0x08#8 s)) ∧
    (∀ (nch mb : Nat) (fs : F32),
      (fle s.cfg 0x3F800000#32 fs = false ∨ fle s.cfg fs s.cfg.fsMax = false ∨ mb = 0 ∨ (nch ≠ 1 ∧ nch ≠ 2)) →
      exec (.prepare nch mb fs) s = .next (raiseError .badPrepare 0x01#8 s))

/-! ### NOP, PREPARE -/

/-- 46 R301: NOP does nothing in every state, and every word with opcode 0 is a NOP. -/
def Obligations.NopDoesNothing : Prop :=
  (∀ s : State, exec .nop s = .next s) ∧ (∀ w : Cmd, cmdOp w = 0x00#8 → decodeCmd w = .ok .nop)

/-- 46 R302, 70 R372: a PREPARE with legal operands completes, sets the rates, the block size, the channels and the last gains,
and keeps the registers, the RNG, the frame counter, the error record and the ports. -/
def Obligations.PrepareSetsRates : Prop :=
  ∀ (s : State) (nch mb : Nat) (fs : F32),
    fle s.cfg 0x3F800000#32 fs = true → fle s.cfg fs s.cfg.fsMax = true → mb ≠ 0 → mb < 65536 → (nch = 1 ∨ nch = 2) →
    ∃ t, exec (.prepare nch mb fs) s = .next t ∧
      t.g.prepared = true ∧ t.g.fs = fs ∧ t.g.maxBlock.toNat = mb ∧ t.g.nch.toNat = nch ∧
      t.g.nyq = fmul s.cfg fs 0x3F000000#32 ∧ t.g.incScale = fdiv s.cfg 0x4F800000#32 fs ∧
      t.g.cutScale = fdiv s.cfg 0xC0C90FDB#32 fs ∧ t.g.fc = fdiv s.cfg fs (fOfNat s.cfg s.cfg.sub) ∧
      t.g.fRamp = toU32 (fFloorProd s.cfg.filterRampS fs) ∧ t.g.idleLen = toU32 (fFloorProd s.cfg.idleS fs) ∧
      t.g.lfoInc.toNat =
        fRneSat (fmul s.cfg (fmul s.cfg s.cfg.lfoRateHz (fOfNat s.cfg s.cfg.sub)) t.g.incScale) 2147483648 ∧
      t.g.gDryLast = fsub s.cfg 0x3F800000#32 s.regs.reverb ∧ t.g.gWetLast = s.regs.reverb ∧
      t.g.gMLast = s.regs.masterGain ∧
      t.cfg = s.cfg ∧ t.regs = s.regs ∧ t.ports = s.ports ∧ t.g.rng = s.g.rng ∧ t.g.frames = s.g.frames ∧
      t.g.err = s.g.err ∧ t.g.errCode = s.g.errCode ∧ t.g.errOp = s.g.errOp ∧ t.g.errCount = s.g.errCount

/-- 40 R130, R131: a successful PREPARE sets the order of every waveform and band by the formulas of R130 and stores in every
table point the configuration's value for that order. That every order is at least 1 is the spec's sentence 40 R136. -/
def Obligations.PrepareBuildsTables : Prop :=
  ∀ (s t : State) (nch mb : Nat) (fs : F32), prepareLegal s.cfg nch mb fs = true →
    exec (.prepare nch mb fs) s = .next t →
    ∀ (w b k : Nat) (bm : F32), w < 3 → s.cfg.bandMax[b]? = some bm → k ≤ 2 ^ s.cfg.tb →
      let order := (t.g.order.getD w []).getD b 0#32
      order = harmonicOrder s.cfg t.g.nyq w bm ∧ 1 ≤ order.toNat ∧ wtRead t.wt w b k = cfgWtv w order.toNat k

/-- 46 R302, 43 R222: a successful PREPARE leaves `NV` voices, every field of each at its reset value, but for the oscillator gain
smoothers, which have the configured length, and the filter smoothers, which stand at the targets of CUTOFF and RESONANCE with
length `fRamp` and no ramp. -/
def Obligations.PrepareInitialisesVoices : Prop :=
  ∀ (s t : State) (nch mb : Nat) (fs : F32), prepareLegal s.cfg nch mb fs = true →
    exec (.prepare nch mb fs) s = .next t →
    t.voices.length = s.cfg.nv ∧
    ∀ v, v < s.cfg.nv →
      let osc : Osc := ⟨0#32, 0#32, 0#32, 0#4, 0#32, 0#32, 0#32, 0#32, BitVec.ofNat 32 s.cfg.oscGainRampLen⟩
      let a := cutCoeff t s.regs.cutoff
      let r := resCoeff s.cfg s.regs.resonance
      t.voice v =
        { state := .idle, note := 0#7, vel := 0#32, velLevel := 0#32, wave := 0#2, det := 0#32, df1 := 0#32, df2 := 0#32,
          fbase := 0#32, f2base := 0#32, osc1 := osc, osc2 := osc,
          env := ⟨.idle, 0#32, 0#32, 0#32, 0#32, 0#32, 0#32⟩,
          flt := ⟨0#32, 0#32, 0#32, 0#32, 0#32, ⟨a, a, 0#32, 0#32, t.g.fRamp⟩, ⟨r, r, 0#32, 0#32, t.g.fRamp⟩⟩,
          drive := ⟨0#32, 0#32, 0#32, 0#32⟩, lfo := ⟨0#32, 0#32⟩, sbc := 0#32, fade := 0#32 }

/-! ### The register space -/

/-- 10 R31, 20 R86: what every address names; the reserved addresses, and no others, name nothing; the RW addresses, and no
others, are written; and the legal range of every binary32 register. -/
def Obligations.AddressMapIsTheSpecs : Prop :=
  ∀ (c : Config) (a : Byte), c.nv ≤ 8 →
    (regOf c 0x00#8 = some .waveform ∧ regOf c 0x01#8 = some (.param .detune) ∧ regOf c 0x02#8 = some (.param .cutoff) ∧
      regOf c 0x03#8 = some (.param .resonance) ∧ regOf c 0x04#8 = some (.param .drive) ∧
      regOf c 0x05#8 = some (.param .attack) ∧ regOf c 0x06#8 = some (.param .decay) ∧
      regOf c 0x07#8 = some (.param .sustain) ∧ regOf c 0x08#8 = some (.param .release) ∧
      regOf c 0x09#8 = some (.param .cutoffEnvAmt) ∧ regOf c 0x0A#8 = some (.param .resEnvAmt) ∧
      regOf c 0x0B#8 = some (.param .velEnvAmt) ∧ regOf c 0x0C#8 = some (.param .reverb) ∧
      regOf c 0x0D#8 = some (.param .masterGain) ∧ regOf c 0x0E#8 = some .modWheel ∧
      regOf c 0x0F#8 = some .pitchWheel ∧ regOf c 0x10#8 = some .ctrl ∧ regOf c 0x11#8 = some .rngState ∧
      regOf c 0x20#8 = some .status ∧ regOf c 0x21#8 = some .errCode ∧ regOf c 0x22#8 = some .sampleRate ∧
      regOf c 0x23#8 = some .maxBlock ∧ regOf c 0x24#8 = some .numChannels ∧ regOf c 0x25#8 = some .frameCountLo ∧
      regOf c 0x26#8 = some .frameCountHi ∧ regOf c 0x27#8 = some .config) ∧
    (∀ v k, v < c.nv → k < 8 → a.toNat = 0x40 + 8 * v + k → regOf c a = some (.voice v k)) ∧
    (regOf c a = none ↔
      (0x12 ≤ a.toNat ∧ a.toNat ≤ 0x1F) ∨ (0x28 ≤ a.toNat ∧ a.toNat ≤ 0x3F) ∨ 0x40 + 8 * c.nv ≤ a.toNat) ∧
    (∀ (s : State) (d : Word), s.cfg = c → fIsFinite d = true →
      ((∃ t, writeReg s (regOf c a) d = .ok t) ↔ a.toNat ≤ 0x0D ∨ a.toNat = 0x10 ∨ a.toNat = 0x11)) ∧
    (∀ p, (p ∈ [ParamReg.detune, .resonance, .sustain, .velEnvAmt, .reverb] →
        paramLo c p = 0x00000000#32 ∧ paramHi c p = 0x3F800000#32) ∧
      (p ∈ [ParamReg.attack, .decay, .release] → paramLo c p = 0x3C23D70A#32 ∧ paramHi c p = 0x41700000#32) ∧
      (p ∈ [ParamReg.cutoffEnvAmt, .resEnvAmt] → paramLo c p = 0xBF800000#32 ∧ paramHi c p = 0x3F800000#32)) ∧
    paramLo c .cutoff = c.minCutoff ∧ paramHi c .cutoff = c.maxCutoff ∧
    paramLo c .drive = 0x3F800000#32 ∧ paramHi c .drive = 0x42480000#32 ∧
    paramLo c .masterGain = 0x00000000#32 ∧ paramHi c .masterGain = 0x40800000#32

/-- 46 R303: SET_PARAM of a finite value to a binary32 register completes and stores the value clamped to the register's range,
with a zero stored as `+0.0`, so that the register holds a finite value inside its range and never `-0.0` (10 R33). Every other
register and all other state is unchanged. -/
def Obligations.SetParamStoresClampedValue : Prop :=
  ∀ (s : State) (a : Byte) (d : F32) (p : ParamReg), legalConfig s.cfg = true → regOf s.cfg a = some (.param p) →
    fIsFinite d = true →
    ∃ t x, exec (.setParam a d) s = .next t ∧ t = s.setRegs (putParam s.regs p x) ∧ readReg t a = some x ∧
      legalParam s.cfg p x ∧
      (let plus := fun y : F32 => if feq s.cfg y 0#32 then 0#32 else y
       (fle s.cfg (paramLo s.cfg p) d = false → x = plus (paramLo s.cfg p)) ∧
       (fle s.cfg (paramLo s.cfg p) d = true → fle s.cfg d (paramHi s.cfg p) = true → x = plus d) ∧
       (fle s.cfg d (paramHi s.cfg p) = false → x = plus (paramHi s.cfg p))) ∧
      (∀ q, q ≠ p → getParam t.regs q = getParam s.regs q)

/-- 46 R303, 10 R32, R36, R37: SET_PARAM of WAVEFORM stores `min(d, 2)`, of CTRL bit 0 alone, of RNG_STATE the value or, for 0,
DEFAULT_SEED; nothing else changes. -/
def Obligations.SetParamIntegerRegisters : Prop :=
  ∀ (s : State) (d : Word),
    (∃ t, exec (.setParam 0x00#8 d) s = .next t ∧ t.regs.waveform.toNat = min d.toNat 2 ∧
      t = s.setRegs { s.regs with waveform := t.regs.waveform }) ∧
    (∃ t, exec (.setParam 0x10#8 d) s = .next t ∧ t.regs.ctrl.toNat = d.toNat % 2 ∧
      t = s.setRegs { s.regs with ctrl := t.regs.ctrl }) ∧
    (∃ t, exec (.setParam 0x11#8 d) s = .next t ∧ (d ≠ 0#32 → t.g.rng = d) ∧ (d = 0#32 → t.g.rng = s.cfg.defaultSeed) ∧
      t = s.setG { s.g with rng := t.g.rng })

/-- 46 R303: SET_PARAM to a read-only or reserved address records BAD_ADDR, and a NaN or an infinity to a binary32 register
BAD_VALUE; nothing else changes. -/
def Obligations.SetParamRefusals : Prop :=
  ∀ (s : State) (a : Byte) (d : Word),
    (¬ (a.toNat ≤ 0x0D ∨ a.toNat = 0x10 ∨ a.toNat = 0x11) →
      exec (.setParam a d) s = .next (raiseError .badAddr 0x02#8 s)) ∧
    (1 ≤ a.toNat → a.toNat ≤ 0x0D → fIsFinite d = false →
      exec (.setParam a d) s = .next (raiseError .badValue 0x02#8 s))

/-- 20 R82, 46 R303: a SET_PARAM that raises no error changes what its own address reads and nothing else in the register space;
only STATUS may follow, through REVERB_ACTIVE (10 R38). -/
def Obligations.SetParamLeavesOtherAddresses : Prop :=
  ∀ (s t : State) (a b : Byte) (d : Word), exec (.setParam a d) s = .next t → t.g.errCount = s.g.errCount →
    s.g.errCount ≠ 0xFFFF#16 → b ≠ a → b ≠ 0x20#8 → readReg t b = readReg s b

/-- 46 R304, 20 R82: READ_REG of an address that is not reserved completes, responds with the register's value and has no other
effect. 20 R84: a byte transport carries the response as four bytes, least significant first. -/
def Obligations.ReadRegResponds : Prop :=
  ∀ (s : State) (a : Byte) (r : Word), readReg s a = some r → s.ports.respCredit ≠ some 0 →
    ∃ t, exec (.readReg a) s = .next t ∧ t.ports.respOut = s.ports.respOut ++ [r] ∧
      (∃ b0 b1 b2 b3 : Byte, respBytes t.ports = respBytes s.ports ++ [b0, b1, b2, b3] ∧
        r.toNat = b0.toNat + 256 * b1.toNat + 65536 * b2.toNat + 16777216 * b3.toNat) ∧
      t.cfg = s.cfg ∧ t.regs = s.regs ∧ t.g = s.g ∧ t.wt = s.wt ∧ t.voices = s.voices ∧
      t.ports = { s.ports with respOut := t.ports.respOut, respCredit := t.ports.respCredit }

/-- 46 R304: READ_REG of a reserved address responds 0 and records BAD_ADDR. 70 R382: with a host that never takes the response
word READ_REG waits for ever (log entry 8). -/
def Obligations.ReadRegReservedAndStuck : Prop :=
  ∀ (s : State) (a : Byte),
    (regOf s.cfg a = none → s.ports.respCredit ≠ some 0 →
      ∃ u, exec (.readReg a) s = .next (raiseError .badAddr 0x03#8 u) ∧
        u.ports.respOut = s.ports.respOut ++ [0#32] ∧
        u = s.setPorts { s.ports with respOut := u.ports.respOut, respCredit := u.ports.respCredit }) ∧
    (s.ports.respCredit = some 0 → exec (.readReg a) s = .fault .responsePortStuck)

/-- 10 R38: the fields of STATUS; REVERB_ACTIVE, and the activity a RENDER works with, are `x[REVERB] != 0 or G.gWetLast != 0`
(45 R282). -/
def Obligations.StatusFields : Prop :=
  ∀ (s : State) (w : Word), s.voices.length = s.cfg.nv → s.cfg.nv ≤ 8 → readReg s 0x20#8 = some w →
    let active := !feq s.cfg s.regs.reverb 0#32 || !feq s.cfg s.g.gWetLast 0#32
    w.getLsbD 0 = s.g.prepared ∧ w.getLsbD 1 = active ∧ reverbActive s = active ∧ w.getLsbD 2 = s.g.err ∧
    (∀ k, 3 ≤ k → k ≤ 7 → w.getLsbD k = false) ∧
    (∀ v, v < s.cfg.nv → (w.getLsbD (8 + v) = true ↔ (s.voice v).state ≠ .idle)) ∧
    (∀ k, 8 + s.cfg.nv ≤ k → w.getLsbD k = false)

/-- 10 R44: the fields of CONFIG; its value is constant, and it is read-only. -/
def Obligations.ConfigIdentifiesBuild : Prop :=
  (∀ (s : State), legalConfig s.cfg = true →
    ∃ w, readReg s 0x27#8 = some w ∧ (w.extractLsb' 0 8).toNat = s.cfg.nv ∧ (w.extractLsb' 8 8).toNat = s.cfg.tb ∧
      (w.extractLsb' 16 8).toNat = s.cfg.nb ∧ (w.extractLsb' 24 8).toNat = 1) ∧
  (∀ s t : State, step s = .next t → t.cfg = s.cfg ∧ readReg t 0x27#8 = readReg s 0x27#8) ∧
  (∀ (s : State) (d : Word), exec (.setParam 0x27#8 d) s = .next (raiseError .badAddr 0x02#8 s))

/-- 10 R39, R43, R45: the fields of ERR_CODE, FRAME_COUNT and the eight readback words of a voice, with the numbers of VSTATE. -/
def Obligations.ReadbackFields : Prop :=
  ∀ (s : State),
    (∃ w, readReg s 0x21#8 = some w ∧ w.extractLsb' 0 8 = s.g.errCode ∧ w.extractLsb' 8 8 = s.g.errOp ∧
      w.extractLsb' 16 16 = s.g.errCount) ∧
    (∃ lo hi, readReg s 0x25#8 = some lo ∧ readReg s 0x26#8 = some hi ∧
      s.g.frames.toNat = hi.toNat * 4294967296 + lo.toNat) ∧
    (∀ v a, v < s.cfg.nv → v < 8 → a = BitVec.ofNat 8 (0x40 + 8 * v) →
      (∃ w st sg, readReg s a = some w ∧ w.toNat = st + 16 * sg + 256 * (s.voice v).note.toNat ∧
        ((s.voice v).state, st) ∈ [(VoiceState.idle, 0), (.playing, 1), (.releasing, 2), (.fading, 3)] ∧
        ((s.voice v).env.stage, sg) ∈ [(EnvStage.idle, 0), (.attack, 1), (.decay, 2), (.sustain, 3), (.release, 4)]) ∧
      readReg s (a + 1#8) = some (s.voice v).env.level ∧ readReg s (a + 2#8) = some (s.voice v).osc1.freq ∧
      readReg s (a + 3#8) = some (s.voice v).osc2.freq ∧ readReg s (a + 4#8) = some (s.voice v).osc1.phase ∧
      readReg s (a + 5#8) = some (s.voice v).osc2.phase ∧ readReg s (a + 6#8) = some (s.voice v).fade ∧
      readReg s (a + 7#8) = some (s.voice v).env.ticks)

/-! ### NOTE_ON, NOTE_OFF, PITCH_BEND, CONTROLLER -/

/-- 46 R305, 44 R241 to R247, R256; 42 R182, R183: NOTE_ON on a voice of the pool completes, whatever the voice was doing: the
latches, both frequencies with their increments and bands, the attack from the level held with the rates pushed, and what a note
start does not change. -/
def Obligations.NoteOnStartsVoice : Prop :=
  ∀ (s : State) (v n vel7 w : Nat), s.g.prepared = true → v < s.cfg.nv → v < s.voices.length → n < 128 → w < 16384 →
    ∃ t, exec (.noteOn v n vel7 w) s = .next t ∧
      let c := s.cfg
      let V := s.voice v
      let W := t.voice v
      W.state = .playing ∧ W.note.toNat = n ∧ W.vel = velocityOf c vel7 ∧
      W.fbase = fmul c (noteFreq c n) (bendMult c w) ∧ W.wave = s.regs.waveform.extractLsb' 0 2 ∧
      W.drive = latchDrive c s.regs.drive ∧ W.det = s.regs.detune ∧
      W.df1 = driftFactor c (xorshift s.g.rng) ∧ W.df2 = driftFactor c (xorshift (xorshift s.g.rng)) ∧
      W.velLevel = velLevelOf c s.regs.velEnvAmt W.vel ∧ W.f2base = f2baseOf c W ∧
      W.osc1.freq = fclamp c (fmul c W.fbase W.df1) 0#32 s.g.nyq ∧ W.osc2.freq = lfoFreq s W.f2base V.lfo.val ∧
      tuned s W.osc1 ∧ tuned s W.osc2 ∧
      W.env = { V.env with
        stage := .attack
        ticks := 0#32
        rA := fdiv c 0x3F800000#32 (fmul c s.regs.attack s.g.fc)
        rD := fdiv c (fsub c 0x3F800000#32 s.regs.sustain) (fmul c s.regs.decay s.g.fc)
        sus := s.regs.sustain } ∧
      W.sbc = 0#32 ∧ W.fade = 0#32 ∧
      W.osc1.phase = V.osc1.phase ∧ W.osc2.phase = V.osc2.phase ∧ W.osc1.gain = V.osc1.gain ∧
      W.osc2.gain = V.osc2.gain ∧ W.flt = V.flt ∧ W.lfo = V.lfo ∧ t.regs.pitchWheel.toNat = w

/-- 46 R305, 44 R244: besides its voice, NOTE_ON writes PITCH_WHEEL and the RNG, by two draws, and nothing else. -/
def Obligations.NoteOnFrame : Prop :=
  ∀ (s t : State) (v n vel7 w : Nat), s.g.prepared = true → v < s.cfg.nv → exec (.noteOn v n vel7 w) s = .next t →
    (∀ u, u ≠ v → t.voice u = s.voice u) ∧ t.voices.length = s.voices.length ∧
    t.regs = { s.regs with pitchWheel := BitVec.ofNat 32 w } ∧
    t.g = { s.g with rng := xorshift (xorshift s.g.rng) } ∧ t.cfg = s.cfg ∧ t.wt = s.wt ∧ t.ports = s.ports

/-- 46 R306, 44 R258, 42 R184: NOTE_OFF with tail-off releases a PLAYING or RELEASING voice from its level and does nothing to an
IDLE or FADING one; of the envelope it changes the release rate, the stage and the tick counter alone, and nothing in an idle
stage; the release velocity has no effect and nothing else changes. -/
def Obligations.NoteOffReleasesVoice : Prop :=
  ∀ (s : State) (v rv : Nat), s.g.prepared = true → v < s.cfg.nv → v < s.voices.length →
    ∃ t, exec (.noteOff v true rv) s = .next t ∧
      ((s.voice v).state = .idle ∨ (s.voice v).state = .fading → t.voice v = s.voice v) ∧
      ((s.voice v).state = .playing ∨ (s.voice v).state = .releasing →
        let e := (s.voice v).env
        t.voice v = { s.voice v with
          state := .releasing
          env :=
            if e.stage = .idle then e
            else { e with rR := fdiv s.cfg e.level (fmul s.cfg s.regs.release s.g.fc), stage := .release, ticks := 0#32 } }) ∧
      (∀ u, u ≠ v → t.voice u = s.voice u) ∧ t.voices.length = s.voices.length ∧
      t.regs = s.regs ∧ t.g = s.g ∧ t.cfg = s.cfg ∧ t.wt = s.wt ∧ t.ports = s.ports

/-- 46 R306, 44 R262: NOTE_OFF without tail-off makes its voice IDLE and clears its envelope, gains, phases, filter, LFO and
counters; the latches, frequencies and drive coefficients stay, and nothing else changes. -/
def Obligations.NoteOffKillsVoice : Prop :=
  ∀ (s : State) (v rv : Nat), s.g.prepared = true → v < s.cfg.nv → v < s.voices.length →
    ∃ t, exec (.noteOff v false rv) s = .next t ∧
      let V := s.voice v
      let W := t.voice v
      W.state = .idle ∧ W.env = { V.env with stage := .idle, level := 0#32, ticks := 0#32 } ∧
      W.osc1 = { V.osc1 with phase := 0#32, gain := { V.osc1.gain with cur := 0#32, tgt := 0#32, cnt := 0#32 } } ∧
      W.osc2 = { V.osc2 with phase := 0#32, gain := { V.osc2.gain with cur := 0#32, tgt := 0#32, cnt := 0#32 } } ∧
      W.flt = ⟨0#32, 0#32, 0#32, 0#32, 0#32, { V.flt.cut with cur := V.flt.cut.tgt, cnt := 0#32 },
        { V.flt.res with cur := V.flt.res.tgt, cnt := 0#32 }⟩ ∧
      W.lfo = ⟨0#32, 0#32⟩ ∧ W.sbc = 0#32 ∧ W.fade = 0#32 ∧
      W.note = V.note ∧ W.vel = V.vel ∧ W.velLevel = V.velLevel ∧ W.wave = V.wave ∧ W.det = V.det ∧ W.df1 = V.df1 ∧
      W.df2 = V.df2 ∧ W.fbase = V.fbase ∧ W.f2base = V.f2base ∧ W.drive = V.drive ∧
      (∀ u, u ≠ v → t.voice u = s.voice u) ∧ t.voices.length = s.voices.length ∧
      t.regs = s.regs ∧ t.g = s.g ∧ t.cfg = s.cfg ∧ t.wt = s.wt ∧ t.ports = s.ports

/-- 46 R307, 44 R263, R246, R256: PITCH_BEND completes in every state, writes PITCH_WHEEL, retunes both oscillators of every busy
voice from its note, its drift factors, its detune latch and its LFO value, touches no other field of a voice and no idle voice,
and draws nothing. -/
def Obligations.PitchBendRetunesBusyVoices : Prop :=
  ∀ (s : State) (w : Nat), w < 16384 →
    ∃ t, exec (.pitchBend w) s = .next t ∧ t.regs = { s.regs with pitchWheel := BitVec.ofNat 32 w } ∧
      t.g = s.g ∧ t.cfg = s.cfg ∧ t.wt = s.wt ∧ t.ports = s.ports ∧ t.voices.length = s.voices.length ∧
      ∀ v, v < s.voices.length →
        ((s.voice v).state = .idle → t.voice v = s.voice v) ∧
        ((s.voice v).state ≠ .idle →
          let c := s.cfg
          let V := s.voice v
          let W := t.voice v
          W.fbase = fmul c (noteFreq c V.note.toNat) (bendMult c w) ∧ W.f2base = f2baseOf c W ∧
          W.osc1.freq = fclamp c (fmul c W.fbase V.df1) 0#32 s.g.nyq ∧ W.osc2.freq = lfoFreq s W.f2base V.lfo.val ∧
          tuned s W.osc1 ∧ tuned s W.osc2 ∧
          W.osc2 = { V.osc2 with freq := W.osc2.freq, inc := W.osc2.inc, band := W.osc2.band } ∧
          let o1 := { V.osc1 with freq := W.osc1.freq, inc := W.osc1.inc, band := W.osc1.band }
          W = { V with fbase := W.fbase, f2base := W.f2base, osc1 := o1, osc2 := W.osc2 })

/-- 46 R308: CONTROLLER completes in every state; controller 1 writes MOD_WHEEL, every other number is accepted and ignored. -/
def Obligations.ControllerSetsModWheel : Prop :=
  ∀ (s : State) (cc val : Nat), val < 128 →
    ∃ t, exec (.controller cc val) s = .next t ∧
      (cc = 1 → t.regs.modWheel.toNat = val ∧ t = s.setRegs { s.regs with modWheel := t.regs.modWheel }) ∧
      (cc ≠ 1 → t = s)

/-! ### RENDER -/

/-- 46 R309, 10 R43, 45 R280, R285: in a prepared machine whose partners do their duty a RENDER of at most MAX_BLOCK frames
completes: it emits exactly `n` frames of `nch` samples, counts them, steps every voice `n` frames, and leaves the registers, the
tables, the RNG, the rates and the error record. -/
def Obligations.RenderEmitsFrames : Prop :=
  ∀ (s : State) (n : Nat), s.g.prepared = true → n ≤ s.g.maxBlock.toNat → partnersAnswer s →
    ∃ t ys, exec (.render n) s = .next t ∧ ys.length = n ∧ (∀ y ∈ ys, y.length = s.g.nch.toNat) ∧
      t.ports.frameOut = s.ports.frameOut ++ ys ∧ t.g.frames = s.g.frames + BitVec.ofNat 64 n ∧
      t.voices = s.voices.map (voiceRun s n) ∧
      t.cfg = s.cfg ∧ t.regs = s.regs ∧ t.wt = s.wt ∧ t.ports.cmdIn = s.ports.cmdIn ∧
      t.ports.respOut = s.ports.respOut ∧
      t.g = { s.g with frames := t.g.frames, gDryLast := t.g.gDryLast, gWetLast := t.g.gWetLast, gMLast := t.g.gMLast }

/-- 45 R285, R286: after a block of two frames or more the last master gain is MASTER_GAIN, and the last dry and wet gains are
`1.0 - REVERB` and REVERB if the block was active and unchanged if not; a shorter block leaves all three. -/
def Obligations.RenderMovesLastGains : Prop :=
  ∀ (s t : State) (n : Nat), s.g.prepared = true → n ≤ s.g.maxBlock.toNat → exec (.render n) s = .next t →
    (2 ≤ n → t.g.gMLast = s.regs.masterGain ∧
      (reverbActive s = true → t.g.gDryLast = fsub s.cfg 0x3F800000#32 s.regs.reverb ∧ t.g.gWetLast = s.regs.reverb) ∧
      (reverbActive s = false → t.g.gDryLast = s.g.gDryLast ∧ t.g.gWetLast = s.g.gWetLast)) ∧
    (n < 2 → t.g.gMLast = s.g.gMLast ∧ t.g.gDryLast = s.g.gDryLast ∧ t.g.gWetLast = s.g.gWetLast)

/-- 45 R282, R283: an inactive RENDER sends nothing to the reverb unit and takes nothing from it; an active one sends one frame and
takes one frame for each frame it emits. That a frame not yet presented has free values is log entry 7. -/
def Obligations.RenderReverbTraffic : Prop :=
  ∀ (s t : State) (n : Nat), s.g.prepared = true → n ≤ s.g.maxBlock.toNat → exec (.render n) s = .next t →
    (reverbActive s = false → t.ports.rvSend = s.ports.rvSend ∧ t.ports.rvRet = s.ports.rvRet ∧
      t.ports.rvDraws = s.ports.rvDraws) ∧
    (reverbActive s = true → ∃ ds : List (List F32), ds.length = n ∧ (∀ d ∈ ds, d.length = s.g.nch.toNat) ∧
      t.ports.rvSend = s.ports.rvSend ++ ds ∧ t.ports.rvRet = s.ports.rvRet.drop n)

/-- 45 R280 to R286, 44 R252: the samples of every frame of a RENDER. The voice sum of frame `i` is every busy voice's sample added
in ascending order; an inactive frame is that sum on every channel, an active one sends it on every channel and blends it with the
return frame by the ramps of the last dry and wet gains; the ramp of the last master gain multiplies either. 20 R84: a byte
transport carries each frame in turn, channel 0 first. That a return sample not yet presented is a free value is log entry 7. -/
def Obligations.RenderSamples : Prop :=
  ∀ (s : State) (n : Nat), s.g.prepared = true → n ≤ s.g.maxBlock.toNat → partnersAnswer s →
    ∃ t ys, exec (.render n) s = .next t ∧ ys.length = n ∧ t.ports.frameOut = s.ports.frameOut ++ ys ∧
      frameBytes t.ports = frameBytes s.ports ++ bytesOfFrames ys ∧
      (∀ i, i < n →
        let c := s.cfg
        let nch := s.g.nch.toNat
        let acc := voiceMix s i
        let gM := ramp c s.g.gMLast s.regs.masterGain i n
        let gD := ramp c s.g.gDryLast (fsub c 0x3F800000#32 s.regs.reverb) i n
        let gW := ramp c s.g.gWetLast s.regs.reverb i n
        (reverbActive s = false → ys[i]? = some (List.replicate nch (fmul c gM acc))) ∧
        (reverbActive s = true → ys[i]? = some ((List.range nch).map fun ch =>
          fmul c gM (fadd c (fmul c gD acc) (fmul c gW (returnSample s i ch)))))) ∧
      (reverbActive s = true → t.ports.rvSend = s.ports.rvSend ++
        (List.range n).map fun i => List.replicate s.g.nch.toNat (voiceMix s i))

/-- 70 R382: a RENDER waits for ever when the host takes fewer frames than it emits, or the reverb unit answers fewer (log entry 8:
the model's stop for this stuck state). -/
def Obligations.RenderWaitsForPartners : Prop :=
  ∀ (s : State) (n k : Nat), s.g.prepared = true → n ≤ s.g.maxBlock.toNat → k < n →
    (s.ports.frameCredit = some k → s.ports.rvCredit = none → exec (.render n) s = .fault .framePortStuck) ∧
    (reverbActive s = true → s.ports.rvCredit = some k → s.ports.frameCredit = none →
      exec (.render n) s = .fault .reverbPortStuck)

/-- 44 R254: an idle voice is not rendered: no field of it changes in a RENDER, and it adds nothing to the frame sum. -/
def Obligations.IdleVoiceIsNotRendered : Prop :=
  (∀ (s t : State) (n v : Nat), exec (.render n) s = .next t → (s.voice v).state = .idle → t.voice v = s.voice v) ∧
  (∀ (s : State) (acc : F32) (V : Voice) (vs us : List Voice), V.state = .idle →
    (sumVoices s acc (vs ++ V :: us)).1 = (sumVoices s acc (vs ++ us)).1)

/-- 45 R280 ("voices share no state but the registers, which no frame writes"): what a RENDER leaves in a voice does not depend on
any other voice, nor on anything at the ports. -/
def Obligations.VoiceEvolvesAlone : Prop :=
  ∀ (s s' t t' : State) (n v : Nat), s'.cfg = s.cfg → s'.regs = s.regs → s'.g = s.g → s'.wt = s.wt →
    v < s.voices.length → v < s'.voices.length → s'.voice v = s.voice v →
    exec (.render n) s = .next t → exec (.render n) s' = .next t' → t'.voice v = t.voice v

/-- 44 R252 ("a sub-block may straddle two RENDERs"; decision D29): a block rendered in two RENDERs leaves every voice and the frame
counter as one RENDER of the whole block leaves them. -/
def Obligations.RenderSplitsKeepVoices : Prop :=
  ∀ (s : State) (n m : Nat), s.g.prepared = true → n + m ≤ s.g.maxBlock.toNat → partnersAnswer s →
    ∃ t u w, exec (.render n) s = .next t ∧ exec (.render m) t = .next u ∧ exec (.render (n + m)) s = .next w ∧
      u.voices = w.voices ∧ u.g.frames = w.g.frames ∧ u.ports.frameOut.length = w.ports.frameOut.length

/-- 45 R286: the ramp of a block of one frame is the last gain; the last frame of a longer block applies exactly the target, and
every frame before it the last gain plus its share of the way; its first frame applies the last gain, for finite gains whose
difference is finite. -/
def Obligations.RampMeetsBothEnds : Prop :=
  ∀ (c : Config) (g0 t : F32) (n : Nat),
    ramp c g0 t 0 1 = g0 ∧ (2 ≤ n → ramp c g0 t (n - 1) n = t) ∧
    (∀ i, i + 1 < n →
      ramp c g0 t i n = fadd c g0 (fmul c (fsub c t g0) (fdiv c (fOfNat c i) (fOfNat c (n - 1))))) ∧
    (2 ≤ n → n ≤ 65535 → fIsFinite g0 = true → fIsFinite t = true → fIsFinite (fsub c t g0) = true →
      feq c (ramp c g0 t 0 n) g0 = true)

/-! ### Voices -/

/-- 44 R257: the lifecycle changes the commands can cause, and no others; a NOTE_OFF of a voice that is RELEASING leaves it so. -/
def Obligations.LifecycleTransitions : Prop :=
  ∀ (i : Instr) (s t : State) (v : Nat), exec i s = .next t → mayBecome i v (s.voice v).state (t.voice v).state

/-- 44 R253: a voice FADING with `L` samples left makes `L` more, counting its timer down, and is IDLE from then on. -/
def Obligations.FadeTimerEndsVoice : Prop :=
  ∀ (s : State) (V : Voice), V.state = .fading → 1 ≤ V.fade.toNat →
    (∀ k, k < V.fade.toNat → (voiceRun s k V).state = .fading ∧ (voiceRun s k V).fade.toNat = V.fade.toNat - k) ∧
    (∀ k, V.fade.toNat ≤ k → (voiceRun s k V).state = .idle ∧ (voiceRun s k V).fade = 0#32)

/-- 44 R250, R252: a control update runs exactly at the samples that find the sub-block counter at 0, and the counter is `SUB - 1`
after such a sample and one less after any other. -/
def Obligations.SubBlockCounter : Prop :=
  ∀ (s : State) (V : Voice), 1 ≤ s.cfg.sub → s.cfg.sub ≤ 65535 →
    (V.sbc = 0#32 → voiceSample s V = voiceChain s (controlUpdate s V) ∧
      (voiceSample s V).2.sbc.toNat = s.cfg.sub - 1) ∧
    (V.sbc ≠ 0#32 → voiceSample s V = voiceChain s V ∧ (voiceSample s V).2.sbc.toNat = V.sbc.toNat - 1)

/-- 44 R250, R255, R256: a control update makes one envelope tick after re-pushing the parameters; a RELEASING voice whose envelope
has gone idle becomes FADING with the idle timer, and no other state changes; the filter and gain targets are set from the new
level; the LFO advances and oscillator 2 takes its frequency from it; the sub-block counter is `SUB`; and nothing else of the
voice changes. -/
def Obligations.ControlUpdateEffects : Prop :=
  ∀ (s : State) (V : Voice),
    let c := s.cfg
    let W := controlUpdate s V
    let e := (envTick c (envPush s V.env)).level
    W.env = envTick c (envPush s V.env) ∧
    (V.state = .releasing → W.env.stage = .idle → W.state = .fading ∧ W.fade = s.g.idleLen) ∧
    (¬ (V.state = .releasing ∧ W.env.stage = .idle) → W.state = V.state ∧ W.fade = V.fade) ∧
    W.flt.cut = smSetTarget c V.flt.cut (cutCoeff s (finalCutoff s e)) ∧
    W.flt.res = smSetTarget c V.flt.res (resCoeff c (finalResonance s e)) ∧
    W.osc1.gain = smSetTarget c V.osc1.gain (fmul c e V.velLevel) ∧
    W.osc2.gain = smSetTarget c V.osc2.gain (fmul c e V.velLevel) ∧
    W.lfo = ⟨V.lfo.phase + s.g.lfoInc, lookup s 0 0 V.lfo.phase⟩ ∧
    W.osc2.freq = lfoFreq s V.f2base (lookup s 0 0 V.lfo.phase) ∧ tuned s W.osc2 ∧
    W.sbc = BitVec.ofNat 32 c.sub ∧
    W = { V with
      state := W.state
      fade := W.fade
      env := W.env
      lfo := W.lfo
      sbc := W.sbc
      flt := { V.flt with cut := W.flt.cut, res := W.flt.res }
      osc1 := { V.osc1 with gain := W.osc1.gain }
      osc2 := { V.osc2 with gain := W.osc2.gain, freq := W.osc2.freq, inc := W.osc2.inc, band := W.osc2.band } }

/-- 41 R153: one oscillator sample is the gain times the table value at the phase before the advance; the phase advances by the
increment modulo 2^32, the gain makes one smoother step, and frequency, increment and band stay. -/
def Obligations.OscillatorSample : Prop :=
  ∀ (s : State) (wave : BitVec 2) (o : Osc),
    (oscSample s wave o).1 = fmul s.cfg (smNext s.cfg o.gain).1 (lookup s wave.toNat o.band.toNat o.phase) ∧
    (oscSample s wave o).2.phase.toNat = (o.phase.toNat + o.inc.toNat) % 4294967296 ∧
    (oscSample s wave o).2 = { o with phase := (oscSample s wave o).2.phase, gain := (smNext s.cfg o.gain).2 }

/-- 41 R150: a request inside `[+0, nyq]` is the frequency as it stands, one below it (or a NaN) makes `+0.0`, one above it makes
`nyq`; the increment is at most half a period, the band is that of the frequency, and the phase and the gain stay. -/
def Obligations.FrequencyIsClamped : Prop :=
  ∀ (s : State) (o : Osc) (f : F32), fle s.cfg 0#32 s.g.nyq = true →
    let o' := setFreq s o f
    (fle s.cfg 0#32 f = true → fle s.cfg f s.g.nyq = true → o'.freq = f) ∧
    (fle s.cfg 0#32 f = false → o'.freq = 0#32) ∧
    (fle s.cfg 0#32 f = true → fle s.cfg f s.g.nyq = false → o'.freq = s.g.nyq) ∧
    fle s.cfg 0#32 o'.freq = true ∧ fle s.cfg o'.freq s.g.nyq = true ∧ o'.inc.toNat ≤ 2147483648 ∧
    o'.inc.toNat = fRneSat (fmul s.cfg o'.freq s.g.incScale) 2147483648 ∧
    (s.cfg.nb ≤ 16 → o'.band.toNat = bandSelect s.cfg o'.freq) ∧ o'.phase = o.phase ∧ o'.gain = o.gain ∧
    (fle s.cfg s.g.nyq f = true → feq s.cfg o'.freq s.g.nyq = true)

/-- 40 R134: the band selected is the first whose maximum exceeds the frequency, or the last; it rises with the frequency (the
spec's own inference 40 R135). -/
def Obligations.BandSelectionIsFirstAndMonotone : Prop :=
  ∀ (c : Config) (f : F32), 1 ≤ c.nb →
    bandSelect c f < c.nb ∧
    (∀ j, j < bandSelect c f → flt c f (c.bandMax.getD j 0#32) = false) ∧
    (bandSelect c f = c.nb - 1 ∨ flt c f (c.bandMax.getD (bandSelect c f) 0#32) = true) ∧
    (∀ f', fle c f f' = true → bandSelect c f ≤ bandSelect c f')

/-- 41 R156, R157 (the spec's own inference R161): the target it has changes nothing in a smoother; a new one is taken at once with
ramp length 0; with length `L >= 1` the step is `(t - cur) / L`, each call before the `L`-th moves by it, and call `L` and every
later one give the target exactly. -/
def Obligations.SmootherReachesTarget : Prop :=
  ∀ (c : Config) (m : Smoother) (t : F32),
    let m' := smSetTarget c m t
    (feq c t m.tgt = true → m' = m) ∧
    (feq c t m.tgt = false → m.len = 0#32 →
      m' = { m with cur := t, tgt := t, cnt := 0#32 } ∧ ∀ k, smValue c m' k = t) ∧
    (feq c t m.tgt = false → m.len ≠ 0#32 →
      m' = { m with tgt := t, cnt := m.len, step := fdiv c (fsub c t m.cur) (fOfNat c m.len.toNat) } ∧
      (∀ k, k + 1 < m.len.toNat → smValue c m' k = fadd c (smAfter c m' k).cur m'.step ∧
        (smAfter c m' (k + 1)).cur = smValue c m' k) ∧
      (∀ k, m.len.toNat ≤ k + 1 → smValue c m' k = t))

/-- 42 R185: what one tick does in each stage and when it leaves it: ATTACK at a level of 1.0 or more, for DECAY with a decay rate
above 0 and for SUSTAIN otherwise; DECAY at a level of at most the sustain level; RELEASE at a level of at most 0. The tick counter
is 0 on entering a stage and saturates; the rates and the sustain level stay. That a tick in IDLE leaves the counter is the model's
reading of R185 beside R189 (log entry 21). -/
def Obligations.EnvelopeTickTransitions : Prop :=
  ∀ (c : Config) (e : Envelope),
    let e' := envTick c e
    let up := fadd c e.level e.rA
    let down := fsub c e.level e.rD
    let tail := fsub c e.level e.rR
    (e.stage = .idle → e'.stage = .idle ∧ e'.level = 0#32 ∧ e'.ticks = e.ticks) ∧
    (e.stage = .attack →
      (fle c 0x3F800000#32 up = false → e'.stage = .attack ∧ e'.level = up) ∧
      (fle c 0x3F800000#32 up = true → e'.level = 0x3F800000#32 ∧
        (flt c 0#32 e.rD = true → e'.stage = .decay) ∧ (flt c 0#32 e.rD = false → e'.stage = .sustain))) ∧
    (e.stage = .decay →
      (fle c down e.sus = false → e'.stage = .decay ∧ e'.level = down) ∧
      (fle c down e.sus = true → e'.stage = .sustain ∧ e'.level = e.sus)) ∧
    (e.stage = .sustain → e'.stage = .sustain ∧ e'.level = e.sus) ∧
    (e.stage = .release →
      (fle c tail 0#32 = false → e'.stage = .release ∧ e'.level = tail) ∧
      (fle c tail 0#32 = true → e'.stage = .idle ∧ e'.level = 0#32)) ∧
    (e'.stage ≠ e.stage → e'.ticks = 0#32) ∧
    (e'.stage = e.stage → e.stage ≠ .idle → e'.ticks.toNat = min (e.ticks.toNat + 1) 4294967295) ∧
    e' = { e with stage := e'.stage, level := e'.level, ticks := e'.ticks }

/-- 42 R185: the level stays in `[0, 1]`, for a sustain level in `[0, 1]` and rates that are not negative. -/
def Obligations.EnvelopeLevelStaysInUnitRange : Prop :=
  ∀ (c : Config) (e : Envelope), within 0#32 e.level 0x3F800000#32 = true → within 0#32 e.sus 0x3F800000#32 = true →
    fLeRaw 0#32 e.rA = true → fLeRaw 0#32 e.rD = true → fLeRaw 0#32 e.rR = true →
    within 0#32 (envTick c e).level 0x3F800000#32 = true

/-- 43 R220: with FILTER_EN 0 the filter returns its input and changes no state, whatever the voice. -/
def Obligations.DisabledFilterPassesThrough : Prop :=
  ∀ (s : State) (V : Voice), s.regs.ctrl.getLsbD 0 = false →
    (∀ (F : Filter) (x : F32), filterSample s V.drive F x = (x, F)) ∧ (voiceChain s V).2.flt = V.flt

/-- 10 R41, R37: 0 is the only fixed point a draw has to fear: a draw from a state other than 0 is not 0, and two states never give
the same draw. -/
def Obligations.RngNeverReachesZero : Prop :=
  (∀ r : Word, xorshift r = 0#32 ↔ r = 0#32) ∧ (∀ r r' : Word, xorshift r = xorshift r' → r = r')

/-- 44 R247, R248: a velocity amount of 0 ignores the velocity; the exact cases of the envelope-amount mapping, for an envelope
value in `[0, 1]` that is not negative zero and not subnormal (with FTZ a subnormal operand is a zero, 00 R12). -/
def Obligations.AmountMappingExactCases : Prop :=
  ∀ (c : Config),
    (∀ vel7 : Nat, vel7 < 128 → velLevelOf c 0#32 (velocityOf c vel7) = 0x3F800000#32) ∧
    (∀ e : F32, within 0#32 e 0x3F800000#32 = true → e ≠ 0x80000000#32 → fIsSubnormal e = false →
      amtFactor c 0#32 e = 0x3F800000#32 ∧ amtFactor c 0x3F800000#32 e = e ∧
      amtFactor c 0xBF800000#32 e = fsub c 0x3F800000#32 e)

/-- 44 R243: the wheel at 0, 0x2000 and 0x3FFF shifts by exactly -2, 0 and +2 semitones, and the centre multiplies by exactly 1. -/
def Obligations.PitchWheelExactShifts : Prop :=
  ∀ c : Config, bendSemis c 0 = 0xC0000000#32 ∧ bendSemis c 0x2000 = 0#32 ∧ bendSemis c 0x3FFF = 0x40000000#32 ∧
    bendMult c 0x2000 = 0x3F800000#32 ∧ noteFreq c 69 = 0x43DC0000#32

/-! ### Arithmetic -/

/-- 00 R11: without FTZ, the sum and the difference of finite values are the nearest binary32 values to the exact ones (in units of
2^-149), ties going to the even pattern, and infinite exactly from half a step above the largest finite value on. -/
def Obligations.AdditionRoundsToNearestEven : Prop :=
  ∀ (c : Config) (x y r : F32) (e : Int), c.ftz = false → fIsFinite x = true → fIsFinite y = true →
    (r = fadd c x y ∧ e = fVal x + fVal y) ∨ (r = fsub c x y ∧ e = fVal x - fVal y) →
    (fIsInf r = true ↔ 33554431 * 2 ^ 252 ≤ e.natAbs) ∧ fIsNaN r = false ∧
    (fIsInf r = false → ∀ z, fIsFinite z = true →
      (fVal r - e).natAbs ≤ (fVal z - e).natAbs ∧
      ((fVal r - e).natAbs = (fVal z - e).natAbs → fVal z = fVal r ∨ fMag r % 2 = 0))

/-- 00 R11: without FTZ, the product of finite values and their quotient by a value other than 0 are no NaN, are infinite exactly
from half a step above the largest finite value on, and are otherwise the nearest binary32 values to the exact ones, ties going to
the even pattern. -/
def Obligations.ProductAndQuotientRoundToNearestEven : Prop :=
  ∀ (c : Config) (x y z : F32), c.ftz = false → fIsFinite x = true → fIsFinite y = true → fIsFinite z = true →
    (let p := fmul c x y
     let d := fun r : F32 => (fVal r * 2 ^ 149 - fVal x * fVal y).natAbs
     fIsNaN p = false ∧ (fIsInf p = true ↔ 33554431 * 2 ^ 401 ≤ (fVal x * fVal y).natAbs) ∧
     (fIsInf p = false → d p ≤ d z ∧ (d p = d z → fVal z = fVal p ∨ fMag p % 2 = 0))) ∧
    (fIsZero y = false →
      let q := fdiv c x y
      let d := fun r : F32 => (fVal r * fVal y - fVal x * 2 ^ 149).natAbs
      fIsNaN q = false ∧ (fIsInf q = true ↔ 33554431 * 2 ^ 103 * (fVal y).natAbs ≤ (fVal x).natAbs) ∧
      (fIsInf q = false → d q ≤ d z ∧ (d q = d z → fVal z = fVal q ∨ fMag q % 2 = 0)))

/-! ### The invariant -/

/-- The invariant holds right after reset, for any legal parameters, and at `State.reset`. -/
def Obligations.InvariantHoldsAtReset : Prop :=
  (∀ (c : Config) (p : Ports), legalConfig c = true → Inv (State.resetWith c p)) ∧ Inv State.reset

/-- Every step keeps the invariant: registers in their ranges (10 R33), a pool of `NV` voices in a legal lifecycle state (44 R257),
tables that are what PREPARE built (40 R138), a consistent error record (60 R342), an RNG state other than 0 (10 R37), and the
spec's own inferences 44 R251 and 45 R288. -/
def Obligations.EveryStepKeepsInvariant : Prop :=
  ∀ s t : State, Inv s → step s = .next t → Inv t
end

