-- ==== Sys2Proof/Laws/Fp.lean ====
section
/-! SUPPORT. The binary32 patterns and their rounding: fields of a packed pattern, rounding is exact on representable values and
monotone, and the small exact cases the units use. -/

namespace Sys2Proof.Machine

theorem fMag_lt (x : F32) : fMag x < 2147483648 := Nat.mod_lt _ (by decide)

theorem fMag_fPack (s : Bool) (m : Nat) (h : m < 2147483648) : fMag (fPack s m) = m := by
  cases s <;> simp [fMag, fPack] <;> omega

theorem fSign_fPack (s : Bool) (m : Nat) (h : m < 2147483648) : fSign (fPack s m) = s := by
  cases s <;> simp [fSign, fPack] <;> omega

/-- A pattern is its sign and its magnitude bits. -/
theorem fPack_self (x : F32) : fPack (fSign x) (fMag x) = x := by
  apply BitVec.eq_of_toNat_eq
  have := x.isLt
  simp only [fPack, fSign, fMag, BitVec.toNat_ofNat, decide_eq_true_eq]
  split <;> omega

/-- Two patterns with the same sign and magnitude bits are the same. -/
theorem f32_ext {x y : F32} (hs : fSign x = fSign y) (hm : fMag x = fMag y) : x = y := by
  rw [← fPack_self x, ← fPack_self y, hs, hm]

@[simp] theorem fMag_fNeg (x : F32) : fMag (fNeg x) = fMag x := fMag_fPack _ _ (fMag_lt x)
@[simp] theorem fSign_fNeg (x : F32) : fSign (fNeg x) = !fSign x := fSign_fPack _ _ (fMag_lt x)

@[simp] theorem fUnits_fNeg (x : F32) : fUnits (fNeg x) = fUnits x := by simp [fUnits]

@[simp] theorem fVal_fNeg (x : F32) : fVal (fNeg x) = -fVal x := by
  simp only [fVal, fSign_fNeg, fUnits_fNeg]
  cases fSign x <;> simp

@[simp] theorem fKey_fNeg (x : F32) : fKey (fNeg x) = -fKey x := by
  simp only [fKey, fSign_fNeg, fMag_fNeg]
  cases fSign x <;> simp

@[simp] theorem fIsNaN_fNeg (x : F32) : fIsNaN (fNeg x) = fIsNaN x := by simp [fIsNaN]
@[simp] theorem fIsInf_fNeg (x : F32) : fIsInf (fNeg x) = fIsInf x := by simp [fIsInf]
@[simp] theorem fIsFinite_fNeg (x : F32) : fIsFinite (fNeg x) = fIsFinite x := by simp [fIsFinite]

/-- Without FTZ an operand is read as it stands. -/
theorem fIn_of_ftz_false {c : Config} (h : c.ftz = false) (x : F32) : fIn c x = x := by simp [fIn, h]

/-- An operand that is not subnormal is read as it stands. -/
theorem fIn_of_not_subnormal {x : F32} (c : Config) (h : fIsSubnormal x = false) : fIn c x = x := by simp [fIn, h]

/-- Reading an operand keeps its sign. -/
@[simp] theorem fSign_fIn (c : Config) (x : F32) : fSign (fIn c x) = fSign x := by
  unfold fIn; split
  · exact fSign_fPack _ _ (by decide)
  · rfl

/-- Reading an operand makes no NaN and removes none. -/
@[simp] theorem fIsNaN_fIn (c : Config) (x : F32) : fIsNaN (fIn c x) = fIsNaN x := by
  unfold fIn; split
  · rename_i h
    simp [fIsSubnormal] at h
    simp only [fIsNaN, fMag_fPack _ _ (by decide : 0 < 2147483648)]
    simp; omega
  · rfl

/-- Reading an operand keeps it finite. -/
@[simp] theorem fIsFinite_fIn (c : Config) (x : F32) : fIsFinite (fIn c x) = fIsFinite x := by
  unfold fIn; split
  · rename_i h
    simp [fIsSubnormal] at h
    simp only [fIsFinite, fMag_fPack _ _ (by decide : 0 < 2147483648)]
    simp; omega
  · rfl

/-- A signed magnitude. -/
def signed (s : Bool) (m : Nat) : Int := if s then -(m : Int) else (m : Int)

/-- Magnitude bits with a subnormal flushed when FTZ is set. -/
def flushMag (c : Config) (m : Nat) : Nat := if c.ftz && decide (m < 8388608) then 0 else m

theorem flushMag_mono (c : Config) {a b : Nat} (h : a ≤ b) : flushMag c a ≤ flushMag c b := by
  unfold flushMag
  cases c.ftz
  · simpa using h
  · simp only [Bool.true_and, decide_eq_true_eq]
    split <;> split <;> omega

theorem flushMag_zero (c : Config) : flushMag c 0 = 0 := by
  unfold flushMag; split <;> rfl

/-- A map that keeps the order of magnitudes and fixes 0 keeps the order of signed magnitudes. -/
theorem signed_flush_mono (c : Config) {s s' : Bool} {m m' : Nat} (h : signed s m ≤ signed s' m') :
    signed s (flushMag c m) ≤ signed s' (flushMag c m') := by
  have h0 := flushMag_zero c
  unfold signed at *
  cases s <;> cases s' <;> simp only [Bool.false_eq_true, if_true, if_false] at *
  · have := flushMag_mono c (show m ≤ m' by omega); omega
  · have e1 : m = 0 := by omega
    have e2 : m' = 0 := by omega
    rw [e1, e2, h0]; omega
  · omega
  · have := flushMag_mono c (show m' ≤ m by omega); omega

/-- The order key of an operand as it is read. -/
theorem fKey_fIn (c : Config) (x : F32) : fKey (fIn c x) = signed (fSign x) (flushMag c (fMag x)) := by
  unfold fIn flushMag
  cases c.ftz
  · simp [fKey, signed]
  · simp only [fIsSubnormal, Bool.true_and, Bool.and_eq_true, decide_eq_true_eq]
    split
    · rename_i h
      simp only [fKey, signed, fSign_fPack _ _ (by decide : 0 < 2147483648), fMag_fPack _ _ (by decide : 0 < 2147483648),
        h.2, if_true]
    · rename_i h
      simp only [fKey, signed]
      by_cases h0 : fMag x < 8388608
      · have e : fMag x = 0 := by omega
        simp [e]
      · simp [h0]

/-- Reading operands keeps their order. -/
theorem fKey_fIn_mono (c : Config) {x y : F32} (h : fKey x ≤ fKey y) : fKey (fIn c x) ≤ fKey (fIn c y) := by
  rw [fKey_fIn, fKey_fIn]
  exact signed_flush_mono c h

/-- Finite patterns are not NaN. -/
theorem not_nan_of_finite {x : F32} (h : fIsFinite x = true) : fIsNaN x = false := by
  simp [fIsFinite, fIsNaN] at *; omega

/-- Finite patterns are not infinite. -/
theorem not_inf_of_finite {x : F32} (h : fIsFinite x = true) : fIsInf x = false := by
  simp [fIsFinite, fIsInf] at *; omega

/-! ### Rounding -/

/-- The quotient `n / 2^sh` rounded to nearest, ties to even. -/
def roundQuot (n sh : Nat) : Nat :=
  if decide (2 ^ sh < 2 * (n % 2 ^ sh)) || (decide (2 * (n % 2 ^ sh) = 2 ^ sh) && decide (n / 2 ^ sh % 2 = 1))
  then n / 2 ^ sh + 1 else n / 2 ^ sh

/-- `roundMag` in terms of the rounded quotient. -/
theorem roundMag_eq (n d : Nat) :
    roundMag n d = min ((max d (Nat.log2 n - 23) - d) * 8388608 + roundQuot n (max d (Nat.log2 n - 23))) 2139095040 := rfl

theorem roundMag_le (n d : Nat) : roundMag n d ≤ 2139095040 := by rw [roundMag_eq]; exact Nat.min_le_right _ _

theorem roundQuot_bounds (n sh : Nat) : n / 2 ^ sh ≤ roundQuot n sh ∧ roundQuot n sh ≤ n / 2 ^ sh + 1 := by
  unfold roundQuot; split <;> omega

/-- A quotient without remainder is not changed by rounding. -/
theorem roundQuot_exact (q sh : Nat) : roundQuot (q * 2 ^ sh) sh = q := by
  have h : 0 < 2 ^ sh := Nat.two_pow_pos sh
  simp only [roundQuot, Nat.mul_mod_left, Nat.mul_zero, Nat.mul_div_cancel _ h]
  rw [if_neg]
  simp; omega

/-- Rounding a quotient is monotone. -/
theorem roundQuot_mono {n n' : Nat} (sh : Nat) (h : n ≤ n') : roundQuot n sh ≤ roundQuot n' sh := by
  have hq : n / 2 ^ sh ≤ n' / 2 ^ sh := Nat.div_le_div_right h
  have b := roundQuot_bounds n sh
  have b' := roundQuot_bounds n' sh
  rcases Nat.lt_or_ge (n / 2 ^ sh) (n' / 2 ^ sh) with hlt | hge
  · omega
  · have he : n / 2 ^ sh = n' / 2 ^ sh := by omega
    have hr : n % 2 ^ sh ≤ n' % 2 ^ sh := by
      have e1 := Nat.div_add_mod n (2 ^ sh)
      have e2 := Nat.div_add_mod n' (2 ^ sh)
      rw [he] at e1
      omega
    unfold roundQuot
    rw [he]
    split
    · rename_i hup
      rw [if_pos]
      simp only [Bool.or_eq_true, decide_eq_true_eq, Bool.and_eq_true] at hup ⊢
      omega
    · split <;> omega

/-- A number below `2^(k+1)` has a binary logarithm of at most `k`. -/
theorem log2_le_of_lt {n k : Nat} (h : n < 2 ^ (k + 1)) : Nat.log2 n ≤ k := by
  rcases Nat.eq_zero_or_pos n with rfl | hn
  · simp
  · exact Nat.lt_succ_iff.mp ((Nat.log2_lt (by omega)).mpr h)

/-- The quotient that `roundMag` keeps has at most 24 bits. -/
theorem quot_lt (n d : Nat) : n / 2 ^ (max d (Nat.log2 n - 23)) < 16777216 := by
  rw [Nat.div_lt_iff_lt_mul (Nat.two_pow_pos _)]
  have h1 : n < 2 ^ (Nat.log2 n + 1) := Nat.lt_log2_self
  have h2 : Nat.log2 n + 1 ≤ 24 + max d (Nat.log2 n - 23) := by omega
  have h3 := Nat.pow_le_pow_right (n := 2) (by decide) h2
  rw [Nat.pow_add 2 24] at h3
  exact Nat.lt_of_lt_of_le h1 h3

/-- A number of 24 bits or more keeps 24 bits. -/
theorem quot_ge {n : Nat} (h : 23 ≤ Nat.log2 n) : 8388608 ≤ n / 2 ^ (Nat.log2 n - 23) := by
  have hn : n ≠ 0 := fun h0 => by
    rw [h0, Nat.log2_zero] at h
    exact absurd h (by decide)
  have hp : 2 ^ 23 * 2 ^ (Nat.log2 n - 23) = 2 ^ Nat.log2 n := by
    rw [← Nat.pow_add, Nat.add_sub_cancel' h]
  have h2 : 2 ^ 23 * 2 ^ (Nat.log2 n - 23) ≤ n := hp ▸ Nat.log2_self_le hn
  have h3 : 2 ^ 23 ≤ n / 2 ^ (Nat.log2 n - 23) := (Nat.le_div_iff_mul_le (Nat.two_pow_pos _)).mpr h2
  exact Nat.le_trans (by norm_num) h3

/-- One exponent up outweighs a rounded quotient. -/
theorem step_le {u v x y : Nat} (h : u + 1 ≤ v) (hx : x ≤ 16777216) (hy : 8388608 ≤ y) :
    u * 8388608 + x ≤ v * 8388608 + y := by
  have h1 : (u + 1) * 8388608 ≤ v * 8388608 := Nat.mul_le_mul_right _ h
  rw [Nat.add_mul, Nat.one_mul] at h1
  omega

/-- Rounding to binary32 is monotone. -/
theorem roundMag_mono {n n' : Nat} (d : Nat) (h : n ≤ n') : roundMag n d ≤ roundMag n' d := by
  rw [roundMag_eq, roundMag_eq]
  have hlog : Nat.log2 n ≤ Nat.log2 n' := by
    rcases Nat.eq_zero_or_pos n with rfl | hn
    · simp
    · exact (Nat.le_log2 (by omega)).mpr (Nat.le_trans (Nat.log2_self_le (by omega)) h)
  have hsh : max d (Nat.log2 n - 23) ≤ max d (Nat.log2 n' - 23) := by omega
  rcases Nat.lt_or_ge (max d (Nat.log2 n - 23)) (max d (Nat.log2 n' - 23)) with hlt | hge
  · have hq := quot_lt n d
    have b := roundQuot_bounds n (max d (Nat.log2 n - 23))
    have b' := roundQuot_bounds n' (max d (Nat.log2 n' - 23))
    have hbig : 8388608 ≤ n' / 2 ^ (max d (Nat.log2 n' - 23)) := by
      have e : max d (Nat.log2 n' - 23) = Nat.log2 n' - 23 := by omega
      rw [e]
      exact quot_ge (by omega)
    have hr : roundQuot n (max d (Nat.log2 n - 23)) ≤ 16777216 := Nat.le_trans b.2 hq
    have hr' : 8388608 ≤ roundQuot n' (max d (Nat.log2 n' - 23)) := Nat.le_trans hbig b'.1
    clear b b' hq hbig
    refine min_le_min_right _ (step_le ?_ hr hr')
    omega
  · have e : max d (Nat.log2 n - 23) = max d (Nat.log2 n' - 23) := by omega
    rw [e]
    have := roundQuot_mono (max d (Nat.log2 n' - 23)) h
    omega

/-- A representable magnitude rounds to itself. -/
theorem roundMag_fUnits (x : F32) (h : fIsFinite x = true) : roundMag (fUnits x) 0 = fMag x := by
  simp only [fIsFinite, decide_eq_true_eq] at h
  rw [roundMag_eq]
  unfold fUnits
  split
  · rename_i hs
    have hl : Nat.log2 (fMag x) ≤ 22 := log2_le_of_lt (by simpa using hs)
    have e : max 0 (Nat.log2 (fMag x) - 23) = 0 := by omega
    have hq := roundQuot_exact (fMag x) 0
    simp only [Nat.pow_zero, Nat.mul_one] at hq
    rw [e, hq]; omega
  · rename_i hs
    have hm := Nat.div_add_mod (fMag x) 8388608
    have hf : fMag x % 8388608 < 8388608 := Nat.mod_lt _ (by decide)
    generalize fMag x / 8388608 = e at *
    generalize fMag x % 8388608 = f at *
    have hl : Nat.log2 ((f + 8388608) * 2 ^ (e - 1)) = 23 + (e - 1) := by
      have hpos : (f + 8388608) * 2 ^ (e - 1) ≠ 0 := by positivity
      rw [Nat.log2_eq_iff hpos]
      have hp := Nat.two_pow_pos (e - 1)
      constructor
      · rw [Nat.pow_add]; exact Nat.mul_le_mul_right _ (by omega)
      · rw [show 23 + (e - 1) + 1 = 24 + (e - 1) by omega, Nat.pow_add]
        exact Nat.mul_lt_mul_of_pos_right (by omega) hp
    rw [hl, show max 0 (23 + (e - 1) - 23) = e - 1 by omega, roundQuot_exact]
    omega

/-- A rounded value has the sign it was given. -/
theorem fSign_fRound (c : Config) (s : Bool) (n d : Nat) : fSign (fRound c s n d) = s := by
  have := roundMag_le n d
  unfold fRound; dsimp only; split
  · exact fSign_fPack _ _ (by decide)
  · exact fSign_fPack _ _ (by omega)

/-- The magnitude bits of a rounded value. -/
theorem fMag_fRound (c : Config) (s : Bool) (n d : Nat) :
    fMag (fRound c s n d) = flushMag c (roundMag n d) := by
  have := roundMag_le n d
  unfold fRound flushMag; dsimp only; split
  · exact fMag_fPack _ _ (by decide)
  · exact fMag_fPack _ _ (by omega)

theorem flushMag_le (c : Config) (m : Nat) : flushMag c m ≤ m := by
  unfold flushMag; split <;> omega

/-- A rounded value is no NaN. -/
theorem fIsNaN_fRound (c : Config) (s : Bool) (n d : Nat) : fIsNaN (fRound c s n d) = false := by
  have h1 := roundMag_le n d
  have h2 := flushMag_le c (roundMag n d)
  simp only [fIsNaN, fMag_fRound, decide_eq_false_iff_not]
  omega

/-- A rounded value is a NaN in no case, for an exact number of units. -/
theorem fIsNaN_fOfUnits (c : Config) (z : Int) : fIsNaN (fOfUnits c z) = false := fIsNaN_fRound _ _ _ _

/-- Rounding an exact number of units is monotone, with FTZ and without. -/
theorem fKey_fOfUnits_mono (c : Config) {z z' : Int} (h : z ≤ z') : fKey (fOfUnits c z) ≤ fKey (fOfUnits c z') := by
  have key : ∀ w : Int, fKey (fOfUnits c w) = signed (decide (w < 0)) (flushMag c (roundMag w.natAbs 0)) := by
    intro w
    simp only [fKey, signed, fOfUnits, fSign_fRound, fMag_fRound]
  rw [key, key]
  apply signed_flush_mono
  unfold signed
  by_cases hz : z < 0 <;> by_cases hz' : z' < 0 <;> simp only [hz, hz', decide_true, decide_false, if_true, if_false,
    Bool.false_eq_true]
  · have := roundMag_mono 0 (show z'.natAbs ≤ z.natAbs by omega); omega
  · omega
  · omega
  · have := roundMag_mono 0 (show z.natAbs ≤ z'.natAbs by omega); omega

/-- A finite value that FTZ does not flush is what its own units round to, up to the sign of a zero. -/
theorem fOfUnits_fVal (c : Config) (x : F32) (h : fIsFinite x = true) (hs : fIsSubnormal x = false ∨ c.ftz = false)
    (hz : fVal x ≠ 0) : fOfUnits c (fVal x) = x := by
  have hr := roundMag_fUnits x h
  have habs : (fVal x).natAbs = fUnits x := by unfold fVal; split <;> simp
  apply f32_ext
  · rw [fOfUnits, fSign_fRound]
    unfold fVal at hz ⊢
    split at hz <;> rename_i hsg <;> simp [hsg]; omega
  · rw [fOfUnits, fMag_fRound, habs, hr, flushMag]
    rw [if_neg]
    rcases hs with hs | hs
    · simp only [Bool.and_eq_true, decide_eq_true_eq, not_and]
      intro _ hlt
      simp only [fIsSubnormal, Bool.and_eq_false_iff, decide_eq_false_iff_not] at hs
      have h0 : fMag x = 0 := by omega
      apply hz
      simp [fVal, fUnits, h0]
    · simp [hs]

/-- Only the zeros have value 0. -/
theorem fVal_eq_zero {x : F32} (h : fVal x = 0) : fMag x = 0 := by
  have hu : fUnits x = 0 := by unfold fVal at h; split at h <;> omega
  unfold fUnits at hu
  split at hu
  · exact hu
  · have := Nat.two_pow_pos (fMag x / 8388608 - 1)
    have hp : 0 < (fMag x % 8388608 + 8388608) * 2 ^ (fMag x / 8388608 - 1) := Nat.mul_pos (by omega) this
    omega

/-- Adding a zero to a value that is no zero and is not flushed gives the value. -/
theorem fadd_zero (c : Config) (x z : F32) (h : fIsFinite x = true) (hs : fIsSubnormal x = false ∨ c.ftz = false)
    (hx : fMag x ≠ 0) (hz : fMag z = 0) : fadd c x z = x := by
  have hin : fIn c x = x := by
    rcases hs with hs | hs
    · exact fIn_of_not_subnormal c hs
    · exact fIn_of_ftz_false hs x
  have hinz : fIn c z = z := fIn_of_not_subnormal c (by simp [fIsSubnormal, hz])
  have hvz : fVal z = 0 := by simp [fVal, fUnits, hz]
  have hvx : fVal x ≠ 0 := fun h0 => hx (fVal_eq_zero h0)
  have hnz : fIsNaN z = false := by simp [fIsNaN, hz]
  have hiz : fIsInf z = false := by simp [fIsInf, hz]
  rw [fadd, hin, hinz, faddRaw]
  simp only [not_nan_of_finite h, hnz, not_inf_of_finite h, hiz, hvz, Int.add_zero, hvx, Bool.or_self, if_false,
    Bool.false_eq_true]
  exact fOfUnits_fVal c x h hs hvx

/-- A finite value times a zero is a zero. -/
theorem fMag_fmul_zero (c : Config) (x z : F32) (h : fIsFinite x = true) (hz : fMag z = 0) : fMag (fmul c x z) = 0 := by
  have hinz : fIn c z = z := fIn_of_not_subnormal c (by simp [fIsSubnormal, hz])
  have hnz : fIsNaN z = false := by simp [fIsNaN, hz]
  have hiz : fIsInf z = false := by simp [fIsInf, hz]
  have h1 : fIsFinite (fIn c x) = true := by simpa using h
  have hu : fUnits z = 0 := by simp [fUnits, hz]
  have hr : roundMag 0 149 = 0 := by decide
  rw [fmul, hinz, fmulRaw]
  simp only [not_nan_of_finite h1, hnz, not_inf_of_finite h1, hiz, hu, Bool.or_self, if_false, Bool.false_eq_true,
    Nat.mul_zero, fMag_fRound, hr]
  exact flushMag_zero c

/-- Saturation bounds the nearest integer. -/
theorem fRneSat_le (x : F32) (hi : Nat) : fRneSat x hi ≤ hi := by
  unfold fRneSat
  split
  · exact Nat.min_le_right _ _
  · split
    · exact Nat.zero_le _
    · exact Nat.min_le_right _ _

end Sys2Proof.Machine
end

