-- ==== Sys2Proof/Laws/State.lean ====
section
/-! SUPPORT. What each named update of the state leaves in each field. -/

namespace Sys2Proof.Machine

@[simp] theorem State.setRegs_cfg (s : State) (r : Regs) : (s.setRegs r).cfg = s.cfg := rfl
@[simp] theorem State.setRegs_regs (s : State) (r : Regs) : (s.setRegs r).regs = r := rfl
@[simp] theorem State.setRegs_g (s : State) (r : Regs) : (s.setRegs r).g = s.g := rfl
@[simp] theorem State.setRegs_wt (s : State) (r : Regs) : (s.setRegs r).wt = s.wt := rfl
@[simp] theorem State.setRegs_voices (s : State) (r : Regs) : (s.setRegs r).voices = s.voices := rfl
@[simp] theorem State.setRegs_ports (s : State) (r : Regs) : (s.setRegs r).ports = s.ports := rfl

@[simp] theorem State.setG_cfg (s : State) (g : Global) : (s.setG g).cfg = s.cfg := rfl
@[simp] theorem State.setG_regs (s : State) (g : Global) : (s.setG g).regs = s.regs := rfl
@[simp] theorem State.setG_g (s : State) (g : Global) : (s.setG g).g = g := rfl
@[simp] theorem State.setG_wt (s : State) (g : Global) : (s.setG g).wt = s.wt := rfl
@[simp] theorem State.setG_voices (s : State) (g : Global) : (s.setG g).voices = s.voices := rfl
@[simp] theorem State.setG_ports (s : State) (g : Global) : (s.setG g).ports = s.ports := rfl

@[simp] theorem State.setVoices_cfg (s : State) (vs : List Voice) : (s.setVoices vs).cfg = s.cfg := rfl
@[simp] theorem State.setVoices_regs (s : State) (vs : List Voice) : (s.setVoices vs).regs = s.regs := rfl
@[simp] theorem State.setVoices_g (s : State) (vs : List Voice) : (s.setVoices vs).g = s.g := rfl
@[simp] theorem State.setVoices_wt (s : State) (vs : List Voice) : (s.setVoices vs).wt = s.wt := rfl
@[simp] theorem State.setVoices_voices (s : State) (vs : List Voice) : (s.setVoices vs).voices = vs := rfl
@[simp] theorem State.setVoices_ports (s : State) (vs : List Voice) : (s.setVoices vs).ports = s.ports := rfl

@[simp] theorem State.setPorts_cfg (s : State) (p : Ports) : (s.setPorts p).cfg = s.cfg := rfl
@[simp] theorem State.setPorts_regs (s : State) (p : Ports) : (s.setPorts p).regs = s.regs := rfl
@[simp] theorem State.setPorts_g (s : State) (p : Ports) : (s.setPorts p).g = s.g := rfl
@[simp] theorem State.setPorts_wt (s : State) (p : Ports) : (s.setPorts p).wt = s.wt := rfl
@[simp] theorem State.setPorts_voices (s : State) (p : Ports) : (s.setPorts p).voices = s.voices := rfl
@[simp] theorem State.setPorts_ports (s : State) (p : Ports) : (s.setPorts p).ports = p := rfl

@[simp] theorem State.setVoice_cfg (s : State) (v : Nat) (V : Voice) : (s.setVoice v V).cfg = s.cfg := rfl
@[simp] theorem State.setVoice_regs (s : State) (v : Nat) (V : Voice) : (s.setVoice v V).regs = s.regs := rfl
@[simp] theorem State.setVoice_g (s : State) (v : Nat) (V : Voice) : (s.setVoice v V).g = s.g := rfl
@[simp] theorem State.setVoice_wt (s : State) (v : Nat) (V : Voice) : (s.setVoice v V).wt = s.wt := rfl
@[simp] theorem State.setVoice_voices (s : State) (v : Nat) (V : Voice) : (s.setVoice v V).voices = s.voices.set v V := rfl
@[simp] theorem State.setVoice_ports (s : State) (v : Nat) (V : Voice) : (s.setVoice v V).ports = s.ports := rfl

@[simp] theorem setCmdIn_cfg (bytes : List Byte) (s : State) : (setCmdIn bytes s).cfg = s.cfg := rfl
@[simp] theorem setCmdIn_regs (bytes : List Byte) (s : State) : (setCmdIn bytes s).regs = s.regs := rfl
@[simp] theorem setCmdIn_g (bytes : List Byte) (s : State) : (setCmdIn bytes s).g = s.g := rfl
@[simp] theorem setCmdIn_wt (bytes : List Byte) (s : State) : (setCmdIn bytes s).wt = s.wt := rfl
@[simp] theorem setCmdIn_voices (bytes : List Byte) (s : State) : (setCmdIn bytes s).voices = s.voices := rfl
@[simp] theorem setCmdIn_ports (bytes : List Byte) (s : State) :
    (setCmdIn bytes s).ports = { s.ports with cmdIn := bytes } := rfl

@[simp] theorem State.resetWith_cfg (c : Config) (p : Ports) : (State.resetWith c p).cfg = c := rfl
@[simp] theorem State.resetWith_regs (c : Config) (p : Ports) : (State.resetWith c p).regs = Regs.reset c := rfl
@[simp] theorem State.resetWith_g (c : Config) (p : Ports) : (State.resetWith c p).g = Global.reset c := rfl
@[simp] theorem State.resetWith_wt (c : Config) (p : Ports) : (State.resetWith c p).wt = [] := rfl
@[simp] theorem State.resetWith_voices (c : Config) (p : Ports) : (State.resetWith c p).voices = List.replicate c.nv Voice.reset := rfl
@[simp] theorem State.resetWith_ports (c : Config) (p : Ports) : (State.resetWith c p).ports = p := rfl

/-- Writing voice `v` of the pool and reading it back. -/
theorem State.setVoice_voice_same (s : State) (v : Nat) (V : Voice) (h : v < s.voices.length) :
    (s.setVoice v V).voice v = V := by
  simp [State.voice, State.setVoice, State.setVoices, h]

/-- Writing voice `v` leaves every other voice. -/
theorem State.setVoice_voice_other (s : State) (u v : Nat) (V : Voice) (h : u ≠ v) :
    (s.setVoice v V).voice u = s.voice u := by
  simp [State.voice, State.setVoice, State.setVoices, List.getD_eq_getElem?_getD, List.getElem?_set_ne (Ne.symm h)]

/-- A voice of the pool is a member of the list of voices. -/
theorem State.voice_mem (s : State) (v : Nat) (h : v < s.voices.length) : s.voice v ∈ s.voices := by
  simp [State.voice, h]

end Sys2Proof.Machine
end

