-- ==== Sys2Proof/Laws/Ops.lean ====
section
/-! SUPPORT. What the error action and the port operations can do, once for each. -/

namespace Sys2Proof.Machine

@[simp] theorem raiseError_cfg (e : ErrorCode) (op : Byte) (s : State) : (raiseError e op s).cfg = s.cfg := rfl
@[simp] theorem raiseError_regs (e : ErrorCode) (op : Byte) (s : State) : (raiseError e op s).regs = s.regs := rfl
@[simp] theorem raiseError_wt (e : ErrorCode) (op : Byte) (s : State) : (raiseError e op s).wt = s.wt := rfl
@[simp] theorem raiseError_voices (e : ErrorCode) (op : Byte) (s : State) : (raiseError e op s).voices = s.voices := rfl
@[simp] theorem raiseError_ports (e : ErrorCode) (op : Byte) (s : State) : (raiseError e op s).ports = s.ports := rfl
@[simp] theorem raiseError_err (e : ErrorCode) (op : Byte) (s : State) : (raiseError e op s).g.err = true := rfl

/-- Every error code is one of 60 R340. -/
theorem errorByte_range (e : ErrorCode) : 1 ≤ (errorByte e).toNat ∧ (errorByte e).toNat ≤ 7 := by
  cases e <;> decide

/-- What `respond` does when it completes: the word is appended and the credit goes down. -/
theorem respond_done {r : Word} {s t : State} (h : respond r s = .done t) :
    ∃ cr, takeCredit s.ports.respCredit = some cr ∧
      t = s.setPorts { s.ports with respOut := s.ports.respOut ++ [r], respCredit := cr } := by
  unfold respond at h
  split at h
  · cases h
  · rename_i cr hcr
    exact ⟨cr, hcr, by simpa using h.symm⟩

/-- What `emit` does when it completes: the frame is appended, the counter advances, the credit goes down. -/
theorem emit_done {y : List F32} {s t : State} (h : emit y s = .done t) :
    ∃ cr, takeCredit s.ports.frameCredit = some cr ∧
      t = (s.setG { s.g with frames := s.g.frames + 1#64 }).setPorts
        { s.ports with frameOut := s.ports.frameOut ++ [y], frameCredit := cr } := by
  unfold emit at h
  split at h
  · cases h
  · rename_i cr hcr
    exact ⟨cr, hcr, by simpa using h.symm⟩

/-- A partner that never stalls takes every word. -/
@[simp] theorem takeCredit_none : takeCredit none = some none := rfl

/-- A partner that has stalled takes none. -/
@[simp] theorem takeCredit_zero : takeCredit (some 0) = none := rfl

@[simp] theorem takeCredit_succ (k : Nat) : takeCredit (some (k + 1)) = some (some k) := rfl

/-- A return frame has one sample a channel. -/
@[simp] theorem reverbFrame_length (p : Ports) (nch : Nat) : (reverbFrame p nch).length = nch := by
  simp [reverbFrame]

/-- What a reset discards at the command port: fewer than eight bytes, from its end. -/
theorem dropPartialWord_split (bytes : List Byte) :
    ∃ part, bytes = dropPartialWord bytes ++ part ∧ part.length < 8 ∧ (dropPartialWord bytes).length % 8 = 0 := by
  refine ⟨bytes.drop (bytes.length / 8 * 8), (List.take_append_drop _ _).symm, ?_, ?_⟩
  · rw [List.length_drop]; omega
  · rw [dropPartialWord, List.length_take]; omega

/-- An outcome is a next state exactly when the progress is done. -/
theorem Progress.outcome_next {p : Progress} {t : State} :
    p.outcome = .next t ↔ p = .done t := by
  cases p <;> simp [Progress.outcome]

end Sys2Proof.Machine
end

