-- ==== Sys2Proof/Laws/Operands.lean ====
section
/-! SUPPORT. The register space: what a write of a register can do, and that a stored parameter is in its range. -/

namespace Sys2Proof.Machine

@[simp] theorem getParam_putParam_same (r : Regs) (p : ParamReg) (f : F32) : getParam (putParam r p f) p = f := by
  cases p <;> rfl

theorem getParam_putParam_other (r : Regs) (p q : ParamReg) (f : F32) (h : q ≠ p) :
    getParam (putParam r p f) q = getParam r q := by
  cases p <;> cases q <;> first | rfl | exact absurd rfl h

@[simp] theorem putParam_waveform (r : Regs) (p : ParamReg) (f : F32) : (putParam r p f).waveform = r.waveform := by
  cases p <;> rfl
@[simp] theorem putParam_modWheel (r : Regs) (p : ParamReg) (f : F32) : (putParam r p f).modWheel = r.modWheel := by
  cases p <;> rfl
@[simp] theorem putParam_pitchWheel (r : Regs) (p : ParamReg) (f : F32) :
    (putParam r p f).pitchWheel = r.pitchWheel := by
  cases p <;> rfl
@[simp] theorem putParam_ctrl (r : Regs) (p : ParamReg) (f : F32) : (putParam r p f).ctrl = r.ctrl := by
  cases p <;> rfl

/-- Everything a register write can do: it is refused with BAD_ADDR or BAD_VALUE, it changes the registers alone, or it changes
the RNG state alone. -/
theorem writeReg_cases (s : State) (r : Option Reg) (d : Word) :
    writeReg s r d = .error .badAddr ∨ writeReg s r d = .error .badValue ∨
    (∃ regs, writeReg s r d = .ok (s.setRegs regs)) ∨
    (∃ rng, r = some .rngState ∧ writeReg s r d = .ok (s.setG { s.g with rng := rng })) := by
  unfold writeReg
  split
  · exact .inr (.inr (.inl ⟨_, rfl⟩))
  · exact .inr (.inr (.inl ⟨_, rfl⟩))
  · exact .inr (.inr (.inr ⟨_, rfl, rfl⟩))
  · split
    · exact .inr (.inl rfl)
    · exact .inr (.inr (.inl ⟨_, rfl⟩))
  · exact .inl rfl

/-- A comparison of the machine in terms of keys. -/
theorem fle_iff (c : Config) (x y : F32) :
    fle c x y = true ↔ fIsNaN x = false ∧ fIsNaN y = false ∧ fKey (fIn c x) ≤ fKey (fIn c y) := by
  simp [fle, and_assoc]

/-- Two operands that are no NaN are ordered one way or the other. -/
theorem fle_total (c : Config) {x y : F32} (hx : fIsNaN x = false) (hy : fIsNaN y = false) (h : fle c x y = false) :
    fle c y x = true := by
  rw [fle_iff]
  refine ⟨hy, hx, ?_⟩
  simp only [fle, hx, hy, Bool.not_false, Bool.true_and, decide_eq_false_iff_not] at h
  omega

/-- An operand that is no NaN is at most itself. -/
theorem fle_refl (c : Config) {x : F32} (hx : fIsNaN x = false) : fle c x x = true := by
  rw [fle_iff]; exact ⟨hx, hx, le_refl _⟩

/-- Clamping a value gives one of the three values, in the range. -/
theorem fclamp_range (c : Config) {x lo hi : F32} (hlh : fle c lo hi = true) :
    (fclamp c x lo hi = x ∨ fclamp c x lo hi = lo ∨ fclamp c x lo hi = hi) ∧
      fle c lo (fclamp c x lo hi) = true ∧ fle c (fclamp c x lo hi) hi = true := by
  have hlo : fIsNaN lo = false := ((fle_iff c lo hi).mp hlh).1
  have hhi : fIsNaN hi = false := ((fle_iff c lo hi).mp hlh).2.1
  unfold fclamp fmin fmax
  by_cases h1 : fle c lo x = true
  · simp only [h1, if_true]
    by_cases h2 : fle c x hi = true
    · simp [h1, h2]
    · simp [h2, hlh, fle_refl c hhi]
  · simp only [h1, if_false, Bool.false_eq_true, hlh, if_true]
    simp [fle_refl c hlo]

end Sys2Proof.Machine
end

