-- ==== Sys2Proof/Laws/Wavetable.lean ====
section
/-! SUPPORT. What PREPARE's build puts at each place, and what a lookup depends on. -/

namespace Sys2Proof.Machine

/-- The order of waveform `w`, band `b` after a build. -/
theorem buildOrders_get (c : Config) (nyq : F32) (w b : Nat) (bm : F32) (hw : w < 3)
    (hb : c.bandMax[b]? = some bm) :
    ((buildOrders c nyq).getD w []).getD b 0#32 = harmonicOrder c nyq w bm := by
  simp [buildOrders, List.getD_eq_getElem?_getD, hw, hb]

/-- Point `k` of a table. -/
theorem buildTable_get (c : Config) (w : Nat) (n : Word) (k : Nat) (d : F32) (hk : k ≤ 2 ^ c.tb) :
    (buildTable c w n).getD k d = cfgWtv w n.toNat k := by
  have : k < 2 ^ c.tb + 1 := by omega
  simp [buildTable, List.getD_eq_getElem?_getD, this]

/-- Point `k` of waveform `w`, band `b` after a build. -/
theorem buildTables_read (c : Config) (order : List (List Word)) (w b k : Nat) (row : List Word) (n : Word)
    (hw : w < 3) (hrow : order[w]? = some row) (hb : row[b]? = some n) (hk : k ≤ 2 ^ c.tb) :
    wtRead (buildTables c order) w b k = cfgWtv w n.toNat k := by
  have h1 : (buildTables c order).getD w [] = buildWave c w row := by
    simp [buildTables, List.getD_eq_getElem?_getD, hw, hrow]
  have h2 : (buildWave c w row).getD b [] = buildTable c w n := by
    simp [buildWave, List.getD_eq_getElem?_getD, hb]
  rw [wtRead, h1, h2, buildTable_get _ _ _ _ _ hk]

/-- An order is at least 1. -/
theorem orderOf_pos (x : F32) : 1 ≤ (orderOf x).toNat := by
  simp only [orderOf]
  split
  · decide
  · rename_i h
    have : (toU32 (max 1 (fFloor x))).toNat ≠ 0 := fun h0 => h (BitVec.eq_of_toNat_eq (by simpa using h0))
    omega

/-- Every harmonic order is at least 1. -/
theorem harmonicOrder_pos (c : Config) (nyq : F32) (w : Nat) (bm : F32) : 1 ≤ (harmonicOrder c nyq w bm).toNat := by
  unfold harmonicOrder
  split
  · decide
  · exact orderOf_pos _
  · exact orderOf_pos _

end Sys2Proof.Machine
end

