-- ==== Sys2Proof/Laws/Voice.lean ====
section
/-! SUPPORT. What each operation on one voice leaves unchanged, and what of the state it reads. -/

namespace Sys2Proof.Machine

/-! ### Oscillators -/

@[simp] theorem setFreq_phase (s : State) (o : Osc) (f : F32) : (setFreq s o f).phase = o.phase := rfl
@[simp] theorem setFreq_gain (s : State) (o : Osc) (f : F32) : (setFreq s o f).gain = o.gain := rfl

/-- The increment is the saturated nearest integer itself: it fits its field. -/
theorem setFreq_inc (s : State) (o : Osc) (f : F32) :
    (setFreq s o f).inc.toNat = fRneSat (fmul s.cfg (setFreq s o f).freq s.g.incScale) 2147483648 := by
  have := fRneSat_le (fmul s.cfg (fclamp s.cfg f 0#32 s.g.nyq) s.g.incScale) 2147483648
  simp only [setFreq, BitVec.toNat_ofNat]
  omega

@[simp] theorem setLevel_phase (c : Config) (o : Osc) (g : F32) : (setLevel c o g).phase = o.phase := rfl
@[simp] theorem setLevel_freq (c : Config) (o : Osc) (g : F32) : (setLevel c o g).freq = o.freq := rfl
@[simp] theorem setLevel_inc (c : Config) (o : Osc) (g : F32) : (setLevel c o g).inc = o.inc := rfl
@[simp] theorem setLevel_band (c : Config) (o : Osc) (g : F32) : (setLevel c o g).band = o.band := rfl

/-! ### `applyLfo` and `retune` set frequencies and nothing else -/

/-- The two voices agree except in oscillator frequency, increment and band, and in `f2base`. -/
structure SameButTuning (V W : Voice) : Prop where
  state : W.state = V.state
  note : W.note = V.note
  vel : W.vel = V.vel
  velLevel : W.velLevel = V.velLevel
  wave : W.wave = V.wave
  det : W.det = V.det
  df1 : W.df1 = V.df1
  df2 : W.df2 = V.df2
  fbase : W.fbase = V.fbase
  phase1 : W.osc1.phase = V.osc1.phase
  phase2 : W.osc2.phase = V.osc2.phase
  gain1 : W.osc1.gain = V.osc1.gain
  gain2 : W.osc2.gain = V.osc2.gain
  env : W.env = V.env
  flt : W.flt = V.flt
  drive : W.drive = V.drive
  lfo : W.lfo = V.lfo
  sbc : W.sbc = V.sbc
  fade : W.fade = V.fade

theorem applyLfo_same (s : State) (V : Voice) : SameButTuning V (applyLfo s V) := by
  constructor <;> simp only [applyLfo, setFreq_phase, setFreq_gain]

theorem retune_same (s : State) (V : Voice) : SameButTuning V (retune s V) := by
  constructor <;> simp only [retune, applyLfo, setFreq_phase, setFreq_gain]

@[simp] theorem applyLfo_osc1 (s : State) (V : Voice) : (applyLfo s V).osc1 = V.osc1 := by simp only [applyLfo]
@[simp] theorem applyLfo_f2base (s : State) (V : Voice) : (applyLfo s V).f2base = V.f2base := by simp only [applyLfo]

/-! ### Lifecycle -/

@[simp] theorem startVoice_state (s : State) (V : Voice) (n vel7 w : Nat) (r1 r2 : Word) :
    (startVoice s V n vel7 w r1 r2).state = .playing := rfl
@[simp] theorem startVoice_sbc (s : State) (V : Voice) (n vel7 w : Nat) (r1 r2 : Word) :
    (startVoice s V n vel7 w r1 r2).sbc = 0#32 := rfl
@[simp] theorem startVoice_fade (s : State) (V : Voice) (n vel7 w : Nat) (r1 r2 : Word) :
    (startVoice s V n vel7 w r1 r2).fade = 0#32 := rfl
@[simp] theorem startVoice_stage (s : State) (V : Voice) (n vel7 w : Nat) (r1 r2 : Word) :
    (startVoice s V n vel7 w r1 r2).env.stage = .attack := rfl
@[simp] theorem startVoice_note (s : State) (V : Voice) (n vel7 w : Nat) (r1 r2 : Word) :
    (startVoice s V n vel7 w r1 r2).note = BitVec.ofNat 7 n := rfl
@[simp] theorem startVoice_wave (s : State) (V : Voice) (n vel7 w : Nat) (r1 r2 : Word) :
    (startVoice s V n vel7 w r1 r2).wave = s.regs.waveform.extractLsb' 0 2 := rfl

@[simp] theorem killVoice_state (V : Voice) : (killVoice V).state = .idle := rfl
@[simp] theorem killVoice_stage (V : Voice) : (killVoice V).env.stage = .idle := rfl

/-- Re-pushing the parameters changes a stage only from DECAY to SUSTAIN, and never the level. -/
theorem envPush_cases (s : State) (e : Envelope) :
    (envPush s e).level = e.level ∧ (envPush s e).rR = e.rR ∧
      ((envPush s e).stage = e.stage ∨ (e.stage = .decay ∧ (envPush s e).stage = .sustain)) := by
  simp only [envPush]
  split
  · rename_i h
    exact ⟨rfl, rfl, .inr ⟨h.1, rfl⟩⟩
  · exact ⟨rfl, rfl, .inl rfl⟩

/-- The tick counter saturates. -/
theorem satInc_toNat (n : Word) : (satInc n).toNat = min (n.toNat + 1) 4294967295 := by
  have := n.isLt
  unfold satInc; split
  · subst_vars; rfl
  · rename_i h
    have : n.toNat ≠ 4294967295 := fun e => h (BitVec.eq_of_toNat_eq e)
    rw [BitVec.toNat_add]; simp; omega

/-- The stages one tick can lead to. -/
theorem envTick_stage (c : Config) (e : Envelope) :
    (envTick c e).stage = e.stage ∨
    (e.stage = .attack ∧ ((envTick c e).stage = .decay ∨ (envTick c e).stage = .sustain)) ∨
    (e.stage = .decay ∧ (envTick c e).stage = .sustain) ∨
    (e.stage = .release ∧ (envTick c e).stage = .idle) := by
  cases h : e.stage <;> simp only [envTick, h] <;> (try split) <;> (try split) <;> simp_all

/-- The lifecycle state after a control update, and with it the fade timer. -/
theorem controlUpdate_state (s : State) (V : Voice) :
    ((controlUpdate s V).state = V.state ∧ (controlUpdate s V).fade = V.fade ∧
        ¬ (V.state = .releasing ∧ (controlUpdate s V).env.stage = .idle)) ∨
    (V.state = .releasing ∧ (controlUpdate s V).env.stage = .idle ∧ (controlUpdate s V).state = .fading ∧
        (controlUpdate s V).fade = s.g.idleLen) := by
  have h1 : (controlUpdate s V).state = (envUpdate s V).state := rfl
  have h2 : (controlUpdate s V).fade = (envUpdate s V).fade := rfl
  have h3 : (controlUpdate s V).env = (envUpdate s V).env := rfl
  rw [h1, h2, h3]
  simp only [envUpdate]
  split
  · rename_i h; exact .inr ⟨h.1, h.2, rfl, rfl⟩
  · rename_i h; exact .inl ⟨rfl, rfl, h⟩

@[simp] theorem controlUpdate_sbc (s : State) (V : Voice) : (controlUpdate s V).sbc = BitVec.ofNat 32 s.cfg.sub := rfl
@[simp] theorem controlUpdate_wave (s : State) (V : Voice) : (controlUpdate s V).wave = V.wave := by
  show (envUpdate s V).wave = V.wave
  simp only [envUpdate]; split <;> rfl

/-- The envelope after a control update: one push and one tick. -/
theorem controlUpdate_env (s : State) (V : Voice) :
    (controlUpdate s V).env = envTick s.cfg (envPush s V.env) := by
  show (envUpdate s V).env = _
  simp only [envUpdate]; split <;> rfl

/-- What the end of a sample does to the lifecycle. -/
theorem fadeStep_cases (V : Voice) :
    (V.state ≠ .fading ∧ fadeStep V = V) ∨
    (V.state = .fading ∧ V.fade.toNat ≤ 1 ∧ fadeStep V = { V with state := .idle, fade := 0#32 }) ∨
    (V.state = .fading ∧ 1 < V.fade.toNat ∧ fadeStep V = { V with fade := V.fade - 1#32 }) := by
  unfold fadeStep
  by_cases h : V.state = .fading
  · by_cases h2 : V.fade.toNat ≤ 1
    · exact .inr (.inl ⟨h, h2, by simp [h, h2]⟩)
    · exact .inr (.inr ⟨h, by omega, by simp [h, h2]⟩)
  · exact .inl ⟨h, by simp [h]⟩

/-! ### What the voices read of the state -/

/-- The two states agree in everything a voice reads. -/
structure SameContext (s s' : State) : Prop where
  cfg : s'.cfg = s.cfg
  regs : s'.regs = s.regs
  wt : s'.wt = s.wt
  nyq : s'.g.nyq = s.g.nyq
  incScale : s'.g.incScale = s.g.incScale
  cutScale : s'.g.cutScale = s.g.cutScale
  fc : s'.g.fc = s.g.fc
  idleLen : s'.g.idleLen = s.g.idleLen
  lfoInc : s'.g.lfoInc = s.g.lfoInc

theorem SameContext.refl (s : State) : SameContext s s := by constructor <;> rfl

theorem SameContext.trans {s t u : State} (h : SameContext s t) (h' : SameContext t u) : SameContext s u :=
  ⟨h'.cfg.trans h.cfg, h'.regs.trans h.regs, h'.wt.trans h.wt, h'.nyq.trans h.nyq, h'.incScale.trans h.incScale,
    h'.cutScale.trans h.cutScale, h'.fc.trans h.fc, h'.idleLen.trans h.idleLen, h'.lfoInc.trans h.lfoInc⟩

theorem lookup_congr {s s' : State} (h : SameContext s s') : lookup s' = lookup s := by
  funext w b p; simp only [lookup, h.cfg, h.wt]

theorem setFreq_congr {s s' : State} (h : SameContext s s') : setFreq s' = setFreq s := by
  funext o f; simp only [setFreq, h.cfg, h.nyq, h.incScale]

theorem applyLfo_congr {s s' : State} (h : SameContext s s') : applyLfo s' = applyLfo s := by
  funext V; simp only [applyLfo, h.cfg, h.regs, setFreq_congr h]

theorem retune_congr {s s' : State} (h : SameContext s s') : retune s' = retune s := by
  funext V; simp only [retune, h.cfg, applyLfo_congr h, setFreq_congr h]

theorem envPush_congr {s s' : State} (h : SameContext s s') : envPush s' = envPush s := by
  funext e; simp only [envPush, h.cfg, h.regs, h.fc]

theorem controlUpdate_congr {s s' : State} (h : SameContext s s') : controlUpdate s' = controlUpdate s := by
  funext V
  simp only [controlUpdate, envUpdate, filterSetCutoff, cutCoeff, finalCutoff, finalResonance, lfoTick, h.cfg, h.regs,
    h.cutScale, h.idleLen, h.lfoInc, envPush_congr h, applyLfo_congr h, lookup_congr h]

/-- A voice's sample depends on the state only through what `SameContext` names. -/
theorem voiceSample_congr {s s' : State} (h : SameContext s s') : voiceSample s' = voiceSample s := by
  funext V
  simp only [voiceSample, voiceChain, oscSample, filterSample, h.cfg, h.regs, lookup_congr h, controlUpdate_congr h]

end Sys2Proof.Machine
end

