-- ==== Sys2Proof/Laws/Render.lean ====
section
/-! SUPPORT. What one frame of a RENDER can do, and from it what a run of frames does: the frames handed over, the voices, and the
exchange with the reverb unit. -/

namespace Sys2Proof.Machine

/-! ### The voices of a frame -/

/-- A voice one frame on: a busy one makes a sample, an idle one stays. -/
def voiceFrame (s : State) (V : Voice) : Voice := if V.busy then (voiceSample s V).2 else V

/-- One more frame of a RENDER is a first frame and the rest. -/
theorem voiceRun_succ (s : State) (k : Nat) (V : Voice) : voiceRun s (k + 1) V = voiceRun s k (voiceFrame s V) := rfl

/-- The sample of `voiceSample` is `voiceOut`. -/
theorem voiceSample_fst (s : State) (V : Voice) : (voiceSample s V).1 = voiceOut s V := rfl

/-- Each voice goes its own way in a frame. -/
theorem sumVoices_voices (s : State) (acc : F32) (vs : List Voice) :
    (sumVoices s acc vs).2 = vs.map (voiceFrame s) := by
  induction vs generalizing acc with
  | nil => rfl
  | cons V vs ih => simp only [sumVoices]; split <;> simp [*, voiceFrame]

/-- The sum of a frame adds the samples of the busy voices in order. -/
theorem sumVoices_sum (s : State) (acc : F32) (vs : List Voice) :
    (sumVoices s acc vs).1 =
      vs.foldl (fun acc V => if V.state = .idle then acc else fadd s.cfg acc (voiceOut s V)) acc := by
  induction vs generalizing acc with
  | nil => rfl
  | cons V vs ih =>
    by_cases h : V.state = .idle <;>
      simp only [sumVoices, Voice.busy, h, ih, List.foldl_cons, voiceSample_fst, bne_self_eq_false, bne_iff_ne, ne_eq,
        not_false_eq_true, if_true, if_false, Bool.false_eq_true]

/-- Rendering keeps the number of voices. -/
theorem sumVoices_length (s : State) (acc : F32) (vs : List Voice) : (sumVoices s acc vs).2.length = vs.length := by
  rw [sumVoices_voices, List.length_map]

/-- The sum of the next frame is the voice sum 0. -/
theorem frameSum_sum (s : State) : (frameSum s).1 = voiceMix s 0 := by
  rw [frameSum, sumVoices_sum, voiceMix, show voiceRun s 0 = id from funext fun _ => rfl, List.map_id]

theorem voiceRun_congr {s s' : State} (h : SameContext s s') (k : Nat) : voiceRun s' k = voiceRun s k := by
  induction k with
  | zero => rfl
  | succ k ih => funext V; simp only [voiceRun_succ, voiceFrame, ih, voiceSample_congr h]

theorem voiceOut_congr {s s' : State} (h : SameContext s s') : voiceOut s' = voiceOut s := by
  funext V; rw [← voiceSample_fst, ← voiceSample_fst, voiceSample_congr h]

/-- The voice sum of frame `i` after one frame is that of frame `i + 1` before it. -/
theorem voiceMix_succ {s t : State} (h : SameContext s t) (hv : t.voices = (frameSum s).2) (i : Nat) :
    voiceMix t i = voiceMix s (i + 1) := by
  simp only [voiceMix, voiceRun_congr h, voiceOut_congr h, h.cfg, hv, frameSum, sumVoices_voices, List.map_map]
  rfl

/-! ### One frame -/

/-- The frame that is frame `i` of block `b` and comes `j` frames after state `s`, in terms of `s` alone. -/
def frameAt (b : Block) (i : Nat) (s : State) (j : Nat) : List F32 :=
  masterFrame b i s
    (if b.active then blend b i s (voiceMix s j) ((List.range s.g.nch.toNat).map (returnSample s j))
     else List.replicate s.g.nch.toNat (voiceMix s j))

@[simp] theorem masterFrame_length (b : Block) (i : Nat) (s : State) (out : List F32) :
    (masterFrame b i s out).length = out.length := by simp [masterFrame]

@[simp] theorem blend_length (b : Block) (i : Nat) (s : State) (acc : F32) (w : List F32) :
    (blend b i s acc w).length = w.length := by simp [blend]

/-- Every frame has one sample a channel. -/
@[simp] theorem frameAt_length (b : Block) (i : Nat) (s : State) (j : Nat) : (frameAt b i s j).length = s.g.nch.toNat := by
  simp only [frameAt, masterFrame_length]; split <;> simp

/-- The frame `recv()` returns next holds the return samples of frame 0. -/
theorem reverbFrame_eq (s : State) (nch : Nat) : reverbFrame s.ports nch = (List.range nch).map (returnSample s 0) := by
  refine List.map_congr_left fun ch _ => ?_
  rw [returnSample, Nat.zero_mul, Nat.add_zero]
  cases s.ports.rvRet <;> rfl

/-- What a completed frame `i` of block `b` has done: the voices are one sample on, one frame is counted and handed over, and
the reverb ports moved exactly when the block is active. -/
structure FrameStep (b : Block) (i : Nat) (s t : State) : Prop where
  cfg : t.cfg = s.cfg
  regs : t.regs = s.regs
  wt : t.wt = s.wt
  voices : t.voices = (frameSum s).2
  g : t.g = { s.g with frames := s.g.frames + 1#64 }
  cmdIn : t.ports.cmdIn = s.ports.cmdIn
  rst : t.ports.rst = s.ports.rst
  respOut : t.ports.respOut = s.ports.respOut
  respCredit : t.ports.respCredit = s.ports.respCredit
  frameOut : t.ports.frameOut = s.ports.frameOut ++ [frameAt b i s 0]
  frameCredit : takeCredit s.ports.frameCredit = some t.ports.frameCredit
  quiet : b.active = false → t.ports.rvSend = s.ports.rvSend ∧ t.ports.rvRet = s.ports.rvRet ∧
    t.ports.rvDraws = s.ports.rvDraws ∧ t.ports.rvCredit = s.ports.rvCredit
  sent : b.active = true → t.ports.rvSend = s.ports.rvSend ++ [List.replicate s.g.nch.toNat (voiceMix s 0)] ∧
    t.ports.rvRet = s.ports.rvRet.tail ∧ t.ports.rvDraws = s.ports.rvDraws + s.g.nch.toNat ∧
    takeCredit s.ports.rvCredit = some t.ports.rvCredit

/-- Everything a completed frame can have done. -/
theorem renderFrame_done {b : Block} {i : Nat} {s t : State} (h : renderFrame b i s = .done t) : FrameStep b i s t := by
  simp only [renderFrame, frameSum_sum, reverbFrame_eq] at h
  split at h
  · rename_i ha
    split at h
    · cases h
    · rename_i cr hcr
      obtain ⟨cr', hcr', rfl⟩ := emit_done h
      refine ⟨rfl, rfl, rfl, rfl, rfl, rfl, rfl, rfl, rfl, ?_, hcr', ?_, ?_⟩
      · simp only [frameAt, ha, if_true]; rfl
      · simp [ha]
      · intro _; exact ⟨rfl, rfl, rfl, hcr⟩
  · rename_i ha
    obtain ⟨cr', hcr', rfl⟩ := emit_done h
    refine ⟨rfl, rfl, rfl, rfl, rfl, rfl, rfl, rfl, rfl, ?_, hcr', ?_, ?_⟩
    · simp only [frameAt, ha, if_false, Bool.false_eq_true]; rfl
    · intro _; exact ⟨rfl, rfl, rfl, rfl⟩
    · simp [ha]

/-- With partners that never stall a frame completes. -/
theorem renderFrame_completes (b : Block) (i : Nat) (s : State) (hf : s.ports.frameCredit = none)
    (hr : s.ports.rvCredit = none) :
    ∃ t, renderFrame b i s = .done t ∧ t.ports.frameCredit = none ∧ t.ports.rvCredit = none := by
  simp only [renderFrame, hr, takeCredit_none, emit, State.setPorts_ports, portsAfterReverb, State.setVoices_ports, hf]
  split
  · exact ⟨_, rfl, rfl, rfl⟩
  · exact ⟨_, rfl, rfl, by simp⟩

/-- A frame leaves the context of the voices as it was. -/
theorem FrameStep.context {b : Block} {i : Nat} {s t : State} (h : FrameStep b i s t) : SameContext s t := by
  have hg := h.g
  constructor <;> first | exact h.cfg | exact h.regs | exact h.wt | rw [hg]

/-- In an active block the return frames move up by one. -/
theorem FrameStep.returnSample_succ {b : Block} {i : Nat} {s t : State} (h : FrameStep b i s t) (ha : b.active = true)
    (j : Nat) : returnSample t j = returnSample s (j + 1) := by
  obtain ⟨-, hr, hd, -⟩ := h.sent ha
  funext ch
  simp only [returnSample, hr, hd, h.g, Nat.succ_mul]
  congr 1
  · cases s.ports.rvRet <;> simp
  · congr 1; omega

/-- The frame `j` frames after one frame is the frame `j + 1` frames after the state before it. -/
theorem FrameStep.frameAt_succ {b : Block} {i : Nat} {s t : State} (h : FrameStep b i s t) (i' j : Nat) :
    frameAt b i' t j = frameAt b i' s (j + 1) := by
  have hg := h.g
  simp only [frameAt, masterFrame, blend, h.cfg, voiceMix_succ h.context h.voices]
  rw [hg]
  cases ha : b.active
  · rfl
  · simp only [h.returnSample_succ ha]

/-! ### A run of frames -/

/-- What a completed run of the `k` frames `i`, `i + 1`, ... of block `b` has done. -/
structure FrameRun (b : Block) (i k : Nat) (s t : State) : Prop where
  cfg : t.cfg = s.cfg
  regs : t.regs = s.regs
  wt : t.wt = s.wt
  voices : t.voices = s.voices.map (voiceRun s k)
  g : t.g = { s.g with frames := s.g.frames + BitVec.ofNat 64 k }
  cmdIn : t.ports.cmdIn = s.ports.cmdIn
  rst : t.ports.rst = s.ports.rst
  respOut : t.ports.respOut = s.ports.respOut
  respCredit : t.ports.respCredit = s.ports.respCredit
  frameOut : t.ports.frameOut = s.ports.frameOut ++ (List.range k).map fun j => frameAt b (i + j) s j
  quiet : b.active = false → t.ports.rvSend = s.ports.rvSend ∧ t.ports.rvRet = s.ports.rvRet ∧
    t.ports.rvDraws = s.ports.rvDraws ∧ t.ports.rvCredit = s.ports.rvCredit
  sent : b.active = true →
    t.ports.rvSend = s.ports.rvSend ++ ((List.range k).map fun j => List.replicate s.g.nch.toNat (voiceMix s j)) ∧
    t.ports.rvRet = s.ports.rvRet.drop k ∧ t.ports.rvDraws = s.ports.rvDraws + k * s.g.nch.toNat

/-- A list indexed from 0 is its first entry and the rest indexed from 1. -/
theorem map_range_succ {α : Type} (f : Nat → α) (k : Nat) :
    (List.range (k + 1)).map f = f 0 :: (List.range k).map fun j => f (j + 1) := by
  rw [List.range_succ_eq_map, List.map_cons, List.map_map]; rfl

/-- Everything a completed run of frames can have done. -/
theorem renderFrames_done {b : Block} {k : Nat} : ∀ {i : Nat} {s t : State}, renderFrames b k i s = .done t →
    FrameRun b i k s t := by
  induction k with
  | zero =>
    intro i s t h
    simp only [renderFrames, Progress.done.injEq] at h
    subst h
    refine ⟨rfl, rfl, rfl, ?_, by simp, rfl, rfl, rfl, rfl, by simp, fun _ => ⟨rfl, rfl, rfl, rfl⟩, fun _ => by simp⟩
    rw [show voiceRun s 0 = id from funext fun _ => rfl, List.map_id]
  | succ k ih =>
    intro i s t h
    simp only [renderFrames] at h
    split at h
    · cases h
    · rename_i s' hs'
      have f := renderFrame_done hs'
      have r := ih h
      have hc := f.context
      refine ⟨r.cfg.trans f.cfg, r.regs.trans f.regs, r.wt.trans f.wt, ?_, ?_, r.cmdIn.trans f.cmdIn, r.rst.trans f.rst,
        r.respOut.trans f.respOut, r.respCredit.trans f.respCredit, ?_, ?_, ?_⟩
      · rw [r.voices, voiceRun_congr hc, f.voices, frameSum, sumVoices_voices, List.map_map]; rfl
      · rw [r.g, f.g]
        simp only [Global.mk.injEq, true_and, and_true]
        rw [BitVec.add_assoc]; congr 1
        apply BitVec.eq_of_toNat_eq; simp; omega
      · rw [r.frameOut, f.frameOut, map_range_succ, List.append_assoc]
        simp only [f.frameAt_succ, Nat.add_zero, List.singleton_append, show ∀ j, i + 1 + j = i + (j + 1) by omega]
      · intro ha
        have q1 := f.quiet ha
        have q2 := r.quiet ha
        exact ⟨q2.1.trans q1.1, q2.2.1.trans q1.2.1, q2.2.2.1.trans q1.2.2.1, q2.2.2.2.trans q1.2.2.2⟩
      · intro ha
        have q1 := f.sent ha
        obtain ⟨hsend, hret, hdraw⟩ := r.sent ha
        have hn : s'.g.nch = s.g.nch := by rw [f.g]
        refine ⟨?_, ?_, ?_⟩
        · rw [hsend, q1.1, hn, map_range_succ, List.append_assoc]
          simp only [voiceMix_succ hc f.voices, List.singleton_append]
        · rw [hret, q1.2.1, List.drop_tail]
        · rw [hdraw, q1.2.2.1, hn, Nat.succ_mul]; omega

/-- With partners that never stall a run of frames completes. -/
theorem renderFrames_completes (b : Block) (k : Nat) : ∀ (i : Nat) (s : State), s.ports.frameCredit = none →
    s.ports.rvCredit = none → ∃ t, renderFrames b k i s = .done t ∧ t.ports.frameCredit = none ∧ t.ports.rvCredit = none := by
  induction k with
  | zero => intro i s hf hr; exact ⟨s, rfl, hf, hr⟩
  | succ k ih =>
    intro i s hf hr
    obtain ⟨t, ht, htf, htr⟩ := renderFrame_completes b i s hf hr
    simp only [renderFrames, ht]
    exact ih (i + 1) t htf htr

end Sys2Proof.Machine
end

