-- ==== Sys2Proof/Laws/Commands.lean ====
section
/-! SUPPORT. Everything each command can do when it gives a next state, one lemma a command. -/

namespace Sys2Proof.Machine

/-- Voice `u` after voice `v` has been set; past the pool nothing is set. -/
theorem voice_setVoice (s : State) (v u : Nat) (V : Voice) :
    (s.setVoice v V).voice u = if u = v ∧ v < s.voices.length then V else s.voice u := by
  simp only [State.voice, State.setVoice, State.setVoices, List.getD_eq_getElem?_getD, List.getElem?_set]
  by_cases h : v = u
  · subst h
    by_cases hl : v < s.voices.length <;> simp [hl]
  · simp [h, Ne.symm h]

/-- Voice `v` of a pool to which a function that keeps the reset voice has been applied. -/
theorem voice_map (s : State) (f : Voice → Voice) (hf : f Voice.reset = Voice.reset) (v : Nat) :
    (s.voices.map f).getD v Voice.reset = f (s.voice v) := by
  simp only [State.voice, List.getD_eq_getElem?_getD, List.getElem?_map]
  cases s.voices[v]? <;> simp [hf]

/-- Setting a frequency tunes an oscillator to it. -/
theorem tuned_setFreq (s : State) (o : Osc) (f : F32) : tuned s (setFreq s o f) := ⟨setFreq_inc s o f, rfl⟩

/-- Applying the LFO sets oscillator 2 to `lfoFreq` and tunes it. -/
theorem applyLfo_osc2 (s : State) (V : Voice) :
    (applyLfo s V).osc2.freq = lfoFreq s V.f2base V.lfo.val ∧ tuned s (applyLfo s V).osc2 :=
  ⟨rfl, tuned_setFreq _ _ _⟩

/-- PREPARE is refused or leaves `prepared`. -/
theorem exec_prepare_next {nch mb : Nat} {fs : F32} {s t : State} (h : exec (.prepare nch mb fs) s = .next t) :
    (prepareLegal s.cfg nch mb fs = true ∧ t = prepared s nch mb fs) ∨
    (prepareLegal s.cfg nch mb fs = false ∧ t = raiseError .badPrepare 0x01#8 s) := by
  simp only [exec, execPrepare] at h
  split at h <;> cases h
  · rename_i hl; exact .inl ⟨hl, rfl⟩
  · rename_i hl; exact .inr ⟨by simpa using hl, rfl⟩

/-- SET_PARAM is refused with one of its two errors or does the register write. -/
theorem exec_setParam_next {a : Byte} {d : Word} {s t : State} (h : exec (.setParam a d) s = .next t) :
    writeReg s (regOf s.cfg a) d = .ok t ∨ t = raiseError .badAddr 0x02#8 s ∨ t = raiseError .badValue 0x02#8 s := by
  simp only [exec, execSetParam] at h
  rcases writeReg_cases s (regOf s.cfg a) d with hw | hw | ⟨r, hw⟩ | ⟨r, _, hw⟩ <;> rw [hw] at h <;> cases h
  · exact .inr (.inl rfl)
  · exact .inr (.inr rfl)
  · exact .inl hw
  · exact .inl hw

/-- READ_REG appends one response word and may record BAD_ADDR. -/
theorem exec_readReg_next {a : Byte} {s t : State} (h : exec (.readReg a) s = .next t) :
    ∃ r cr, takeCredit s.ports.respCredit = some cr ∧
      let u := s.setPorts { s.ports with respOut := s.ports.respOut ++ [r], respCredit := cr }
      (readReg s a = some r ∧ t = u) ∨ (readReg s a = none ∧ r = 0#32 ∧ t = raiseError .badAddr 0x03#8 u) := by
  simp only [exec, execReadReg] at h
  split at h
  · rename_i r hr
    obtain ⟨cr, hc, rfl⟩ := respond_done (Progress.outcome_next.mp h)
    exact ⟨r, cr, hc, .inl ⟨hr, rfl⟩⟩
  · rename_i hr
    split at h
    · rename_i u hu
      obtain ⟨cr, hc, rfl⟩ := respond_done hu
      cases h
      exact ⟨0#32, cr, hc, .inr ⟨hr, rfl, rfl⟩⟩
    · cases h

/-- NOTE_ON is refused or starts the note. -/
theorem exec_noteOn_next {v n vel w : Nat} {s t : State} (h : exec (.noteOn v n vel w) s = .next t) :
    (s.g.prepared = false ∧ t = raiseError .notPrepared 0x04#8 s) ∨
    (s.g.prepared = true ∧ s.cfg.nv ≤ v ∧ t = raiseError .badVoice 0x04#8 s) ∨
    (s.g.prepared = true ∧ v < s.cfg.nv ∧
      t = startNote (s.setRegs { s.regs with pitchWheel := BitVec.ofNat 32 w }) v n vel w) := by
  simp only [exec, execNoteOn] at h
  split at h
  · cases h; exact .inl ⟨by simp_all, rfl⟩
  · split at h
    · cases h; exact .inr (.inl ⟨by simp_all, by assumption, rfl⟩)
    · cases h; exact .inr (.inr ⟨by simp_all, by omega, rfl⟩)

/-- NOTE_OFF is refused, releases its voice or kills it. -/
theorem exec_noteOff_next {v rv : Nat} {tail : Bool} {s t : State} (h : exec (.noteOff v tail rv) s = .next t) :
    (s.g.prepared = false ∧ t = raiseError .notPrepared 0x05#8 s) ∨
    (s.g.prepared = true ∧ s.cfg.nv ≤ v ∧ t = raiseError .badVoice 0x05#8 s) ∨
    (s.g.prepared = true ∧ v < s.cfg.nv ∧
      t = s.setVoice v (if tail then releaseVoice s (s.voice v) else killVoice (s.voice v))) := by
  simp only [exec, execNoteOff] at h
  split at h
  · cases h; exact .inl ⟨by simp_all, rfl⟩
  · split at h
    · cases h; exact .inr (.inl ⟨by simp_all, by assumption, rfl⟩)
    · split at h <;> cases h <;> exact .inr (.inr ⟨by simp_all, by omega, by simp [*]⟩)

/-- RENDER is refused, has nothing to do, or runs its frames and closes the block. -/
theorem exec_render_next {n : Nat} {s t : State} (h : exec (.render n) s = .next t) :
    (s.g.prepared = false ∧ t = raiseError .notPrepared 0x08#8 s) ∨
    (s.g.prepared = true ∧ s.g.maxBlock.toNat < n ∧ t = raiseError .badLength 0x08#8 s) ∨
    (s.g.prepared = true ∧ n = 0 ∧ t = s) ∨
    (s.g.prepared = true ∧ n ≠ 0 ∧ n ≤ s.g.maxBlock.toNat ∧ ∃ u, renderFrames (openBlock n s) n 0 s = .done u ∧
      FrameRun (openBlock n s) 0 n s u ∧ t = closeBlock (openBlock n s) u) := by
  simp only [exec, execRender] at h
  split at h
  · cases h; exact .inl ⟨by simp_all, rfl⟩
  · split at h
    · cases h; exact .inr (.inl ⟨by simp_all, by assumption, rfl⟩)
    · split at h
      · cases h; exact .inr (.inr (.inl ⟨by simp_all, by assumption, rfl⟩))
      · rw [Progress.outcome_next] at h
        simp only [renderBlock] at h
        split at h
        · cases h
        · rename_i u hu
          cases h
          exact .inr (.inr (.inr ⟨by simp_all, by assumption, by omega, u, hu, renderFrames_done hu, rfl⟩))

/-- Closing a block moves the last gains and nothing else. -/
theorem closeBlock_frame (b : Block) (s : State) :
    (closeBlock b s).cfg = s.cfg ∧ (closeBlock b s).regs = s.regs ∧ (closeBlock b s).wt = s.wt ∧
    (closeBlock b s).voices = s.voices ∧ (closeBlock b s).ports = s.ports ∧
    (closeBlock b s).g = { s.g with
      gMLast := (closeBlock b s).g.gMLast
      gDryLast := (closeBlock b s).g.gDryLast
      gWetLast := (closeBlock b s).g.gWetLast } := by
  unfold closeBlock
  split <;> exact ⟨rfl, rfl, rfl, rfl, rfl, rfl⟩

end Sys2Proof.Machine
end

