-- ==== Sys2Proof/Laws/Decode.lean ====
section
/-! SUPPORT. The byte transport: a command word sent as its eight bytes is the word that is read, and so are the words of the other
ports. -/

namespace Sys2Proof

/-- Taking a command from the bytes of a word gives the word and what follows it (spec 20 R84). -/
theorem takeCommand_bytesOfCmd (w : Cmd) (rest : List Byte) : takeCommand (bytesOfCmd w ++ rest) = .ok (w, rest) := by
  simp only [bytesOfCmd, List.cons_append, List.nil_append, takeCommand, Except.ok.injEq, Prod.mk.injEq, and_true]
  apply BitVec.eq_of_getLsbD_eq
  intro i hi
  simp only [BitVec.getLsbD_append, BitVec.getLsbD_extractLsb']
  repeat' split
  all_goals (rw [decide_eq_true (by omega), Bool.true_and]; congr 1; omega)

/-- A byte stream that starts with a word is decoded as that word is. -/
theorem decode_bytesOfCmd (w : Cmd) (rest : List Byte) :
    decode (bytesOfCmd w ++ rest) = (decodeCmd w).map fun i => (i, rest) := by
  simp only [decode, takeCommand_bytesOfCmd]
  cases decodeCmd w <;> rfl

/-- Bytes 0 to 3 of a word have the weights 1, 2^8, 2^16 and 2^24 (spec 20 R84). -/
theorem toNat_of_bytes (w : Word) :
    w.toNat = (w.extractLsb' 0 8).toNat + 256 * (w.extractLsb' 8 8).toNat + 65536 * (w.extractLsb' 16 8).toNat +
      16777216 * (w.extractLsb' 24 8).toNat := by
  have := w.isLt
  simp only [BitVec.extractLsb'_toNat, Nat.shiftRight_eq_div_pow]
  omega

/-- The words of a byte stream that begins with the bytes of a word. -/
@[simp] theorem wordsOfBytes_bytesOfWord (w : Word) (rest : List Byte) :
    wordsOfBytes (bytesOfWord w ++ rest) = w :: wordsOfBytes rest := by
  simp only [bytesOfWord, List.cons_append, List.nil_append, wordsOfBytes, List.cons.injEq, and_true]
  apply BitVec.eq_of_getLsbD_eq
  intro i hi
  simp only [BitVec.getLsbD_append, BitVec.getLsbD_extractLsb']
  repeat' split
  all_goals (rw [decide_eq_true (by omega), Bool.true_and]; congr 1; omega)

/-- Words sent as bytes are the words that are read. -/
theorem wordsOfBytes_flatMap (ws : List Word) : wordsOfBytes (ws.flatMap bytesOfWord) = ws := by
  induction ws with
  | nil => rfl
  | cons w ws ih => rw [List.flatMap_cons, wordsOfBytes_bytesOfWord, ih]

end Sys2Proof
end

