-- ==== Sys2Proof/Laws/PerInstr.lean ====
section
/-! SUPPORT. Per-command facts about the encoding: the word of a command carries its opcode. -/

namespace Sys2Proof.Laws.OpcodeField

/-- The encoded word of a command has the command's opcode in bits 63:56 (spec 30 R100, R104). -/
def Statement (i : Instr) : Prop := cmdOp (encodeCmd i) = i.opcode

theorem mkCmd_op (op a : Byte) (b : BitVec 16) (d : Word) : cmdOp (mkCmd op a b d) = op := by
  apply BitVec.eq_of_getLsbD_eq
  intro k hk
  simp only [cmdOp, mkCmd, BitVec.getLsbD_extractLsb', BitVec.getLsbD_append]
  have h1 : ¬ 56 + k < 32 := by omega
  have h2 : ¬ 56 + k - 32 < 16 := by omega
  have h3 : ¬ 56 + k - 32 - 16 < 8 := by omega
  have h4 : 56 + k - 32 - 16 - 8 = k := by omega
  simp [h1, h2, h3, h4, hk]

theorem nop : Statement .nop := mkCmd_op _ _ _ _
theorem prepare (nch mb : Nat) (fs : F32) : Statement (.prepare nch mb fs) := mkCmd_op _ _ _ _
theorem setParam (a : Byte) (d : Word) : Statement (.setParam a d) := mkCmd_op _ _ _ _
theorem readReg (a : Byte) : Statement (.readReg a) := mkCmd_op _ _ _ _
theorem noteOn (v note vel wheel : Nat) : Statement (.noteOn v note vel wheel) := mkCmd_op _ _ _ _
theorem noteOff (v : Nat) (tail : Bool) (relVel : Nat) : Statement (.noteOff v tail relVel) := mkCmd_op _ _ _ _
theorem pitchBend (wheel : Nat) : Statement (.pitchBend wheel) := mkCmd_op _ _ _ _
theorem controller (cc val : Nat) : Statement (.controller cc val) := mkCmd_op _ _ _ _
theorem render (n : Nat) : Statement (.render n) := mkCmd_op _ _ _ _

end Sys2Proof.Laws.OpcodeField
end

