-- ==== Sys2Proof/Tests/Slice0.lean ====
section
/-! SUPPORT. Tests of the model against numbers of the spec (each names its vector), the checks of `wellFormed`, the decoding of
words written out from 30 R101 and R110, and a witness for the hypotheses of each obligation that has any. -/

namespace Sys2Proof.Tests

set_option Elab.async false

open Sys2Proof.Machine

/-! ### What the field checks refuse (30 R101, R102) -/

theorem test_wf_prepare_channels : (Instr.prepare 256 1 0#32).wellFormed = false := by decide
theorem test_wf_prepare_block : (Instr.prepare 1 65536 0#32).wellFormed = false := by decide
theorem test_wf_noteOn_voice : (Instr.noteOn 256 0 0 0).wellFormed = false := by decide
theorem test_wf_noteOn_note : (Instr.noteOn 0 128 0 0).wellFormed = false := by decide
theorem test_wf_noteOn_velocity : (Instr.noteOn 0 0 128 0).wellFormed = false := by decide
theorem test_wf_noteOn_wheel : (Instr.noteOn 0 0 0 16384).wellFormed = false := by decide
theorem test_wf_noteOff_voice : (Instr.noteOff 256 true 0).wellFormed = false := by decide
theorem test_wf_noteOff_velocity : (Instr.noteOff 0 true 128).wellFormed = false := by decide
theorem test_wf_pitchBend : (Instr.pitchBend 16384).wellFormed = false := by decide
theorem test_wf_controller_number : (Instr.controller 128 0).wellFormed = false := by decide
theorem test_wf_controller_value : (Instr.controller 0 128).wellFormed = false := by decide
theorem test_wf_render : (Instr.render 65536).wellFormed = false := by decide
theorem test_wf_largest : (Instr.noteOn 255 127 127 16383).wellFormed = true := by decide

/-! ### Decoding of words written out from the encoding (95 V1) -/

theorem test_decode_nop : decodeCmd 0x00FFFFFFFFFFFFFF#64 = .ok .nop := by decide
theorem test_decode_prepare : decodeCmd 0x01020200473B8000#64 = .ok (.prepare 2 512 0x473B8000#32) := by decide
theorem test_decode_setParam : decodeCmd 0x02020000447A0000#64 = .ok (.setParam 0x02#8 0x447A0000#32) := by decide
theorem test_decode_readReg : decodeCmd 0x0320000000000000#64 = .ok (.readReg 0x20#8) := by decide
theorem test_decode_noteOn : decodeCmd 0x0407643C00002000#64 = .ok (.noteOn 7 60 100 0x2000) := by decide
/-- Every bit of the fields set, the ignored ones too. -/
theorem test_decode_noteOn_ones : decodeCmd 0x04FFFFFFFFFFFFFF#64 = .ok (.noteOn 255 127 127 0x3FFF) := by decide
theorem test_decode_noteOff : decodeCmd 0x0500400100000000#64 = .ok (.noteOff 0 true 64) := by decide
theorem test_decode_kill : decodeCmd 0x0500000000000000#64 = .ok (.noteOff 0 false 0) := by decide
theorem test_decode_pitchBend : decodeCmd 0x0600000000003FFF#64 = .ok (.pitchBend 0x3FFF) := by decide
theorem test_decode_controller : decodeCmd 0x07810000FFFFFF7F#64 = .ok (.controller 1 127) := by decide
theorem test_decode_render : decodeCmd 0x08FF0002FFFFFFFF#64 = .ok (.render 2) := by decide
theorem test_decode_reserved : decodeCmd 0x0900000000000000#64 = .error (.illegalOpcode 0x09#8) := by decide
theorem test_decode_reserved_last : decodeCmd 0xFF00000000000000#64 = .error (.illegalOpcode 0xFF#8) := by decide
/-- The byte order of 95 V1: the eight bytes of a PREPARE. -/
theorem test_decode_bytes :
    decode [0x00#8, 0x80#8, 0x3B#8, 0x47#8, 0x00#8, 0x02#8, 0x02#8, 0x01#8] = .ok (.prepare 2 512 0x473B8000#32, []) := by
  decide
theorem test_decode_table : decodeTableWord 64 0x0800020000000000 = some (.render 512) := by decide

/-! ### Helpers -/

/-- The next state, or the state itself where there is none. -/
def nextOr (s : State) : Host.Outcome State Fault Refusal → State
  | .next t => t
  | _ => s

/-- The state after the machine has run the command word `w`. -/
def run (s : State) (w : Cmd) : State := nextOr s (step (offerCommand w s))

/-- True when the outcome is a next state. -/
def isNext : Host.Outcome State Fault Refusal → Bool
  | .next _ => true
  | _ => false

/-- A small prepared machine: block size 8, two channels, five idle voices. -/
def ready : State :=
  { State.reset with g := { Global.reset Config.default with prepared := true, maxBlock := 8#32, nch := 2#32 } }

/-- The same machine with voice 0 in lifecycle state `st` and envelope stage `e`. -/
def withVoice (st : VoiceState) (e : EnvStage) : State :=
  ready.setVoice 0 { Voice.reset with state := st, env := { Envelope.reset with stage := e, level := 0x3F000000#32 }, fade := 3#32 }

/-- The same machine with the register REVERB at 0.5. -/
def wet : State := ready.setRegs { ready.regs with reverb := 0x3F000000#32 }

/-- The same machine with an error recorded. -/
def marked : State := raiseError .badVoice 0x04#8 ready

/-- The prepared machine of 95 P1: PREPARE 48000.0, 512, 2. -/
def p1 : State := run State.reset 0x01020200473B8000#64

/-! ### One step of each command (95 V2, V7, V9; 46 R302 to R309) -/

theorem test_nop : run State.reset 0x00FFFFFFFFFFFFFF#64 = State.reset := by decide +kernel
theorem test_reserved_opcode : errCodeWord (run State.reset 0x0900000000000000#64) = 0x00010901#32 := by decide +kernel
/-- 95 V2 at 48000.0 Hz. -/
theorem test_prepare_rates : p1.g.nyq = 0x46BB8000#32 ∧ p1.g.incScale = 0x47AEC33E#32 ∧ p1.g.cutScale = 0xB909421F#32 ∧
    p1.g.fc = 0x44700000#32 ∧ p1.g.fRamp = 2400#32 ∧ p1.g.idleLen = 48000#32 ∧ p1.g.lfoInc = 22369622#32 := by
  decide +kernel
/-- 95 V3.1 at 48000.0 Hz. -/
theorem test_prepare_orders : p1.g.order =
    [List.replicate 9 1#32, [307#32, 153#32, 76#32, 38#32, 19#32, 9#32, 4#32, 2#32, 1#32],
      [154#32, 77#32, 38#32, 19#32, 10#32, 5#32, 2#32, 1#32, 1#32]] := by
  decide +kernel
/-- SET_PARAM ATTACK, 20.0 stores 15.0. -/
theorem test_setParam_clamps : (run State.reset 0x0205000041A00000#64).regs.attack = 0x41700000#32 := by decide +kernel
/-- SET_PARAM SUSTAIN, -0.0 stores +0.0. -/
theorem test_setParam_zero : (run State.reset 0x0207000080000000#64).regs.sustain = 0#32 := by decide +kernel
/-- READ_REG CONFIG after reset. -/
theorem test_readReg_config : (run State.reset 0x0327000000000000#64).ports.respOut = [0x01090A05#32] := by decide +kernel
/-- READ_REG 0x13 responds 0 and records BAD_ADDR. -/
theorem test_readReg_reserved : (run State.reset 0x0313000000000000#64).ports.respOut = [0#32] ∧
    errCodeWord (run State.reset 0x0313000000000000#64) = 0x00010305#32 := by decide +kernel
/-- 95 V7.7 and V7.8: the drift factors, and the frequencies 441.50201 and 438.07458 with increments of 95 V4.1. -/
theorem test_noteOn : ((run p1 0x04007F4500002000#64).voice 0).df1 = 0x3F806FDC#32 ∧
    ((run p1 0x04007F4500002000#64).voice 0).osc1.freq = 0x43DCC042#32 ∧
    ((run p1 0x04007F4500002000#64).voice 0).osc2.freq = 0x43DB098C#32 ∧
    ((run p1 0x04007F4500002000#64).voice 0).osc2.inc = 0x02561E28#32 ∧
    (run p1 0x04007F4500002000#64).g.rng = 0x91E00C19#32 := by decide +kernel
/-- 60 R343: NOTE_ON 9, 60, 100 before PREPARE records NOT_PREPARED. -/
theorem test_noteOn_not_prepared : errCodeWord (run State.reset 0x0409643C00002000#64) = 0x00010402#32 := by decide +kernel
/-- 95 V5.2: a release from level 0.5 with RELEASE 0.03125 at control rate 1024 has rate 0.015625. -/
theorem test_noteOff_rate : (envNoteOff { ready with
      regs := { ready.regs with release := 0x3D000000#32 }
      g := { ready.g with fc := 0x44800000#32 } }
    { Envelope.reset with stage := .sustain, level := 0x3F000000#32 }).rR = 0x3C800000#32 := by decide +kernel
/-- A kill leaves the voice idle with its level 0. -/
theorem test_noteOff_kill : ((run (withVoice .playing .decay) 0x0500000000000000#64).voice 0).state = .idle ∧
    ((run (withVoice .playing .decay) 0x0500000000000000#64).voice 0).env.level = 0#32 := by decide +kernel
theorem test_pitchBend : (run State.reset 0x0600000000003FFF#64).regs.pitchWheel = 0x3FFF#32 := by decide +kernel
theorem test_controller : (run State.reset 0x0701000000000040#64).regs.modWheel = 64#32 := by decide +kernel
theorem test_controller_ignored : run State.reset 0x0707000000000064#64 = State.reset := by decide +kernel
/-- 95 V8.3: no busy voice gives `+0.0` on both channels. -/
theorem test_render_silence : (run ready 0x0800000200000000#64).ports.frameOut = [[0#32, 0#32], [0#32, 0#32]] ∧
    (run ready 0x0800000200000000#64).g.frames = 2#64 := by decide +kernel
/-- RENDER 513 with MAX_BLOCK 512 records BAD_LENGTH. -/
theorem test_render_too_long : errCodeWord (run p1 0x0800020100000000#64) = 0x00010804#32 := by decide +kernel

/-! ### The shared operations (95 V4 to V8) -/

/-- The largest finite value plus half its spacing rounds to infinity, a tie that goes to the even pattern. -/
theorem test_fadd_overflow : fadd Config.default 0x7F7FFFFF#32 0x73000000#32 = 0x7F800000#32 := by decide +kernel
/-- 95 V5.3: `1.0 / f32(9.6)` of the default attack rate. -/
theorem test_fdiv : fdiv Config.default 0x3F800000#32 0x41199999#32 = 0x3DD55556#32 := by decide +kernel
/-- 95 V7.5: `f32(0.3)` is kept and `1 - f32(0.3)` is `f32(0.7)`. -/
theorem test_amtFactor : amtFactor Config.default 0x3F800000#32 0x3E99999A#32 = 0x3E99999A#32 ∧
    amtFactor Config.default 0xBF800000#32 0x3E99999A#32 = 0x3F333333#32 := by decide +kernel
/-- 95 V7.4: amount 1 at velocities 1 and 100, amount 0.5 at 100. -/
theorem test_velLevel : velLevelOf Config.default 0x3F800000#32 (velocityOf Config.default 1) = 0x3C010200#32 ∧
    velLevelOf Config.default 0x3F000000#32 (velocityOf Config.default 100) = 0x3F64C993#32 := by decide +kernel
/-- 95 V7.2: wheel positions 1, 0x1FFF and 0x3000. -/
theorem test_bendSemis : bendSemis Config.default 1 = 0xBFFFF800#32 ∧ bendSemis Config.default 0x1FFF = 0xB9800000#32 ∧
    bendSemis Config.default 0x3000 = 0x3F800400#32 := by decide +kernel
/-- 95 V4.3: length 3 from 1.0 to 0.0. -/
theorem test_smoother : smValue Config.default (smSetTarget Config.default ⟨0x3F800000#32, 0x3F800000#32, 0#32, 0#32, 3#32⟩ 0#32) 1
    = 0x3EAAAAA9#32 := by decide +kernel
/-- 95 V4.2: the phase wraps. -/
theorem test_phase_wraps : (oscSample ready 0#2 { Osc.reset with phase := 0xFFFFFFF0#32, inc := 0x20#32 }).2.phase = 0x10#32 := by
  decide +kernel
/-- 40 R134: 440.0, 625.0 and 24000.0. -/
theorem test_bandSelect : bandSelect Config.default 0x43DC0000#32 = 3 ∧ bandSelect Config.default 0x441C4000#32 = 4 ∧
    bandSelect Config.default 0x46BB8000#32 = 8 := by decide +kernel
/-- 95 V5.1: the sixteenth tick reaches 1.0 and goes to DECAY. -/
theorem test_envTick : envTick Config.default ⟨.attack, 0x3F700000#32, 0x3D800000#32, 0x3D000000#32, 0#32, 0x3F000000#32, 15#32⟩
    = ⟨.decay, 0x3F800000#32, 0x3D800000#32, 0x3D000000#32, 0#32, 0x3F000000#32, 0#32⟩ := by decide +kernel
/-- 95 V6.1: SAT_SCALE and SAT_OFF. -/
theorem test_sat_constants : satScale Config.default = 0x414B3333#32 ∧ satOff Config.default = 0x427E0000#32 := by decide +kernel
/-- 95 V7.7: two draws from seed 1. -/
theorem test_xorshift : xorshift 1#32 = 0x00042021#32 ∧ xorshift 0x00042021#32 = 0x04080601#32 := by decide +kernel
/-- 95 V8.1: 0.0 to 1.0 in seven frames. -/
theorem test_ramp : ramp Config.default 0#32 0x3F800000#32 1 7 = 0x3E2AAAAB#32 ∧
    ramp Config.default 0#32 0x3F800000#32 5 7 = 0x3F555555#32 := by decide +kernel
/-- 95 V8.4: a NaN from the reverb unit makes a NaN sample, even at wet gain 0. -/
theorem test_render_nan : ((run { wet with ports := { wet.ports with rvRet := [[0x7FC00000#32, 0#32]] } }
    0x0800000100000000#64).ports.frameOut) = [[0x7FC00000#32, 0#32]] := by decide +kernel

/-- 70 R371: an active RENDER 4 abandoned after four transfers has emitted one frame and sent two; the rest is reset. -/
theorem test_reset_during_render :
    let t := nextOr ready (step (wet.setPorts { Ports.reset with rst := .highDuring 4, cmdIn := bytesOfCmd 0x0800000400000000#64 }))
    t.ports.frameOut.length = 1 ∧ t.ports.rvSend.length = 2 ∧ t.g = Global.reset Config.default ∧ t.ports.cmdIn = [] := by
  decide +kernel

/-- 70 R371: of twelve bytes, a whole word and half of one, a reset leaves the whole word; of seven it leaves none. -/
theorem test_reset_partial_word :
    let t := fun n => nextOr ready (step (ready.setPorts { Ports.reset with rst := .high, cmdIn := (List.range n).map (BitVec.ofNat 8 ·) }))
    (t 12).ports.cmdIn = (List.range 8).map (BitVec.ofNat 8 ·) ∧ (t 7).ports.cmdIn = [] ∧
    (t 16).ports.cmdIn.length = 16 := by decide +kernel
/-- 20 R84: a response, a frame and a return frame as bytes, least significant first. -/
theorem test_transport_bytes : respBytes (run State.reset 0x0327000000000000#64).ports = [0x05#8, 0x0A#8, 0x09#8, 0x01#8] ∧
    bytesOfFrames [[0x3F800000#32, 0xC0490FDB#32]] = [0x00#8, 0x00#8, 0x80#8, 0x3F#8, 0xDB#8, 0x0F#8, 0x49#8, 0xC0#8] ∧
    (offerReturn [0x00#8, 0x00#8, 0x80#8, 0x3F#8, 0xDB#8, 0x0F#8, 0x49#8, 0xC0#8] Ports.reset).rvRet =
      [[0x3F800000#32, 0xC0490FDB#32]] := by decide +kernel
/-- 44 R256 and 41 R150: oscillator 2 at modulation wheel 127, LFO value 1.0, `LFO_DEPTH` f32(0.02), base 100.0. -/
theorem test_lfo : (applyLfo (ready.setRegs { ready.regs with modWheel := 127#32 } |>.setG { ready.g with nyq := 0x46BB8000#32 })
    { Voice.reset with f2base := 0x42C80000#32, lfo := ⟨0#32, 0x3F800000#32⟩ }).osc2.freq = 0x42CC0000#32 := by decide +kernel
/-- 00 R13, log entry 17: the largest subnormal times `2^127` is just below 2; 43 R216's example at 48 kHz. -/
theorem test_floor_of_product : fFloorProd 0x007FFFFF#32 0x7F000000#32 = 1 ∧ fFloorProd 0x3D4CCCCD#32 0x473B8000#32 = 2400 := by
  decide +kernel
/-- 00 R11: the overflow that log entry 18 names, `0x7F7FFFFF` times 4.0. -/
theorem test_master_overflow : fmul Config.default 0x40800000#32 0x7F7FFFFF#32 = 0x7F800000#32 := by decide +kernel

/-! ### Witnesses: a state and operands that meet the hypotheses of an obligation, at the ends of their ranges -/

/-- The outcome of a command on a state is a next state: what `exec i s = .next t` asks. -/
theorem next_of_isNext {o : Host.Outcome State Fault Refusal} (h : isNext o = true) : ∃ t, o = .next t := by
  cases o <;> first | exact ⟨_, rfl⟩ | cases h

theorem test_witness_DecodeInvertsEncode : (Instr.noteOff 255 true 127).wellFormed = true ∧ (Instr.render 65535).wellFormed = true ∧
    (Instr.prepare 255 65535 0#32).wellFormed = true ∧ Instr.nop.wellFormed = true := by decide
theorem test_witness_OpcodeAloneSelectsCommand : decodeCmd 0x00FFFFFFFFFFFFFF#64 = .ok .nop ∧
    decodeCmd 0x08FF0002FFFFFFFF#64 = .ok (.render 2) ∧ 8 < (cmdOp 0x0900000000000000#64).toNat := by decide
theorem test_witness_StepRunsDecodedCommand : (offerCommand 0#64 State.reset).ports.rst = .low ∧
    decode (offerCommand 0#64 State.reset).ports.cmdIn = .ok (.nop, []) := by decide
theorem test_witness_ReservedOpcodeIsRecorded : (offerCommand 0x0900000000000000#64 State.reset).ports.rst = .low ∧
    (offerCommand 0x0900000000000000#64 State.reset).ports.cmdIn = bytesOfCmd 0x0900000000000000#64 ++ [] ∧
    8 < (cmdOp 0x0900000000000000#64).toNat := by decide
theorem test_witness_PartialWordIsNoCommand :
    let s := State.reset.setPorts { Ports.reset with cmdIn := List.replicate 7 0#8 }
    s.ports.rst = .low ∧ s.ports.cmdIn.length < 8 := by decide
theorem test_witness_ResetInputRestoresResetState :
    let s := State.reset.setPorts { Ports.reset with rst := .high, cmdIn := List.replicate 7 0#8 }
    let u := State.reset.setPorts { Ports.reset with rst := .high, cmdIn := List.replicate 8 0#8 }
    let w := State.reset.setPorts { Ports.reset with rst := .high, cmdIn := List.replicate 12 0#8 }
    (s.ports.rst = .high ∧ s.ports.cmdIn.length = 7) ∧ (u.ports.rst = .high ∧ u.ports.cmdIn.length = 8) ∧
    (w.ports.rst = .high ∧ w.ports.cmdIn.length = 12) := by decide
theorem test_witness_ResetDuringRenderKeepsEmittedFrames :
    let s := ready.setPorts { Ports.reset with rst := .highDuring 3, cmdIn := bytesOfCmd 0x0800000800000000#64 }
    s.ports.rst = .highDuring 3 ∧ decode s.ports.cmdIn = .ok (.render 8, []) ∧ s.g.prepared = true ∧
    8 ≤ s.g.maxBlock.toNat ∧ partnersAnswer s := ⟨rfl, by decide, rfl, by decide, rfl, rfl, rfl⟩
theorem test_witness_ResetRegisterValues : (0x40 ≤ (0x40#8).toNat ∧ (0x40#8).toNat < 0x40 + 8 * Config.default.nv) ∧
    (0x40 ≤ (0x67#8).toNat ∧ (0x67#8).toNat < 0x40 + 8 * Config.default.nv ∧ (0x67#8).toNat ≤ 0x7F) := by decide
theorem test_witness_ErrorActionKeepsFirstError : ready.g.err = false ∧ marked.g.err = true := by decide
theorem test_witness_CommandsRaiseOnlyListedErrors : isNext (exec .nop ready) = true ∧
    isNext (exec (.render 9) ready) = true := by decide +kernel
theorem test_witness_ErrorMarkIsSticky :
    let s := offerCommand 0#64 marked
    s.ports.rst = .low ∧ isNext (step s) = true ∧ s.g.err = true := by decide +kernel
theorem test_witness_RefusedCommands : State.reset.g.prepared = false ∧ (ready.g.prepared = true ∧ ready.cfg.nv ≤ 5) ∧
    (ready.g.prepared = true ∧ ready.g.maxBlock.toNat < 9) ∧
    fle ready.cfg 0x3F800000#32 0x3F7FFFFF#32 = false ∧ fle ready.cfg 0x7FC00000#32 ready.cfg.fsMax = false ∧
    ((3 : Nat) ≠ 1 ∧ (3 : Nat) ≠ 2) := by decide +kernel
theorem test_witness_NopDoesNothing : cmdOp 0x00FFFFFFFFFFFFFF#64 = 0x00#8 := by decide
/-- The lowest and the highest legal sample rate, block size and channel count. -/
theorem test_witness_PrepareSetsRates :
    (fle ready.cfg 0x3F800000#32 0x3F800000#32 = true ∧ fle ready.cfg 0x3F800000#32 ready.cfg.fsMax = true ∧ (1 : Nat) ≠ 0) ∧
    (fle ready.cfg 0x3F800000#32 0x48BB8000#32 = true ∧ fle ready.cfg 0x48BB8000#32 ready.cfg.fsMax = true ∧
      (65535 : Nat) < 65536) := by decide +kernel
theorem test_witness_PrepareBuildsTables : prepareLegal ready.cfg 2 512 0x473B8000#32 = true ∧
    isNext (exec (.prepare 2 512 0x473B8000#32) ready) = true ∧ ready.cfg.bandMax[0]? = some 0x429C4000#32 ∧
    ready.cfg.bandMax[8]? = some 0x469C4000#32 ∧ 1024 ≤ 2 ^ ready.cfg.tb := by decide +kernel
theorem test_witness_PrepareInitialisesVoices : prepareLegal ready.cfg 1 1 0x3F800000#32 = true ∧
    isNext (exec (.prepare 1 1 0x3F800000#32) ready) = true ∧ 4 < ready.cfg.nv := by decide +kernel
theorem test_witness_AddressMapIsTheSpecs : Config.default.nv ≤ 8 ∧ State.reset.cfg = Config.default ∧
    fIsFinite 0x7F7FFFFF#32 = true ∧ (4 < Config.default.nv ∧ (7 : Nat) < 8 ∧ (0x67#8).toNat = 0x40 + 8 * 4 + 7) ∧
    ParamReg.reverb ∈ [ParamReg.detune, .resonance, .sustain, .velEnvAmt, .reverb] ∧
    ParamReg.release ∈ [ParamReg.attack, .decay, .release] ∧ ParamReg.resEnvAmt ∈ [ParamReg.cutoffEnvAmt, .resEnvAmt] := by
  decide
/-- Values below the range, at its two ends, above it, and a zero; another register. -/
theorem test_witness_SetParamStoresClampedValue : legalConfig ready.cfg = true ∧ regOf ready.cfg 0x02#8 = some (.param .cutoff) ∧
    (fIsFinite 0x41A00000#32 = true ∧ fle ready.cfg (paramLo ready.cfg .cutoff) 0x41A00000#32 = true) ∧
    (fIsFinite 0x469C4000#32 = true ∧ fle ready.cfg 0x469C4000#32 (paramHi ready.cfg .cutoff) = true) ∧
    (fIsFinite 0x40A00000#32 = true ∧ fle ready.cfg (paramLo ready.cfg .cutoff) 0x40A00000#32 = false) ∧
    (fIsFinite 0x469C4001#32 = true ∧ fle ready.cfg 0x469C4001#32 (paramHi ready.cfg .cutoff) = false) ∧
    (regOf ready.cfg 0x07#8 = some (.param .sustain) ∧ fIsFinite 0x80000000#32 = true ∧
      fle ready.cfg (paramLo ready.cfg .sustain) 0x80000000#32 = true) ∧
    (ParamReg.cutoff ≠ .sustain) := by decide +kernel
theorem test_witness_SetParamIntegerRegisters : (1#32 : Word) ≠ 0#32 ∧ (0xFFFFFFFF#32 : Word) ≠ 0#32 := by decide
theorem test_witness_SetParamRefusals : (¬ ((0x0E#8).toNat ≤ 0x0D ∨ (0x0E#8).toNat = 0x10 ∨ (0x0E#8).toNat = 0x11)) ∧
    (¬ ((0x12#8).toNat ≤ 0x0D ∨ (0x12#8).toNat = 0x10 ∨ (0x12#8).toNat = 0x11)) ∧
    (1 ≤ (0x01#8).toNat ∧ (0x01#8).toNat ≤ 0x0D ∧ fIsFinite 0x7FC00000#32 = false) ∧
    (1 ≤ (0x0D#8).toNat ∧ (0x0D#8).toNat ≤ 0x0D ∧ fIsFinite 0x7F800000#32 = false) := by decide
theorem test_witness_SetParamLeavesOtherAddresses :
    let t := nextOr ready (exec (.setParam 0x02#8 0x447A0000#32) ready)
    isNext (exec (.setParam 0x02#8 0x447A0000#32) ready) = true ∧ t.g.errCount = ready.g.errCount ∧
    ready.g.errCount ≠ 0xFFFF#16 ∧ (0x03#8 : Byte) ≠ 0x02#8 ∧ (0x03#8 : Byte) ≠ 0x20#8 := by decide +kernel
theorem test_witness_ReadRegResponds : readReg ready 0x27#8 = some 0x01090A05#32 ∧ readReg ready 0x67#8 = some 0#32 ∧
    ready.ports.respCredit ≠ some 0 := by decide +kernel
theorem test_witness_ReadRegReservedAndStuck : (regOf ready.cfg 0x68#8 = none ∧ ready.ports.respCredit ≠ some 0) ∧
    regOf ready.cfg 0x12#8 = none ∧ regOf ready.cfg 0xFF#8 = none ∧
    (ready.setPorts { Ports.reset with respCredit := some 0 }).ports.respCredit = some 0 := by decide
theorem test_witness_StatusFields : (withVoice .playing .attack).voices.length = ready.cfg.nv ∧ ready.cfg.nv ≤ 8 ∧
    readReg (withVoice .playing .attack) 0x20#8 = some 0x00000101#32 := by decide +kernel
theorem test_witness_ConfigIdentifiesBuild : legalConfig ready.cfg = true ∧ isNext (step (offerCommand 0#64 ready)) = true := by
  decide +kernel
theorem test_witness_ReadbackFields : (0 < ready.cfg.nv ∧ (0x40#8 : Byte) = BitVec.ofNat 8 (0x40 + 8 * 0)) ∧
    (4 < ready.cfg.nv ∧ (4 : Nat) < 8 ∧ (0x60#8 : Byte) = BitVec.ofNat 8 (0x40 + 8 * 4)) := by decide
theorem test_witness_NoteOnStartsVoice : ready.g.prepared = true ∧ 4 < ready.cfg.nv ∧ 4 < ready.voices.length ∧
    127 < 128 ∧ 16383 < 16384 := by decide
theorem test_witness_NoteOnFrame : ready.g.prepared = true ∧ 0 < ready.cfg.nv ∧ isNext (exec (.noteOn 0 60 100 8192) ready) = true := by
  decide +kernel
/-- One voice in each lifecycle state the clauses name. -/
theorem test_witness_NoteOffReleasesVoice : ready.g.prepared = true ∧ 0 < ready.cfg.nv ∧ 0 < ready.voices.length ∧
    ((withVoice .playing .decay).voice 0).state = .playing ∧ ((withVoice .playing .decay).voice 0).env.stage ≠ .idle ∧
    ((withVoice .releasing .release).voice 0).state = .releasing ∧ (ready.voice 0).state = .idle ∧
    ((withVoice .playing .idle).voice 0).env.stage = .idle ∧ ((withVoice .fading .idle).voice 0).state = .fading := by decide
theorem test_witness_NoteOffKillsVoice : (withVoice .playing .sustain).g.prepared = true ∧ 0 < ready.cfg.nv ∧
    0 < (withVoice .playing .sustain).voices.length := by decide
theorem test_witness_PitchBendRetunesBusyVoices : 16383 < 16384 ∧ 0 < (withVoice .fading .idle).voices.length ∧
    ((withVoice .fading .idle).voice 0).state ≠ .idle ∧ ((withVoice .fading .idle).voice 1).state = .idle := by decide
theorem test_witness_ControllerSetsModWheel : 127 < 128 ∧ (1 : Nat) = 1 ∧ (7 : Nat) ≠ 1 := by decide
theorem test_witness_RenderEmitsFrames : ready.g.prepared = true ∧ 0 ≤ ready.g.maxBlock.toNat ∧ 8 ≤ ready.g.maxBlock.toNat ∧
    partnersAnswer ready := ⟨rfl, by decide, by decide, rfl, rfl, rfl⟩
theorem test_witness_RenderMovesLastGains : (ready.g.prepared = true ∧ 8 ≤ ready.g.maxBlock.toNat) ∧
    (isNext (exec (.render 1) ready) = true ∧ isNext (exec (.render 2) ready) = true ∧ reverbActive ready = false) ∧
    (wet.g.prepared = true ∧ isNext (exec (.render 2) wet) = true ∧ reverbActive wet = true) := by decide +kernel
theorem test_witness_RenderReverbTraffic : (isNext (exec (.render 3) ready) = true ∧ reverbActive ready = false) ∧
    (isNext (exec (.render 3) wet) = true ∧ reverbActive wet = true ∧ 3 ≤ wet.g.maxBlock.toNat) := by decide +kernel
/-- An inactive and an active block, of the longest length and of one frame. -/
theorem test_witness_RenderSamples : (ready.g.prepared = true ∧ 8 ≤ ready.g.maxBlock.toNat ∧ reverbActive ready = false ∧
    partnersAnswer ready ∧ 7 < 8) ∧
    (wet.g.prepared = true ∧ 1 ≤ wet.g.maxBlock.toNat ∧ reverbActive wet = true ∧ partnersAnswer wet) :=
  ⟨⟨rfl, by decide, by decide +kernel, ⟨rfl, rfl, rfl⟩, by decide⟩, rfl, by decide, by decide +kernel, rfl, rfl, rfl⟩
theorem test_witness_RenderWaitsForPartners :
    let s := ready.setPorts { Ports.reset with frameCredit := some 7 }
    let u := wet.setPorts { Ports.reset with rvCredit := some 0 }
    (s.g.prepared = true ∧ 8 ≤ s.g.maxBlock.toNat ∧ s.ports.frameCredit = some 7 ∧ s.ports.rvCredit = none) ∧
    (u.g.prepared = true ∧ reverbActive u = true ∧ u.ports.rvCredit = some 0 ∧ u.ports.frameCredit = none) := by
  decide +kernel
theorem test_witness_IdleVoiceIsNotRendered : isNext (exec (.render 2) ready) = true ∧ (ready.voice 4).state = .idle ∧
    Voice.reset.state = .idle := by decide +kernel
theorem test_witness_VoiceEvolvesAlone :
    let s := withVoice .playing .decay
    let u := s.setVoice 1 { Voice.reset with state := .fading, fade := 2#32 }
    u.cfg = s.cfg ∧ u.regs = s.regs ∧ u.g = s.g ∧ u.wt = s.wt ∧ 0 < s.voices.length ∧ 0 < u.voices.length ∧
    u.voice 0 = s.voice 0 ∧ u ≠ s ∧ isNext (exec (.render 2) s) = true ∧ isNext (exec (.render 2) u) = true := by decide +kernel
theorem test_witness_RenderSplitsKeepVoices : ready.g.prepared = true ∧ 3 + 5 ≤ ready.g.maxBlock.toNat ∧ partnersAnswer ready :=
  ⟨rfl, by decide, rfl, rfl, rfl⟩
theorem test_witness_RampMeetsBothEnds : 2 ≤ 65535 ∧ fIsFinite 0x3F800000#32 = true ∧ fIsFinite 0x40800000#32 = true ∧
    fIsFinite (fsub Config.default 0x40800000#32 0x3F800000#32) = true := by decide +kernel
theorem test_witness_LifecycleTransitions : isNext (exec (.noteOff 0 true 0) (withVoice .playing .decay)) = true ∧
    isNext (exec (.noteOff 4 false 0) ready) = true := by decide +kernel
theorem test_witness_FadeTimerEndsVoice : ((withVoice .fading .idle).voice 0).state = .fading ∧
    1 ≤ ((withVoice .fading .idle).voice 0).fade.toNat ∧ 2 < ((withVoice .fading .idle).voice 0).fade.toNat ∧
    ((withVoice .fading .idle).voice 0).fade.toNat ≤ 3 := by decide
theorem test_witness_SubBlockCounter : 1 ≤ ready.cfg.sub ∧ ready.cfg.sub ≤ 65535 ∧ Voice.reset.sbc = 0#32 ∧
    { Voice.reset with sbc := 1#32 }.sbc ≠ 0#32 := by decide
theorem test_witness_ControlUpdateEffects :
    ((withVoice .releasing .release).voice 0).state = .releasing ∧
    (controlUpdate (withVoice .releasing .idle) ((withVoice .releasing .idle).voice 0)).env.stage = .idle ∧
    ¬ (((withVoice .playing .idle).voice 0).state = .releasing) := by decide +kernel
/-- Requests at both ends of the range, below it and above it. -/
theorem test_witness_FrequencyIsClamped : fle p1.cfg 0#32 p1.g.nyq = true ∧ p1.cfg.nb ≤ 16 ∧
    (fle p1.cfg 0#32 0#32 = true ∧ fle p1.cfg p1.g.nyq p1.g.nyq = true) ∧ fle p1.cfg 0#32 0xBF800000#32 = false ∧
    (fle p1.cfg 0#32 0x46EA6000#32 = true ∧ fle p1.cfg 0x46EA6000#32 p1.g.nyq = false) ∧
    fle p1.cfg p1.g.nyq 0x46EA6000#32 = true := by decide +kernel
theorem test_witness_BandSelectionIsFirstAndMonotone : 1 ≤ Config.default.nb ∧
    2 < bandSelect Config.default 0x43DC0000#32 ∧ fle Config.default 0x43DC0000#32 0x46BB8000#32 = true := by decide +kernel
theorem test_witness_SmootherReachesTarget : feq Config.default 0x3F800000#32 Smoother.reset.tgt = false ∧
    feq Config.default 0x80000000#32 Smoother.reset.tgt = true ∧ Smoother.reset.len = 0#32 ∧
    { Smoother.reset with len := 1#32 }.len ≠ 0#32 ∧ 2 + 1 < ({ Smoother.reset with len := 4#32 }.len).toNat ∧
    ({ Smoother.reset with len := 4#32 }.len).toNat ≤ 3 + 1 := by decide +kernel
/-- ATTACK to SUSTAIN and to DECAY, DECAY and RELEASE at their ends, and a saturated tick counter. -/
theorem test_witness_EnvelopeTickTransitions :
    (envTick Config.default ⟨.attack, 0x3F700000#32, 0x3D800000#32, 0#32, 0#32, 0#32, 0#32⟩).stage = .sustain ∧
    (envTick Config.default ⟨.attack, 0x3F700000#32, 0x3D800000#32, 0x3D800000#32, 0#32, 0#32, 0#32⟩).stage = .decay ∧
    (envTick Config.default ⟨.decay, 0x3F000000#32, 0#32, 0x3D800000#32, 0#32, 0x3F000000#32, 0#32⟩).stage = .sustain ∧
    (envTick Config.default ⟨.release, 0x3D800000#32, 0#32, 0#32, 0x3D800000#32, 0#32, 0#32⟩).stage = .idle ∧
    (envTick Config.default ⟨.attack, 0#32, 0x3D800000#32, 0#32, 0#32, 0#32, 0xFFFFFFFF#32⟩).stage = .attack := by
  decide +kernel
theorem test_witness_EnvelopeLevelStaysInUnitRange : within 0#32 0x3F800000#32 0x3F800000#32 = true ∧
    within 0#32 0#32 0x3F800000#32 = true ∧ fLeRaw 0#32 0x3D800000#32 = true ∧ fLeRaw 0#32 0#32 = true := by decide
theorem test_witness_DisabledFilterPassesThrough :
    (ready.setRegs { ready.regs with ctrl := 0#32 }).regs.ctrl.getLsbD 0 = false := by decide
theorem test_witness_AmountMappingExactCases : (127 < 128) ∧ (within 0#32 0#32 0x3F800000#32 = true ∧ (0#32 : F32) ≠ 0x80000000#32 ∧
    fIsSubnormal 0#32 = false) ∧ (within 0#32 0x3F800000#32 0x3F800000#32 = true ∧ fIsSubnormal 0x3F800000#32 = false) := by decide
/-- A finite sum, an overflowing one, and operands of each form. -/
theorem test_witness_AdditionRoundsToNearestEven : Config.default.ftz = false ∧ fIsFinite 0x7F7FFFFF#32 = true ∧
    fIsFinite 0x73000000#32 = true ∧ fIsInf (fadd Config.default 0x7F7FFFFF#32 0x73000000#32) = true ∧
    fIsInf (fsub Config.default 0x7F7FFFFF#32 0x73000000#32) = false := by decide +kernel
theorem test_witness_ProductAndQuotientRoundToNearestEven : Config.default.ftz = false ∧ fIsFinite 0x00000001#32 = true ∧
    fIsInf (fmul Config.default 0x00000001#32 0x3F000000#32) = false ∧ fIsZero 0x3F000000#32 = false ∧
    fIsInf (fdiv Config.default 0x00000001#32 0x3F000000#32) = false ∧
    fIsInf (fmul Config.default 0x7F7FFFFF#32 0x40000000#32) = true ∧
    fIsInf (fdiv Config.default 0x7F7FFFFF#32 0x3F000000#32) = true := by decide +kernel
theorem test_witness_InvariantHoldsAtReset : legalConfig Config.default = true := by decide +kernel
/-- The reset state with a NOP offered meets the invariant, and its step gives a next state. -/
theorem test_witness_EveryStepKeepsInvariant : ∃ s t : State, Inv s ∧ step s = .next t := by
  obtain ⟨t, ht⟩ := next_of_isNext (show isNext (step (offerCommand 0#64 State.reset)) = true by decide +kernel)
  refine ⟨_, t, ?_, ht⟩
  constructor
  · decide +kernel
  · decide
  · refine ⟨fun p => ?_, by decide, by decide, by decide, by decide⟩
    cases p <;> exact ⟨by decide +kernel, by decide +kernel, by decide +kernel, by decide⟩
  · decide
  · intro V hV
    rw [(List.mem_replicate.mp hV).2]
    exact ⟨rfl, by decide, by decide, by decide⟩
  · exact ⟨fun _ => ⟨rfl, rfl, rfl⟩, fun h => by cases h⟩
  · intro h; cases h
  · intro _ V hV
    rw [(List.mem_replicate.mp hV).2]; rfl
  · show _ = _
    decide +kernel

end Sys2Proof.Tests
end

section
/-! PROOFS. CONFIG (spec 10 R44): the fields of its word, and that no step changes the parameters it shows. -/

namespace Sys2Proof.Machine

/-! ### No step changes the parameters (00 R7)

A reset during a command (70 R371) keeps what the command has done at its ports, even where it got stuck there, so the port
operations come first, for whatever state they have reached. -/

@[simp] theorem respond_state_cfg (r : Word) (s : State) : (respond r s).state.cfg = s.cfg := by
  unfold respond
  split <;> rfl

@[simp] theorem emit_state_cfg (y : List F32) (s : State) : (emit y s).state.cfg = s.cfg := by
  unfold emit
  split <;> rfl

@[simp] theorem renderFrame_state_cfg (b : Block) (i : Nat) (s : State) : (renderFrame b i s).state.cfg = s.cfg := by
  simp only [renderFrame]
  split
  · split
    · rfl
    · simp
  · simp

@[simp] theorem renderFrames_state_cfg (b : Block) (k i : Nat) (s : State) :
    (renderFrames b k i s).state.cfg = s.cfg := by
  induction k generalizing i s with
  | zero => rfl
  | succ k ih =>
    have hframe := renderFrame_state_cfg b i s
    simp only [renderFrames]
    cases hr : renderFrame b i s with
    | stuck f u => simpa only [hr] using hframe
    | done u =>
      rw [hr] at hframe
      exact (ih (i + 1) u).trans hframe

@[simp] theorem partialFrame_cfg (k : Nat) (s : State) : (partialFrame k s).cfg = s.cfg := by
  unfold partialFrame
  split
  · rfl
  · dsimp only
    split <;> rfl

@[simp] theorem partialRender_cfg (k n : Nat) (s : State) : (partialRender k n s).cfg = s.cfg := by
  simp only [partialRender]
  split
  · have hframes := renderFrames_state_cfg (openBlock n s) (min (k / transfersPerFrame (openBlock n s)) n) 0 s
    split <;> rename_i u hu <;> rw [hu] at hframes
    · exact hframes
    · split
      · exact (partialFrame_cfg _ u).trans hframes
      · exact hframes
  · rfl

@[simp] theorem partialRead_cfg (k : Nat) (a : Byte) (s : State) : (partialRead k a s).cfg = s.cfg := by
  unfold partialRead
  split
  · rfl
  · simp

/-- Taking a command word from the port leaves the parameters. -/
theorem fetch_cfg {w : Cmd} {s t : State} (h : fetch s = some (w, t)) : t.cfg = s.cfg := by
  unfold fetch at h
  split at h
  · cases h; rfl
  · cases h

@[simp] theorem abandonedCommand_cfg (k : Nat) (s : State) : (abandonedCommand k s).cfg = s.cfg := by
  unfold abandonedCommand
  split
  · rfl
  · rename_i w u hu
    have hfetch := fetch_cfg hu
    split <;> simp [hfetch]

@[simp] theorem resetState_cfg (s : State) : (resetState s).cfg = s.cfg := rfl

/-- A register write leaves the parameters. -/
theorem writeReg_cfg {r : Option Reg} {d : Word} {s t : State} (h : writeReg s r d = .ok t) : t.cfg = s.cfg := by
  rcases writeReg_cases s r d with hw | hw | ⟨regs, hw⟩ | ⟨rng, -, hw⟩ <;> rw [hw] at h <;> cases h <;> rfl

/-- A completed command leaves the parameters. -/
theorem exec_cfg {i : Instr} {s t : State} (h : exec i s = .next t) : t.cfg = s.cfg := by
  cases i with
  | nop => cases h; rfl
  | prepare nch mb fs =>
    obtain ⟨-, rfl⟩ | ⟨-, rfl⟩ := exec_prepare_next h <;> rfl
  | setParam a d =>
    obtain hw | rfl | rfl := exec_setParam_next h
    · exact writeReg_cfg hw
    · rfl
    · rfl
  | readReg a =>
    obtain ⟨r, cr, -, ⟨-, rfl⟩ | ⟨-, -, rfl⟩⟩ := exec_readReg_next h <;> rfl
  | noteOn v note vel wheel =>
    obtain ⟨-, rfl⟩ | ⟨-, -, rfl⟩ | ⟨-, -, rfl⟩ := exec_noteOn_next h <;> rfl
  | noteOff v tail relVel =>
    obtain ⟨-, rfl⟩ | ⟨-, -, rfl⟩ | ⟨-, -, rfl⟩ := exec_noteOff_next h <;> rfl
  | pitchBend wheel => cases h; rfl
  | controller cc val =>
    simp only [exec, execController] at h
    split at h <;> cases h <;> rfl
  | render n =>
    obtain ⟨-, rfl⟩ | ⟨-, -, rfl⟩ | ⟨-, -, rfl⟩ | ⟨-, -, -, u, -, hrun, rfl⟩ := exec_render_next h
    · rfl
    · rfl
    · rfl
    · exact (closeBlock_frame _ u).1.trans hrun.cfg

/-- A command word taken and executed, or recorded as illegal, leaves the parameters. -/
theorem stepCommand_cfg {s t : State} (h : stepCommand s = .next t) : t.cfg = s.cfg := by
  unfold stepCommand at h
  split at h
  · cases h
  · rename_i w u hu
    have hfetch := fetch_cfg hu
    split at h
    · exact (exec_cfg h).trans hfetch
    · cases h; exact hfetch

/-- No step changes the parameters, a reset included (00 R7). -/
theorem step_cfg {s t : State} (h : step s = .next t) : t.cfg = s.cfg := by
  unfold step at h
  split at h
  · exact stepCommand_cfg h
  · cases h; rfl
  · cases h; simp

/-! ### The register CONFIG -/

/-- CONFIG shows the parameters alone. -/
@[simp] theorem readReg_config (s : State) : readReg s 0x27#8 = some (configWord s.cfg) := rfl

theorem configWord_nv (c : Config) : (configWord c).extractLsb' 0 8 = BitVec.ofNat 8 c.nv :=
  BitVec.extractLsb'_append_eq_right

theorem configWord_tb (c : Config) : (configWord c).extractLsb' 8 8 = BitVec.ofNat 8 c.tb :=
  (BitVec.extractLsb'_append_eq_of_le (by decide)).trans BitVec.extractLsb'_append_eq_right

theorem configWord_nb (c : Config) : (configWord c).extractLsb' 16 8 = BitVec.ofNat 8 c.nb :=
  (BitVec.extractLsb'_append_eq_of_le (by decide)).trans <|
    (BitVec.extractLsb'_append_eq_of_le (by decide)).trans BitVec.extractLsb'_append_eq_right

theorem configWord_version (c : Config) : (configWord c).extractLsb' 24 8 = 1#8 :=
  (BitVec.extractLsb'_append_eq_of_le (by decide)).trans <|
    (BitVec.extractLsb'_append_eq_of_le (by decide)).trans BitVec.extractLsb'_append_eq_left

/-- The parameters CONFIG shows fit their bytes in a legal build (00 R7). -/
theorem legalConfig_bytes {c : Config} (h : legalConfig c = true) : c.nv < 256 ∧ c.tb < 256 ∧ c.nb < 256 := by
  simp only [legalConfig, Bool.and_eq_true, decide_eq_true_eq] at h
  omega

/-- The write of CONFIG is refused (46 R303). -/
theorem exec_setParam_config (s : State) (d : Word) :
    exec (.setParam 0x27#8 d) s = .next (raiseError .badAddr 0x02#8 s) := rfl

/-- Settles O26: the word's fields byte by byte, its constancy from `step_cfg`, its refusal from the write of its address. -/
theorem configIdentifiesBuild : Obligations.ConfigIdentifiesBuild := by
  unfold Obligations.ConfigIdentifiesBuild
  refine ⟨fun s hlegal => ?_, fun s t hstep => ?_, exec_setParam_config⟩
  · obtain ⟨hnv, htb, hnb⟩ := legalConfig_bytes hlegal
    refine ⟨configWord s.cfg, readReg_config s, ?_, ?_, ?_, ?_⟩
    · rw [configWord_nv, BitVec.toNat_ofNat, Nat.mod_eq_of_lt hnv]
    · rw [configWord_tb, BitVec.toNat_ofNat, Nat.mod_eq_of_lt htb]
    · rw [configWord_nb, BitVec.toNat_ofNat, Nat.mod_eq_of_lt hnb]
    · rw [configWord_version]; rfl
  · have hcfg := step_cfg hstep
    exact ⟨hcfg, by rw [readReg_config, readReg_config, hcfg]⟩

end Sys2Proof.Machine
end

section
/-! PROOFS. The decoder of command words (spec 30 R101, R104, R105): its rows one by one, that the opcode alone selects the row,
and that no other bit than those of the row is read. -/

namespace Sys2Proof

/-! ### The fields of a masked word (30 R100) -/

section Masks
variable {w m : Cmd}

/-- A mask with every bit of a field set keeps the field. -/
theorem extractLsb'_and_of_ones {n start len : Nat} {x y : BitVec n} (h : y.extractLsb' start len = BitVec.allOnes len) :
    (x &&& y).extractLsb' start len = x.extractLsb' start len := by
  rw [BitVec.extractLsb'_and, h, BitVec.and_allOnes]

/-- A mask with a bit set keeps the bit. -/
theorem getLsbD_and_of_one {n i : Nat} {x y : BitVec n} (h : y.getLsbD i = true) : (x &&& y).getLsbD i = x.getLsbD i := by
  rw [BitVec.getLsbD_and, h, Bool.and_true]

theorem cmdA_and : cmdA (w &&& m) = cmdA w &&& cmdA m := BitVec.extractLsb'_and
theorem cmdB_and : cmdB (w &&& m) = cmdB w &&& cmdB m := BitVec.extractLsb'_and
theorem cmdD_and : cmdD (w &&& m) = cmdD w &&& cmdD m := BitVec.extractLsb'_and

theorem cmdOp_and_of_ones (h : cmdOp m = BitVec.allOnes 8) : cmdOp (w &&& m) = cmdOp w := extractLsb'_and_of_ones h
theorem cmdA_and_of_ones (h : cmdA m = BitVec.allOnes 8) : cmdA (w &&& m) = cmdA w := extractLsb'_and_of_ones h
theorem cmdB_and_of_ones (h : cmdB m = BitVec.allOnes 16) : cmdB (w &&& m) = cmdB w := extractLsb'_and_of_ones h
theorem cmdD_and_of_ones (h : cmdD m = BitVec.allOnes 32) : cmdD (w &&& m) = cmdD w := extractLsb'_and_of_ones h

end Masks

/-! ### The opcode (30 R104) -/

/-- The opcode is the top byte of the word as a number. -/
theorem cmdOp_toNat (w : Cmd) : (cmdOp w).toNat = w.toNat / 2 ^ 56 := by
  have := w.isLt
  rw [cmdOp, BitVec.extractLsb'_toNat, Nat.shiftRight_eq_div_pow]
  omega

/-- The `mask` of 30 R104 keeps the opcode byte in its place. -/
theorem and_opcodeMask_toNat (w : Cmd) : (w &&& 0xFF00000000000000#64).toNat = (cmdOp w).toNat * 2 ^ 56 := by
  have hmask : 0xFF00000000000000#64 = BitVec.allOnes 64 <<< 56 := rfl
  rw [hmask, ← BitVec.shiftLeft_ushiftRight, cmdOp_toNat, BitVec.toNat_shiftLeft, BitVec.toNat_ushiftRight]
  have := w.isLt
  omega

/-- A word matches the row of opcode `k` exactly when its opcode is `k` (30 R104). -/
theorem matches_row_iff (w : Cmd) {k : Nat} (hk : k ≤ 8) :
    w &&& 0xFF00000000000000#64 = BitVec.ofNat 64 (k * 2 ^ 56) ↔ (cmdOp w).toNat = k := by
  rw [← BitVec.toNat_inj, and_opcodeMask_toNat, BitVec.toNat_ofNat]
  omega

/-- The opcodes of the nine rows. -/
theorem opcode_cases {op : Byte} (h : op.toNat ≤ 8) :
    op = 0x00#8 ∨ op = 0x01#8 ∨ op = 0x02#8 ∨ op = 0x03#8 ∨ op = 0x04#8 ∨ op = 0x05#8 ∨ op = 0x06#8 ∨ op = 0x07#8 ∨
    op = 0x08#8 := by
  bv_omega

/-! ### The rows (30 R101) -/

section Rows
variable {w : Cmd}

theorem decodeCmd_nop (h : cmdOp w = 0x00#8) : decodeCmd w = .ok .nop := by
  simp [decodeCmd, h]

theorem decodeCmd_prepare (h : cmdOp w = 0x01#8) :
    decodeCmd w = .ok (.prepare (cmdA w).toNat (cmdB w).toNat (cmdD w)) := by
  simp [decodeCmd, h]

theorem decodeCmd_setParam (h : cmdOp w = 0x02#8) : decodeCmd w = .ok (.setParam (cmdA w) (cmdD w)) := by
  simp [decodeCmd, h]

theorem decodeCmd_readReg (h : cmdOp w = 0x03#8) : decodeCmd w = .ok (.readReg (cmdA w)) := by
  simp [decodeCmd, h]

theorem decodeCmd_noteOn (h : cmdOp w = 0x04#8) :
    decodeCmd w = .ok (.noteOn (cmdA w).toNat ((cmdB w).extractLsb' 0 7).toNat ((cmdB w).extractLsb' 8 7).toNat
      ((cmdD w).extractLsb' 0 14).toNat) := by
  simp [decodeCmd, h]

theorem decodeCmd_noteOff (h : cmdOp w = 0x05#8) :
    decodeCmd w = .ok (.noteOff (cmdA w).toNat ((cmdB w).getLsbD 0) ((cmdB w).extractLsb' 8 7).toNat) := by
  simp [decodeCmd, h]

theorem decodeCmd_pitchBend (h : cmdOp w = 0x06#8) :
    decodeCmd w = .ok (.pitchBend ((cmdD w).extractLsb' 0 14).toNat) := by
  simp [decodeCmd, h]

theorem decodeCmd_controller (h : cmdOp w = 0x07#8) :
    decodeCmd w = .ok (.controller ((cmdA w).extractLsb' 0 7).toNat ((cmdD w).extractLsb' 0 7).toNat) := by
  simp [decodeCmd, h]

theorem decodeCmd_render (h : cmdOp w = 0x08#8) : decodeCmd w = .ok (.render (cmdB w).toNat) := by
  simp [decodeCmd, h]

/-- A word that matches no row is refused under its opcode (30 R105). -/
theorem decodeCmd_reserved (h : 8 < (cmdOp w).toNat) : decodeCmd w = .error (.illegalOpcode (cmdOp w)) := by
  unfold decodeCmd
  split
  case h_10 => rfl
  all_goals omega

/-- A field read as a number fits its width, with the bound written out as `Instr.wellFormed` writes it (30 R102). -/
theorem toNat_lt_of_width {n bound : Nat} (x : BitVec n) (h : bound = 2 ^ n) : x.toNat < bound := h ▸ x.isLt

/-- A word with an opcode of the table is a command with that opcode, and its operands fit their fields. -/
theorem decodeCmd_row (h : (cmdOp w).toNat ≤ 8) :
    ∃ i, decodeCmd w = .ok i ∧ i.opcode = cmdOp w ∧ i.wellFormed = true := by
  obtain h | h | h | h | h | h | h | h | h := opcode_cases h
  · exact ⟨_, decodeCmd_nop h, h.symm, rfl⟩
  · exact ⟨_, decodeCmd_prepare h, h.symm, by simp [Instr.wellFormed, toNat_lt_of_width]⟩
  · exact ⟨_, decodeCmd_setParam h, h.symm, rfl⟩
  · exact ⟨_, decodeCmd_readReg h, h.symm, rfl⟩
  · exact ⟨_, decodeCmd_noteOn h, h.symm, by simp [Instr.wellFormed, toNat_lt_of_width, Nat.mod_lt]⟩
  · exact ⟨_, decodeCmd_noteOff h, h.symm, by simp [Instr.wellFormed, toNat_lt_of_width, Nat.mod_lt]⟩
  · exact ⟨_, decodeCmd_pitchBend h, h.symm, by simp [Instr.wellFormed, Nat.mod_lt]⟩
  · exact ⟨_, decodeCmd_controller h, h.symm, by simp [Instr.wellFormed, Nat.mod_lt]⟩
  · exact ⟨_, decodeCmd_render h, h.symm, by simp [Instr.wellFormed, toNat_lt_of_width]⟩

/-- A decoded command has the word's opcode, which is one of the table, and its operands fit their fields. -/
theorem decodeCmd_ok {i : Instr} (hi : decodeCmd w = .ok i) :
    (cmdOp w).toNat ≤ 8 ∧ i.opcode = cmdOp w ∧ i.wellFormed = true := by
  by_cases h : (cmdOp w).toNat ≤ 8
  · obtain ⟨j, hj, hop, hwf⟩ := decodeCmd_row h
    cases hi.symm.trans hj
    exact ⟨h, hop, hwf⟩
  · rw [decodeCmd_reserved (by omega)] at hi
    cases hi

end Rows

/-- Settles O3: a word matches the row of its opcode alone, and by `decodeCmd_row` that row's command is read from it. -/
theorem opcodeAloneSelectsCommand : Obligations.OpcodeAloneSelectsCommand := by
  unfold Obligations.OpcodeAloneSelectsCommand
  refine fun w => ⟨fun k hk => ?_, fun hle => ?_, fun i hi => ?_, decodeCmd_reserved⟩
  · rw [matches_row_iff w hk]
    constructor
    · rintro rfl
      obtain ⟨i, hi, hop, -⟩ := decodeCmd_row hk
      exact ⟨i, hi, by rw [hop]⟩
    · rintro ⟨i, hi, rfl⟩
      obtain ⟨-, hop, -⟩ := decodeCmd_ok hi
      rw [hop]
  · refine ⟨(cmdOp w).toNat, ⟨hle, (matches_row_iff w hle).mpr rfl⟩, fun k ⟨hk, hmatch⟩ => ?_⟩
    exact ((matches_row_iff w hk).mp hmatch).symm
  · obtain ⟨-, hop, hwf⟩ := decodeCmd_ok hi
    exact ⟨hwf, hop⟩

/-! ### Ignored bits and reserved opcodes (30 R101, R105) -/

namespace Machine

/-- The opcode byte is used by every row. -/
theorem cmdOp_usedBits (op : Byte) : cmdOp (usedBits op) = BitVec.allOnes 8 := by
  unfold usedBits
  split <;> rfl

/-- For a reserved opcode no bit counts as ignored. -/
theorem usedBits_reserved {op : Byte} (h : 8 < op.toNat) : usedBits op = BitVec.allOnes 64 := by
  unfold usedBits
  split
  case h_10 => rfl
  all_goals omega

/-- What is decoded is read from the used bits alone. -/
theorem decodeCmd_and_usedBits (w : Cmd) : decodeCmd (w &&& usedBits (cmdOp w)) = decodeCmd w := by
  have hop : cmdOp (w &&& usedBits (cmdOp w)) = cmdOp w := cmdOp_and_of_ones (cmdOp_usedBits _)
  by_cases hle : (cmdOp w).toNat ≤ 8
  · obtain h | h | h | h | h | h | h | h | h := opcode_cases hle
    · rw [decodeCmd_nop h, decodeCmd_nop (hop.trans h)]
    · rw [decodeCmd_prepare h, decodeCmd_prepare (hop.trans h)]
      simp (disch := decide) only [h, cmdA_and_of_ones, cmdB_and_of_ones, cmdD_and_of_ones]
    · rw [decodeCmd_setParam h, decodeCmd_setParam (hop.trans h)]
      simp (disch := decide) only [h, cmdA_and_of_ones, cmdD_and_of_ones]
    · rw [decodeCmd_readReg h, decodeCmd_readReg (hop.trans h)]
      simp (disch := decide) only [h, cmdA_and_of_ones]
    · rw [decodeCmd_noteOn h, decodeCmd_noteOn (hop.trans h)]
      simp (disch := decide) only [h, cmdA_and_of_ones, cmdB_and, cmdD_and, extractLsb'_and_of_ones]
    · rw [decodeCmd_noteOff h, decodeCmd_noteOff (hop.trans h)]
      simp (disch := decide) only [h, cmdA_and_of_ones, cmdB_and, extractLsb'_and_of_ones, getLsbD_and_of_one]
    · rw [decodeCmd_pitchBend h, decodeCmd_pitchBend (hop.trans h)]
      simp (disch := decide) only [h, cmdD_and, extractLsb'_and_of_ones]
    · rw [decodeCmd_controller h, decodeCmd_controller (hop.trans h)]
      simp (disch := decide) only [h, cmdA_and, cmdD_and, extractLsb'_and_of_ones]
    · rw [decodeCmd_render h, decodeCmd_render (hop.trans h)]
      simp (disch := decide) only [h, cmdB_and_of_ones]
  · rw [usedBits_reserved (by omega), BitVec.and_allOnes]

/-- A command word at the head of the port is taken with its eight bytes (20 R84). -/
theorem fetch_bytesOfCmd {s : State} {w : Cmd} {rest : List Byte} (h : s.ports.cmdIn = bytesOfCmd w ++ rest) :
    fetch s = some (w, setCmdIn rest s) := by
  simp [fetch, h, takeCommand_bytesOfCmd]

/-- With reset low a step is one command (46 R300). -/
theorem step_of_low {s : State} (h : s.ports.rst = .low) : step s = stepCommand s := by
  simp [step, h]

/-- A word that does not decode is taken and recorded (30 R105). -/
theorem stepCommand_of_error {s s' : State} {w : Cmd} {e : DecodeError} (hf : fetch s = some (w, s'))
    (hd : decodeCmd w = .error e) : stepCommand s = .next (illegalWord w s') := by
  simp [stepCommand, hf, hd]

/-- Settles O5: the word is taken by `fetch_bytesOfCmd`, refused by `decodeCmd_reserved`; ignored bits by row. -/
theorem reservedOpcodeIsRecorded : Obligations.ReservedOpcodeIsRecorded := by
  unfold Obligations.ReservedOpcodeIsRecorded
  refine ⟨fun s w rest hlow hport hres => ?_, decodeCmd_and_usedBits⟩
  rw [step_of_low hlow, stepCommand_of_error (fetch_bytesOfCmd hport) (decodeCmd_reserved hres), illegalWord]

end Machine

end Sys2Proof
end

section
/-! PROOFS. The filter switched off by FILTER_EN (spec 43 R220). -/

namespace Sys2Proof.Machine

/-- 43 R220: a disabled filter passes its input and keeps its state. -/
theorem filterSample_of_disabled {s : State} (h : s.regs.ctrl.getLsbD 0 = false) (D : Drive) (F : Filter) (x : F32) :
    filterSample s D F x = (x, F) := by
  simp only [filterSample, h, Bool.false_eq_true, if_false]

/-- A fade step leaves the filter (44 R253). -/
@[simp] theorem fadeStep_flt (V : Voice) : (fadeStep V).flt = V.flt := by
  obtain ⟨-, h⟩ | ⟨-, -, h⟩ | ⟨-, -, h⟩ := fadeStep_cases V <;> rw [h]

/-- The signal chain changes the filter only by its one `filterSample`, on the sum of the two oscillators (44 R252). -/
theorem voiceChain_flt (s : State) (V : Voice) :
    (voiceChain s V).2.flt =
      (filterSample s V.drive V.flt (fadd s.cfg (oscSample s V.wave V.osc1).1 (oscSample s V.wave V.osc2).1)).2 :=
  fadeStep_flt _

/-- Settles O53: the filter by its disabled branch, and the chain because only that filter call reaches the filter's state. -/
theorem disabledFilterPassesThrough : Obligations.DisabledFilterPassesThrough := by
  unfold Obligations.DisabledFilterPassesThrough
  refine fun s V h => ⟨filterSample_of_disabled h V.drive, ?_⟩
  rw [voiceChain_flt, filterSample_of_disabled h]

end Sys2Proof.Machine
end

section
/-! PROOFS. A voice in state IDLE is not rendered (spec 44 R254): no frame changes it and it adds nothing to the mix (45 R281). -/

namespace Sys2Proof.Machine

/-- A voice is busy unless it is IDLE (44 R240). -/
theorem busy_of_idle {V : Voice} (h : V.state = .idle) : V.busy = false := by
  simp [Voice.busy, h]

/-- A frame leaves an idle voice (45 R280). -/
theorem voiceFrame_of_idle {V : Voice} (s : State) (h : V.state = .idle) : voiceFrame s V = V := by
  simp [voiceFrame, busy_of_idle h]

/-- Any number of frames leaves an idle voice. -/
theorem voiceRun_of_idle {V : Voice} (s : State) (k : Nat) (h : V.state = .idle) : voiceRun s k V = V := by
  induction k with
  | zero => rfl
  | succ k ih => rw [voiceRun_succ, voiceFrame_of_idle s h, ih]

/-- A RENDER that gives a next state has run every voice through the same number of frames: 0 when it is refused or empty, its
length otherwise. -/
theorem exec_render_voices {n : Nat} {s t : State} (h : exec (.render n) s = .next t) :
    ∃ k, t.voices = s.voices.map (voiceRun s k) := by
  have unchanged : s.voices = s.voices.map (voiceRun s 0) := (List.map_id _).symm
  obtain ⟨-, rfl⟩ | ⟨-, -, rfl⟩ | ⟨-, -, rfl⟩ | ⟨-, -, -, u, -, hrun, rfl⟩ := exec_render_next h
  · exact ⟨0, unchanged⟩
  · exact ⟨0, unchanged⟩
  · exact ⟨0, unchanged⟩
  · obtain ⟨-, -, -, hvoices, -, -⟩ := closeBlock_frame (openBlock n s) u
    exact ⟨n, hvoices.trans hrun.voices⟩

/-- What `exec_render_voices` says of one voice; past the pool the reset voice, which is idle, stays. -/
theorem exec_render_voice {n : Nat} {s t : State} (h : exec (.render n) s = .next t) (v : Nat) :
    ∃ k, t.voice v = voiceRun s k (s.voice v) := by
  obtain ⟨k, hk⟩ := exec_render_voices h
  refine ⟨k, ?_⟩
  rw [State.voice, hk, voice_map s _ (voiceRun_of_idle s k rfl)]

/-- The sum over a list of voices passes over an idle voice, wherever it stands (45 R281). -/
theorem sumVoices_append_idle_cons {V : Voice} (s : State) (acc : F32) (vs us : List Voice) (h : V.state = .idle) :
    (sumVoices s acc (vs ++ V :: us)).1 = (sumVoices s acc (vs ++ us)).1 := by
  simp only [sumVoices_sum, List.foldl_append, List.foldl_cons, h, if_true]

/-- Settles O39: a RENDER runs each voice by `voiceRun`, which an idle voice is fixed by; the sum folds past an idle voice. -/
theorem idleVoiceIsNotRendered : Obligations.IdleVoiceIsNotRendered := by
  unfold Obligations.IdleVoiceIsNotRendered
  refine ⟨fun s t n v hnext hidle => ?_, fun s acc V vs us hidle => sumVoices_append_idle_cons s acc vs us hidle⟩
  obtain ⟨k, hk⟩ := exec_render_voice hnext v
  rw [hk, voiceRun_of_idle s k hidle]

end Sys2Proof.Machine
end

section
/-! PROOFS. NOP (spec 46 R301): it changes no part of the state, and the opcode byte alone makes a word a NOP. -/

namespace Sys2Proof.Machine

/-- NOP answers the state it was given (46 R301). -/
@[simp] theorem exec_nop (s : State) : exec .nop s = .next s := rfl

/-- Settles O14: NOP by its arm, `exec_nop`; the words of opcode 0 by the decoder's first row, `decodeCmd_nop`. -/
theorem nopDoesNothing : Obligations.NopDoesNothing := by
  unfold Obligations.NopDoesNothing
  exact ⟨exec_nop, fun _ hop => decodeCmd_nop hop⟩

end Sys2Proof.Machine
end

section
/-! PROOFS. The encoder (spec 30 R100, R108): the fields of an encoded word are those it was made of, so decoding gives the command
back. -/

namespace Sys2Proof

/-! ### The fields of a made word (30 R100) -/

section Fields
variable (op a : Byte) (b : BitVec 16) (d : Word)

theorem cmdA_mkCmd : cmdA (mkCmd op a b d) = a :=
  (BitVec.extractLsb'_append_eq_of_le (by decide)).trans <|
    (BitVec.extractLsb'_append_eq_of_le (by decide)).trans BitVec.extractLsb'_append_eq_right

theorem cmdB_mkCmd : cmdB (mkCmd op a b d) = b :=
  (BitVec.extractLsb'_append_eq_of_le (by decide)).trans BitVec.extractLsb'_append_eq_right

theorem cmdD_mkCmd : cmdD (mkCmd op a b d) = d := BitVec.extractLsb'_append_eq_right

end Fields

/-! ### The fields inside `B` and `D` (30 R101) -/

/-- Two 7-bit fields in a half word, one in each byte: the low one. -/
theorem low7_of_pair (x y : BitVec 7) : (0#1 ++ x ++ 0#1 ++ y : BitVec 16).extractLsb' 0 7 = y :=
  BitVec.extractLsb'_append_eq_right

/-- Two 7-bit fields in a half word, one in each byte: the high one. -/
theorem high7_of_pair (x y : BitVec 7) : (0#1 ++ x ++ 0#1 ++ y : BitVec 16).extractLsb' 8 7 = x :=
  (BitVec.extractLsb'_append_eq_of_le (by decide)).trans <|
    (BitVec.extractLsb'_append_eq_of_le (by decide)).trans BitVec.extractLsb'_append_eq_right

/-- A flag in bit 0 beside a 7-bit field in the high byte: the flag. -/
theorem flag_of_pair (x : BitVec 7) (f : Bool) : (0#1 ++ x ++ 0#7 ++ BitVec.ofBool f : BitVec 16).getLsbD 0 = f := by
  rw [BitVec.getLsbD_append]
  simp

/-- A flag in bit 0 beside a 7-bit field in the high byte: the field. -/
theorem high7_beside_flag (x : BitVec 7) (f : Bool) :
    (0#1 ++ x ++ 0#7 ++ BitVec.ofBool f : BitVec 16).extractLsb' 8 7 = x :=
  (BitVec.extractLsb'_append_eq_of_le (by decide)).trans <|
    (BitVec.extractLsb'_append_eq_of_le (by decide)).trans BitVec.extractLsb'_append_eq_right

/-- The low field of a zero-extended one. -/
theorem low_of_zeroExtended {m n : Nat} (x : BitVec n) : (0#m ++ x).extractLsb' 0 n = x :=
  BitVec.extractLsb'_append_eq_right

/-- The word of a well-formed command decodes to the command, row by row. -/
theorem decodeCmd_encodeCmd {i : Instr} (h : i.wellFormed = true) : decodeCmd (encodeCmd i) = .ok i := by
  cases i with
  | nop => exact decodeCmd_nop Laws.OpcodeField.nop
  | prepare nch mb fs =>
    simp only [Instr.wellFormed, Bool.and_eq_true, decide_eq_true_eq] at h
    obtain ⟨hnch, hmb⟩ := h
    rw [decodeCmd_prepare (Laws.OpcodeField.prepare nch mb fs)]
    simp only [encodeCmd, BitVec.toNat_ofNat, Nat.reducePow, cmdA_mkCmd, cmdB_mkCmd, cmdD_mkCmd,
      Nat.mod_eq_of_lt hnch, Nat.mod_eq_of_lt hmb]
  | setParam a d =>
    rw [decodeCmd_setParam (Laws.OpcodeField.setParam a d)]
    simp only [encodeCmd, cmdA_mkCmd, cmdD_mkCmd]
  | readReg a =>
    rw [decodeCmd_readReg (Laws.OpcodeField.readReg a)]
    simp only [encodeCmd, cmdA_mkCmd]
  | noteOn v note vel wheel =>
    simp only [Instr.wellFormed, Bool.and_eq_true, decide_eq_true_eq] at h
    obtain ⟨⟨⟨hv, hnote⟩, hvel⟩, hwheel⟩ := h
    rw [decodeCmd_noteOn (Laws.OpcodeField.noteOn v note vel wheel)]
    simp only [encodeCmd, BitVec.toNat_ofNat, Nat.reducePow, cmdA_mkCmd, cmdB_mkCmd, cmdD_mkCmd, low7_of_pair,
      high7_of_pair, low_of_zeroExtended,
      Nat.mod_eq_of_lt hv, Nat.mod_eq_of_lt hnote, Nat.mod_eq_of_lt hvel, Nat.mod_eq_of_lt hwheel]
  | noteOff v tail relVel =>
    simp only [Instr.wellFormed, Bool.and_eq_true, decide_eq_true_eq] at h
    obtain ⟨hv, hrel⟩ := h
    rw [decodeCmd_noteOff (Laws.OpcodeField.noteOff v tail relVel)]
    simp only [encodeCmd, BitVec.toNat_ofNat, Nat.reducePow, cmdA_mkCmd, cmdB_mkCmd, flag_of_pair,
      high7_beside_flag, Nat.mod_eq_of_lt hv,
      Nat.mod_eq_of_lt hrel]
  | pitchBend wheel =>
    simp only [Instr.wellFormed, decide_eq_true_eq] at h
    rw [decodeCmd_pitchBend (Laws.OpcodeField.pitchBend wheel)]
    simp only [encodeCmd, BitVec.toNat_ofNat, Nat.reducePow, cmdD_mkCmd, low_of_zeroExtended, Nat.mod_eq_of_lt h]
  | controller cc val =>
    simp only [Instr.wellFormed, Bool.and_eq_true, decide_eq_true_eq] at h
    obtain ⟨hcc, hval⟩ := h
    rw [decodeCmd_controller (Laws.OpcodeField.controller cc val)]
    simp only [encodeCmd, BitVec.toNat_ofNat, Nat.reducePow, cmdA_mkCmd, cmdD_mkCmd, low_of_zeroExtended, Nat.mod_eq_of_lt hcc,
      Nat.mod_eq_of_lt hval]
  | render n =>
    simp only [Instr.wellFormed, decide_eq_true_eq] at h
    rw [decodeCmd_render (Laws.OpcodeField.render n)]
    simp only [encodeCmd, BitVec.toNat_ofNat, Nat.reducePow, cmdB_mkCmd, Nat.mod_eq_of_lt h]

/-- Settles O1: the transport gives the word back (`decode_bytesOfCmd`), and the word the command (`decodeCmd_encodeCmd`). -/
theorem decodeInvertsEncode : Obligations.DecodeInvertsEncode := by
  unfold Obligations.DecodeInvertsEncode
  intro i rest hwf
  rw [encode, decode_bytesOfCmd, decodeCmd_encodeCmd hwf]
  rfl

/-- Settles O2: each word has the opcode and the fields that the decoder's row for it names; the ten words are closed. -/
theorem workedEncodingsDecode : Obligations.WorkedEncodingsDecode := by
  unfold Obligations.WorkedEncodingsDecode
  refine ⟨decodeCmd_prepare (w := 0x01020200473B8000#64) rfl, decodeCmd_noteOn (w := 0x04007F4500002000#64) rfl,
    decodeCmd_noteOff (w := 0x0500000000000000#64) rfl, decodeCmd_noteOff (w := 0x0501000100000000#64) rfl,
    decodeCmd_setParam (w := 0x02020000447A0000#64) rfl, decodeCmd_setParam (w := 0x020700003F000000#64) rfl,
    decodeCmd_readReg (w := 0x0320000000000000#64) rfl, decodeCmd_pitchBend (w := 0x0600000000003FFF#64) rfl,
    decodeCmd_controller (w := 0x0701000000000040#64) rfl, decodeCmd_render (w := 0x0800020000000000#64) rfl⟩

end Sys2Proof
end

section
/-! PROOFS. One step (spec 46 R300, 20 R85, 70 R370, R371): taking the command word, waiting for it, and the reset input. -/

namespace Sys2Proof.Machine

/-- Bytes that decode to a command begin with a word that decodes to it (20 R84). -/
theorem takeCommand_of_decode {bytes rest : List Byte} {i : Instr} (h : decode bytes = .ok (i, rest)) :
    ∃ w, takeCommand bytes = .ok (w, rest) ∧ decodeCmd w = .ok i := by
  unfold decode at h
  split at h
  · cases h
  · rename_i w rest' hw
    split at h
    · cases h
    · rename_i j hj
      cases h
      exact ⟨w, hw, hj⟩

/-- The word of a command that stands at the port is taken from it. -/
theorem fetch_of_decode {s : State} {i : Instr} {rest : List Byte} (h : decode s.ports.cmdIn = .ok (i, rest)) :
    ∃ w, fetch s = some (w, setCmdIn rest s) ∧ decodeCmd w = .ok i := by
  obtain ⟨w, hw, hi⟩ := takeCommand_of_decode h
  exact ⟨w, by simp only [fetch, hw], hi⟩

/-- What is left once a word has been taken is the same state with other bytes at the command port. -/
theorem fetch_some {s s' : State} {w : Cmd} (h : fetch s = some (w, s')) : ∃ rest, s' = setCmdIn rest s := by
  unfold fetch at h
  split at h <;> cases h
  exact ⟨_, rfl⟩

/-- A word that decodes is executed (46 R300). -/
theorem stepCommand_of_ok {s s' : State} {w : Cmd} {i : Instr} (hf : fetch s = some (w, s')) (hd : decodeCmd w = .ok i) :
    stepCommand s = exec i s' := by
  simp only [stepCommand, hf, hd]

/-- Everything a command taken from the port can do: its execution, or the record of a reserved opcode. -/
theorem stepCommand_next {s t : State} (h : stepCommand s = .next t) :
    ∃ rest, (∃ i, i.wellFormed = true ∧ exec i (setCmdIn rest s) = .next t) ∨
      ∃ op, t = raiseError .illegalOpcode op (setCmdIn rest s) := by
  unfold stepCommand at h
  split at h
  · cases h
  · rename_i w s' hf
    obtain ⟨rest, rfl⟩ := fetch_some hf
    refine ⟨rest, ?_⟩
    split at h
    · rename_i i hi
      obtain ⟨-, -, hwf⟩ := decodeCmd_ok hi
      exact .inl ⟨i, hwf, h⟩
    · cases h
      exact .inr ⟨cmdOp w, rfl⟩

/-- Settles O4: the decoded word is the one that is fetched. -/
theorem stepRunsDecodedCommand : Obligations.StepRunsDecodedCommand := by
  unfold Obligations.StepRunsDecodedCommand
  intro s i rest hlow hdec
  obtain ⟨w, hf, hi⟩ := fetch_of_decode hdec
  rw [step_of_low hlow, stepCommand_of_ok hf hi]

/-- Fewer than eight bytes hold no command word (20 R85). -/
theorem takeCommand_of_short {bytes : List Byte} (h : bytes.length < 8) : takeCommand bytes = .error .partialWord := by
  unfold takeCommand
  split
  · simp only [List.length_cons] at h; omega
  · rfl

/-- Settles O6: without a whole word nothing is fetched. -/
theorem partialWordIsNoCommand : Obligations.PartialWordIsNoCommand := by
  unfold Obligations.PartialWordIsNoCommand
  intro s hlow hshort
  have hf : fetch s = none := by simp only [fetch, takeCommand_of_short hshort]
  rw [step_of_low hlow, stepCommand, hf]

/-- Settles O7: the reset state by definition, the split of the port's bytes by `dropPartialWord_split`. -/
theorem resetInputRestoresResetState : Obligations.ResetInputRestoresResetState := by
  unfold Obligations.ResetInputRestoresResetState
  intro s hhigh
  obtain ⟨part, hsplit, hpart, hwhole⟩ := dropPartialWord_split s.ports.cmdIn
  exact ⟨resetState s, part, by simp only [step, hhigh], rfl, rfl, hsplit, hpart, hwhole⟩

end Sys2Proof.Machine
end

section
/-! PROOFS. Errors (spec 60 R340 to R343): the error action, the commands that are refused, what a command can do to the error record,
and that the record is kept until a reset. -/

namespace Sys2Proof.Machine

/-- The error count saturates at 0xFFFF (60 R342). -/
theorem raiseError_errCount (e : ErrorCode) (op : Byte) (s : State) :
    (raiseError e op s).g.errCount.toNat = min (s.g.errCount.toNat + 1) 0xFFFF := by
  have hlt := s.g.errCount.isLt
  simp only [raiseError, State.setG_g]
  split
  · rename_i h; rw [h]; rfl
  · rename_i h
    have hne : s.g.errCount.toNat ≠ 0xFFFF := fun hn => h (BitVec.eq_of_toNat_eq hn)
    rw [BitVec.toNat_add]
    simp only [BitVec.toNat_ofNat]
    omega

theorem raiseError_first {s : State} (h : s.g.err = false) (e : ErrorCode) (op : Byte) :
    (raiseError e op s).g.errCode = errorByte e ∧ (raiseError e op s).g.errOp = op := by
  simp [raiseError, h]

theorem raiseError_later {s : State} (h : s.g.err = true) (e : ErrorCode) (op : Byte) :
    (raiseError e op s).g.errCode = s.g.errCode ∧ (raiseError e op s).g.errOp = s.g.errOp := by
  simp [raiseError, h]

/-- Settles O10: the record field by field; the rest by definition. -/
theorem errorActionKeepsFirstError : Obligations.ErrorActionKeepsFirstError := by
  unfold Obligations.ErrorActionKeepsFirstError
  intro e op s
  exact ⟨rfl, rfl, raiseError_errCount e op s, fun h => raiseError_first h e op, fun h => raiseError_later h e op,
    rfl, rfl, rfl, rfl, rfl, rfl⟩

/-! ### Refusals (60 R340, R343) -/

/-- PREPARE's operands are illegal when one of them is outside its range (46 R302). -/
theorem prepareLegal_eq_false {c : Config} {nch mb : Nat} {fs : F32}
    (h : fle c 0x3F800000#32 fs = false ∨ fle c fs c.fsMax = false ∨ mb = 0 ∨ (nch ≠ 1 ∧ nch ≠ 2)) :
    prepareLegal c nch mb fs = false := by
  unfold prepareLegal
  obtain h | h | h | ⟨h1, h2⟩ := h <;> simp [*]

/-- Settles O13: each refusal is the branch of its command that comes first in the order of 60 R343. -/
theorem refusedCommands : Obligations.RefusedCommands := by
  unfold Obligations.RefusedCommands
  intro s v n vel w rv tail
  refine ⟨fun hp => ?_, fun hp hv => ?_, fun hp hn => ?_, fun nch mb fs hbad => ?_⟩
  · simp [exec, execNoteOn, execNoteOff, execRender, hp]
  · simp [exec, execNoteOn, execNoteOff, hp, hv]
  · simp [exec, execRender, hp, hn]
  · simp [exec, execPrepare, prepareLegal_eq_false hbad]

/-! ### The error record over a command (60 R341, R342) -/

/-- The two states have the same error record. -/
structure SameRecord (s t : State) : Prop where
  err : t.g.err = s.g.err
  errCode : t.g.errCode = s.g.errCode
  errOp : t.g.errOp = s.g.errOp
  errCount : t.g.errCount = s.g.errCount

theorem SameRecord.of_g {s t : State} (h : t.g = s.g) : SameRecord s t := by
  constructor <;> rw [h]

/-- What an error does besides recording itself: at most the ports may differ. -/
structure Raised (e : ErrorCode) (op : Byte) (s t : State) : Prop where
  record : SameRecord (raiseError e op s) t
  regs : t.regs = s.regs
  voices : t.voices = s.voices
  wt : t.wt = s.wt

theorem raiseError_raised (e : ErrorCode) (op : Byte) (s : State) : Raised e op s (raiseError e op s) :=
  ⟨.of_g rfl, rfl, rfl, rfl⟩

/-- A register write leaves the error record. -/
theorem writeReg_record {r : Option Reg} {d : Word} {s t : State} (h : writeReg s r d = .ok t) : SameRecord s t := by
  obtain hw | hw | ⟨regs, hw⟩ | ⟨rng, -, hw⟩ := writeReg_cases s r d <;> rw [hw] at h <;> cases h
  · exact .of_g rfl
  · exact ⟨rfl, rfl, rfl, rfl⟩

/-- A completed RENDER that is not refused leaves the error record. -/
theorem closeBlock_record {b : Block} {i k : Nat} {s u : State} (h : FrameRun b i k s u) : SameRecord s (closeBlock b u) := by
  obtain ⟨-, -, -, -, -, hg⟩ := closeBlock_frame b u
  constructor <;> rw [hg, h.g]

/-- A command leaves the error record or raises one of the errors listed for it (60 R341). -/
theorem exec_record {i : Instr} {s t : State} (h : exec i s = .next t) :
    SameRecord s t ∨ ∃ e ∈ allowedErrors i, Raised e i.opcode s t := by
  cases i with
  | nop => cases h; exact .inl (.of_g rfl)
  | prepare nch mb fs =>
    obtain ⟨-, rfl⟩ | ⟨-, rfl⟩ := exec_prepare_next h
    · exact .inl ⟨rfl, rfl, rfl, rfl⟩
    · exact .inr ⟨.badPrepare, by simp [allowedErrors], raiseError_raised _ _ _⟩
  | setParam a d =>
    obtain hw | rfl | rfl := exec_setParam_next h
    · exact .inl (writeReg_record hw)
    · exact .inr ⟨.badAddr, by simp [allowedErrors], raiseError_raised _ _ _⟩
    · exact .inr ⟨.badValue, by simp [allowedErrors], raiseError_raised _ _ _⟩
  | readReg a =>
    obtain ⟨r, cr, -, ⟨-, rfl⟩ | ⟨-, -, rfl⟩⟩ := exec_readReg_next h
    · exact .inl (.of_g rfl)
    · exact .inr ⟨.badAddr, by simp [allowedErrors], .of_g rfl, rfl, rfl, rfl⟩
  | noteOn v note vel wheel =>
    obtain ⟨-, rfl⟩ | ⟨-, -, rfl⟩ | ⟨-, -, rfl⟩ := exec_noteOn_next h
    · exact .inr ⟨.notPrepared, by simp [allowedErrors], raiseError_raised _ _ _⟩
    · exact .inr ⟨.badVoice, by simp [allowedErrors], raiseError_raised _ _ _⟩
    · exact .inl ⟨rfl, rfl, rfl, rfl⟩
  | noteOff v tail relVel =>
    obtain ⟨-, rfl⟩ | ⟨-, -, rfl⟩ | ⟨-, -, rfl⟩ := exec_noteOff_next h
    · exact .inr ⟨.notPrepared, by simp [allowedErrors], raiseError_raised _ _ _⟩
    · exact .inr ⟨.badVoice, by simp [allowedErrors], raiseError_raised _ _ _⟩
    · exact .inl (.of_g rfl)
  | pitchBend wheel => cases h; exact .inl (.of_g rfl)
  | controller cc val =>
    simp only [exec, execController] at h
    split at h <;> cases h <;> exact .inl (.of_g rfl)
  | render n =>
    obtain ⟨-, rfl⟩ | ⟨-, -, rfl⟩ | ⟨-, -, rfl⟩ | ⟨-, -, -, u, -, hrun, rfl⟩ := exec_render_next h
    · exact .inr ⟨.notPrepared, by simp [allowedErrors], raiseError_raised _ _ _⟩
    · exact .inr ⟨.badLength, by simp [allowedErrors], raiseError_raised _ _ _⟩
    · exact .inl (.of_g rfl)
    · exact .inl (closeBlock_record hrun)

/-- Settles O11: `exec_record`, written out. -/
theorem commandsRaiseOnlyListedErrors : Obligations.CommandsRaiseOnlyListedErrors := by
  unfold Obligations.CommandsRaiseOnlyListedErrors
  intro i s t h
  obtain ⟨herr, hcode, hop, hcount⟩ | ⟨e, he, ⟨herr, hcode, hop, hcount⟩, hregs, hvoices, hwt⟩ := exec_record h
  · exact .inl ⟨herr, hcode, hop, hcount⟩
  · exact .inr ⟨e, he, herr, hcode, hop, hcount, hregs, hvoices, hwt⟩

/-- The mark, the first code and the first opcode are kept and the count has not fallen (60 R342). -/
structure KeepsError (s t : State) : Prop where
  err : t.g.err = true
  errCode : t.g.errCode = s.g.errCode
  errOp : t.g.errOp = s.g.errOp
  errCount : s.g.errCount.toNat ≤ t.g.errCount.toNat

theorem SameRecord.keepsError {s t : State} (h : SameRecord s t) (herr : s.g.err = true) : KeepsError s t :=
  ⟨h.err.trans herr, h.errCode, h.errOp, by rw [h.errCount]⟩

/-- A further error keeps the record of the first. -/
theorem raiseError_keepsError {s : State} (herr : s.g.err = true) (e : ErrorCode) (op : Byte) :
    KeepsError s (raiseError e op s) := by
  obtain ⟨hcode, hop⟩ := raiseError_later herr e op
  refine ⟨rfl, hcode, hop, ?_⟩
  have hlt := s.g.errCount.isLt
  rw [raiseError_errCount]
  omega

/-- A command keeps the record of an error. -/
theorem exec_keepsError {i : Instr} {s t : State} (h : exec i s = .next t) (herr : s.g.err = true) : KeepsError s t := by
  obtain hsame | ⟨e, -, hraised⟩ := exec_record h
  · exact hsame.keepsError herr
  · obtain ⟨-, hcode, hop, hcount⟩ := raiseError_keepsError herr e i.opcode
    obtain ⟨herr', hcode', hop', hcount'⟩ := hraised.record
    exact ⟨herr', hcode'.trans hcode, hop'.trans hop, hcount' ▸ hcount⟩

/-- Settles O12: a step with reset low is a command or the record of a reserved opcode, and both keep the record. -/
theorem errorMarkIsSticky : Obligations.ErrorMarkIsSticky := by
  unfold Obligations.ErrorMarkIsSticky
  intro s t hlow hstep herr
  rw [step_of_low hlow] at hstep
  have hkeep : KeepsError s t := by
    obtain ⟨rest, ⟨i, -, hexec⟩ | ⟨op, rfl⟩⟩ := stepCommand_next hstep
    · obtain ⟨h1, h2, h3, h4⟩ := exec_keepsError hexec herr
      exact ⟨h1, h2, h3, h4⟩
    · obtain ⟨h1, h2, h3, h4⟩ := raiseError_keepsError (s := setCmdIn rest s) herr .illegalOpcode op
      exact ⟨h1, h2, h3, h4⟩
  exact ⟨hkeep.err, hkeep.errCode, hkeep.errOp, hkeep.errCount⟩

end Sys2Proof.Machine
end

section
/-! PROOFS. The RNG (spec 10 R41, R37): a draw is one to one, so only the state 0 draws 0. -/

namespace Sys2Proof.Machine

/-- A word is determined by its exclusive or with itself shifted left: bit `i` follows from bit `i - k`. -/
theorem xor_shiftLeft_injective {n k : Nat} (hk : 0 < k) {x y : BitVec n} (h : x ^^^ (x <<< k) = y ^^^ (y <<< k)) : x = y := by
  apply BitVec.eq_of_getLsbD_eq
  intro i
  induction i using Nat.strong_induction_on with
  | _ i ih =>
    intro hi
    have hbit := congrArg (·.getLsbD i) h
    simp only [BitVec.getLsbD_xor, BitVec.getLsbD_shiftLeft, hi, decide_true, Bool.true_and] at hbit
    by_cases hik : i < k
    · simpa [hik] using hbit
    · have hlow := ih (i - k) (by omega) (by omega)
      simpa [hik, hlow] using hbit

/-- The same for a shift right: bit `i` follows from bit `i + k`. -/
theorem xor_ushiftRight_injective {n k : Nat} (hk : 0 < k) {x y : BitVec n} (h : x ^^^ (x >>> k) = y ^^^ (y >>> k)) : x = y := by
  have key : ∀ j i, n - i ≤ j → x.getLsbD i = y.getLsbD i := by
    intro j
    induction j with
    | zero =>
      intro i hi
      rw [BitVec.getLsbD_of_ge x i (by omega), BitVec.getLsbD_of_ge y i (by omega)]
    | succ j ih =>
      intro i hi
      have hbit := congrArg (·.getLsbD i) h
      simp only [BitVec.getLsbD_xor, BitVec.getLsbD_ushiftRight] at hbit
      have hhigh : x.getLsbD (k + i) = y.getLsbD (k + i) := by
        by_cases hin : i < n
        · exact ih (k + i) (by omega)
        · rw [BitVec.getLsbD_of_ge x _ (by omega), BitVec.getLsbD_of_ge y _ (by omega)]
      simpa [hhigh] using hbit
  exact BitVec.eq_of_getLsbD_eq fun i _ => key n i (by omega)

/-- Two states never give the same draw: each of the three shifts of 10 R41 can be undone. -/
theorem xorshift_injective {r r' : Word} (h : xorshift r = xorshift r') : r = r' :=
  xor_shiftLeft_injective (by decide) <| xor_ushiftRight_injective (by decide) <|
    xor_shiftLeft_injective (k := 5) (by decide) h

/-- A draw is 0 only from the state 0 (10 R37). -/
theorem xorshift_eq_zero (r : Word) : xorshift r = 0#32 ↔ r = 0#32 :=
  ⟨fun h => xorshift_injective (r' := 0#32) h, fun h => by rw [h]; rfl⟩

/-- Settles O54, from the injectivity of each shift. -/
theorem rngNeverReachesZero : Obligations.RngNeverReachesZero := by
  unfold Obligations.RngNeverReachesZero
  exact ⟨xorshift_eq_zero, fun _ _ => xorshift_injective⟩

end Sys2Proof.Machine
end

section
/-! PROOFS. The register space (spec 10 R31, 20 R82, R86; 46 R303): the address map, the RW addresses, and what a write of a register
changes and leaves. -/

namespace Sys2Proof.Machine

/-! ### The address map (10 R31) -/

/-- The address of a binary32 parameter register. -/
def paramAddr : ParamReg → Nat
  | .detune => 0x01
  | .cutoff => 0x02
  | .resonance => 0x03
  | .drive => 0x04
  | .attack => 0x05
  | .decay => 0x06
  | .sustain => 0x07
  | .release => 0x08
  | .cutoffEnvAmt => 0x09
  | .resEnvAmt => 0x0A
  | .velEnvAmt => 0x0B
  | .reverb => 0x0C
  | .masterGain => 0x0D

/-- The address of a register: the inverse of `regOf`. -/
def addrOf : Reg → Nat
  | .waveform => 0x00
  | .param p => paramAddr p
  | .modWheel => 0x0E
  | .pitchWheel => 0x0F
  | .ctrl => 0x10
  | .rngState => 0x11
  | .status => 0x20
  | .errCode => 0x21
  | .sampleRate => 0x22
  | .maxBlock => 0x23
  | .numChannels => 0x24
  | .frameCountLo => 0x25
  | .frameCountHi => 0x26
  | .config => 0x27
  | .voice v k => 0x40 + 8 * v + k

theorem paramAddr_range (p : ParamReg) : 1 ≤ paramAddr p ∧ paramAddr p ≤ 0x0D := by
  cases p <;> decide

/-- An address names the register whose address it is. -/
theorem toNat_of_regOf {c : Config} {a : Byte} {r : Reg} (h : regOf c a = some r) : a.toNat = addrOf r := by
  unfold regOf at h
  split at h
  case h_27 =>
    split at h <;> cases h
    simp only [addrOf]
    omega
  all_goals cases h; assumption

/-- Two addresses that name the same register are the same. -/
theorem regOf_injective {c : Config} {a b : Byte} {r : Reg} (ha : regOf c a = some r) (hb : regOf c b = some r) : a = b :=
  BitVec.eq_of_toNat_eq ((toNat_of_regOf ha).trans (toNat_of_regOf hb).symm)

/-- The readback block of voice `v` (10 R45). -/
theorem regOf_voice {c : Config} {a : Byte} {v k : Nat} (hv : v < c.nv) (hv8 : v < 8) (hk : k < 8)
    (ha : a.toNat = 0x40 + 8 * v + k) : regOf c a = some (.voice v k) := by
  unfold regOf
  split
  case h_27 =>
    have hdiv : (a.toNat - 0x40) / 8 = v := by omega
    have hmod : (a.toNat - 0x40) % 8 = k := by omega
    rw [hdiv, hmod, if_pos ⟨by omega, by omega, hv⟩]
  all_goals omega

/-- The reserved addresses (20 R86). -/
theorem regOf_eq_none_iff {c : Config} (a : Byte) (hnv : c.nv ≤ 8) :
    regOf c a = none ↔
      (0x12 ≤ a.toNat ∧ a.toNat ≤ 0x1F) ∨ (0x28 ≤ a.toNat ∧ a.toNat ≤ 0x3F) ∨ 0x40 + 8 * c.nv ≤ a.toNat := by
  unfold regOf
  split
  case h_27 =>
    split
    · simp only [reduceCtorEq, false_iff]; omega
    · simp only [true_iff, imp_false] at *
      omega
  all_goals simp only [reduceCtorEq, false_iff]; omega

/-! ### The RW addresses (46 R303) -/

/-- The address of a register SET_PARAM writes. -/
def isRW (n : Nat) : Prop := n ≤ 0x0D ∨ n = 0x10 ∨ n = 0x11

/-- The four kinds of RW address. -/
theorem regOf_of_isRW (c : Config) {a : Byte} (h : isRW a.toNat) :
    regOf c a = some .waveform ∨ regOf c a = some .ctrl ∨ regOf c a = some .rngState ∨
      ∃ p, regOf c a = some (.param p) := by
  unfold isRW at h
  unfold regOf
  split
  case h_1 => exact .inl rfl
  case h_17 => exact .inr (.inl rfl)
  case h_18 => exact .inr (.inr (.inl rfl))
  case h_15 | h_16 | h_19 | h_20 | h_21 | h_22 | h_23 | h_24 | h_25 | h_26 => omega
  case h_27 =>
    simp only [imp_false] at *
    omega
  all_goals exact .inr (.inr (.inr ⟨_, rfl⟩))

/-- The addresses of the binary32 registers. -/
theorem regOf_param_of_range (c : Config) {a : Byte} (h1 : 1 ≤ a.toNat) (h2 : a.toNat ≤ 0x0D) :
    ∃ p, regOf c a = some (.param p) := by
  obtain h | h | h | h := regOf_of_isRW c (.inl h2)
  · have := toNat_of_regOf h; simp only [addrOf] at this; omega
  · have := toNat_of_regOf h; simp only [addrOf] at this; omega
  · have := toNat_of_regOf h; simp only [addrOf] at this; omega
  · exact h

/-- A write to any other address is refused. -/
theorem writeReg_of_not_isRW (s : State) {a : Byte} (d : Word) (h : ¬ isRW a.toNat) :
    writeReg s (regOf s.cfg a) d = .error .badAddr := by
  unfold isRW at h
  unfold writeReg
  split
  case h_5 => rfl
  case h_4 p hr =>
    have ha := toNat_of_regOf hr
    have hp := paramAddr_range p
    simp only [addrOf] at ha
    omega
  all_goals
    rename_i hr
    have ha := toNat_of_regOf hr
    simp only [addrOf] at ha
    omega

/-- A finite value is written at an RW address. -/
theorem writeReg_of_isRW (s : State) {a : Byte} {d : Word} (h : isRW a.toNat) (hd : fIsFinite d = true) :
    ∃ t, writeReg s (regOf s.cfg a) d = .ok t := by
  obtain hr | hr | hr | ⟨p, hr⟩ := regOf_of_isRW s.cfg h <;> rw [hr]
  · exact ⟨_, rfl⟩
  · exact ⟨_, rfl⟩
  · exact ⟨_, rfl⟩
  · simp only [writeReg, not_nan_of_finite hd, not_inf_of_finite hd, Bool.or_self, Bool.false_eq_true, if_false]
    exact ⟨_, rfl⟩

/-- Settles O18: the fixed addresses by evaluation; the rest by the lemmas on `regOf` and `writeReg` above. -/
theorem addressMapIsTheSpecs : Obligations.AddressMapIsTheSpecs := by
  unfold Obligations.AddressMapIsTheSpecs
  intro c a hnv
  refine ⟨?_, fun v k hv hk ha => regOf_voice hv (by omega) hk ha, regOf_eq_none_iff a hnv, fun s d hs hd => ?_, ?_,
    rfl, rfl, rfl, rfl, rfl, rfl⟩
  · refine ⟨?_, ?_, ?_, ?_, ?_, ?_, ?_, ?_, ?_, ?_, ?_, ?_, ?_, ?_, ?_, ?_, ?_, ?_, ?_, ?_, ?_, ?_, ?_, ?_, ?_, ?_⟩ <;> rfl
  · subst hs
    constructor
    · rintro ⟨t, ht⟩
      by_contra hrw
      rw [writeReg_of_not_isRW s d hrw] at ht
      cases ht
    · exact fun hrw => writeReg_of_isRW s hrw hd
  · intro p
    cases p <;> simp [paramLo, paramHi]

/-! ### SET_PARAM (46 R303) -/

/-- SET_PARAM does the write. -/
theorem exec_setParam_of_ok {s t : State} {a : Byte} {d : Word} (h : writeReg s (regOf s.cfg a) d = .ok t) :
    exec (.setParam a d) s = .next t := by
  simp only [exec, execSetParam, h]

/-- SET_PARAM records the error that refuses the write. -/
theorem exec_setParam_of_error {s : State} {a : Byte} {d : Word} {e : ErrorCode}
    (h : writeReg s (regOf s.cfg a) d = .error e) : exec (.setParam a d) s = .next (raiseError e 0x02#8 s) := by
  simp only [exec, execSetParam, h]

/-- A NaN or an infinity is refused by a binary32 register. -/
theorem writeReg_param_of_not_finite (s : State) (p : ParamReg) {d : Word} (hd : fIsFinite d = false) :
    writeReg s (some (.param p)) d = .error .badValue := by
  have hclass : (fIsNaN d || fIsInf d) = true := by
    simp only [fIsFinite, fIsNaN, fIsInf, Bool.or_eq_true, decide_eq_true_eq, decide_eq_false_iff_not] at *
    omega
  simp only [writeReg, hclass, if_true]

/-- Settles O21: the write of such an address, or of such a value, is refused. -/
theorem setParamRefusals : Obligations.SetParamRefusals := by
  unfold Obligations.SetParamRefusals
  intro s a d
  refine ⟨fun hrw => exec_setParam_of_error (writeReg_of_not_isRW s d hrw), fun h1 h2 hd => ?_⟩
  obtain ⟨p, hp⟩ := regOf_param_of_range s.cfg h1 h2
  exact exec_setParam_of_error (by rw [hp, writeReg_param_of_not_finite s p hd])

/-- Settles O20: the three writes, and the numbers they store. -/
theorem setParamIntegerRegisters : Obligations.SetParamIntegerRegisters := by
  unfold Obligations.SetParamIntegerRegisters
  intro s d
  refine ⟨⟨_, exec_setParam_of_ok rfl, ?_, rfl⟩, ⟨_, exec_setParam_of_ok rfl, ?_, rfl⟩,
    ⟨_, exec_setParam_of_ok rfl, fun h => ?_, fun h => ?_, rfl⟩⟩
  · show (if d.toNat < 2 then d else 2#32).toNat = min d.toNat 2
    split
    · omega
    · rw [BitVec.toNat_ofNat]; omega
  · show (d &&& 1#32).toNat = d.toNat % 2
    rw [BitVec.toNat_and, BitVec.toNat_ofNat, show 1 % 2 ^ 32 = 1 from rfl, Nat.and_one_is_mod]
  · exact if_neg h
  · exact if_pos h

/-- What a completed write has written, register by register. -/
theorem writeReg_ok {s t : State} {r : Option Reg} {d : Word} (h : writeReg s r d = .ok t) :
    (r = some .waveform ∧ t = s.setRegs { s.regs with waveform := if d.toNat < 2 then d else 2#32 }) ∨
    (r = some .ctrl ∧ t = s.setRegs { s.regs with ctrl := d &&& 0x00000001#32 }) ∨
    (r = some .rngState ∧ t = s.setG { s.g with rng := if d = 0#32 then s.cfg.defaultSeed else d }) ∨
    (∃ p, r = some (.param p) ∧ fIsFinite d = true ∧ t = s.setRegs (putParam s.regs p (storedParam s.cfg p d))) := by
  unfold writeReg at h
  split at h
  · cases h; exact .inl ⟨rfl, rfl⟩
  · cases h; exact .inr (.inl ⟨rfl, rfl⟩)
  · cases h; exact .inr (.inr (.inl ⟨rfl, rfl⟩))
  · rename_i p
    split at h
    · cases h
    · rename_i hclass
      cases h
      refine .inr (.inr (.inr ⟨p, rfl, ?_, rfl⟩))
      simp only [fIsFinite, fIsNaN, fIsInf, Bool.or_eq_true, decide_eq_true_eq] at *
      omega
  · cases h

/-- A register write leaves what every other register reads, STATUS apart. -/
theorem regValue_of_writeReg {s t : State} {r : Option Reg} {d : Word} (h : writeReg s r d = .ok t) {q : Reg}
    (hq : r ≠ some q) (hstatus : q ≠ .status) : regValue t q = regValue s q := by
  obtain ⟨rfl, rfl⟩ | ⟨rfl, rfl⟩ | ⟨rfl, rfl⟩ | ⟨p, rfl, -, rfl⟩ := writeReg_ok h
  · cases q with
    | waveform => exact absurd rfl hq
    | param p => cases p <;> rfl
    | status => exact absurd rfl hstatus
    | _ => rfl
  · cases q with
    | ctrl => exact absurd rfl hq
    | param p => cases p <;> rfl
    | status => exact absurd rfl hstatus
    | _ => rfl
  · cases q with
    | rngState => exact absurd rfl hq
    | status => exact absurd rfl hstatus
    | _ => rfl
  · cases q with
    | param q' => exact getParam_putParam_other _ _ _ _ fun he => hq (by rw [he])
    | status => exact absurd rfl hstatus
    | _ => simp [regValue, errCodeWord, State.voice]

/-- An error that moves no count has met a saturated one. -/
theorem errCount_of_raiseError_eq {e : ErrorCode} {op : Byte} {s : State}
    (h : (raiseError e op s).g.errCount = s.g.errCount) : s.g.errCount = 0xFFFF#16 := by
  have hcount := raiseError_errCount e op s
  have hlt := s.g.errCount.isLt
  rw [h] at hcount
  apply BitVec.eq_of_toNat_eq
  rw [BitVec.toNat_ofNat]
  omega

/-- Settles O22: no error was raised, so the write was done, and another address names another register. -/
theorem setParamLeavesOtherAddresses : Obligations.SetParamLeavesOtherAddresses := by
  unfold Obligations.SetParamLeavesOtherAddresses
  intro s t a b d h hcount hsat hba hstatus
  obtain hw | rfl | rfl := exec_setParam_next h
  · rw [readReg, readReg, writeReg_cfg hw]
    cases hb : regOf s.cfg b with
    | none => rfl
    | some q =>
      refine congrArg some (regValue_of_writeReg hw (fun ha => hba (regOf_injective hb ha)) ?_)
      rintro rfl
      exact hstatus (regOf_injective hb (b := 0x20#8) rfl)
  · exact absurd (errCount_of_raiseError_eq hcount) hsat
  · exact absurd (errCount_of_raiseError_eq hcount) hsat

end Sys2Proof.Machine
end

section
/-! PROOFS. Comparisons and clamping of binary32 values (spec 00 R11, R12): order facts from the raw order, and what a clamp and a
parameter store give (46 R303). -/

namespace Sys2Proof.Machine

/-! ### Comparisons -/

/-- The raw order in terms of keys. -/
theorem fLeRaw_iff (x y : F32) : fLeRaw x y = true ↔ fIsNaN x = false ∧ fIsNaN y = false ∧ fKey x ≤ fKey y := by
  simp [fLeRaw, and_assoc]

/-- Two values ordered as they stand are ordered as the machine reads them, with FTZ and without. -/
theorem fle_of_fLeRaw (c : Config) {x y : F32} (h : fLeRaw x y = true) : fle c x y = true := by
  obtain ⟨hx, hy, hk⟩ := (fLeRaw_iff x y).mp h
  exact (fle_iff c x y).mpr ⟨hx, hy, fKey_fIn_mono c hk⟩

/-- The machine's order is transitive. -/
theorem fle_trans {c : Config} {x y z : F32} (hxy : fle c x y = true) (hyz : fle c y z = true) : fle c x z = true := by
  obtain ⟨hx, -, hk⟩ := (fle_iff c x y).mp hxy
  obtain ⟨-, hz, hk'⟩ := (fle_iff c y z).mp hyz
  exact (fle_iff c x z).mpr ⟨hx, hz, hk.trans hk'⟩

/-- Equality of the machine in terms of keys. -/
theorem feq_iff (c : Config) (x y : F32) :
    feq c x y = true ↔ fIsNaN x = false ∧ fIsNaN y = false ∧ fKey (fIn c x) = fKey (fIn c y) := by
  simp [feq, and_assoc]

/-- An operand that is no NaN equals itself. -/
theorem feq_refl (c : Config) {x : F32} (hx : fIsNaN x = false) : feq c x x = true :=
  (feq_iff c x x).mpr ⟨hx, hx, rfl⟩

/-- Equality is order both ways. -/
theorem feq_of_fle_fle {c : Config} {x y : F32} (hxy : fle c x y = true) (hyx : fle c y x = true) : feq c x y = true := by
  obtain ⟨hx, hy, hk⟩ := (fle_iff c x y).mp hxy
  obtain ⟨-, -, hk'⟩ := (fle_iff c y x).mp hyx
  exact (feq_iff c x y).mpr ⟨hx, hy, le_antisymm hk hk'⟩

theorem fle_of_feq {c : Config} {x y : F32} (h : feq c x y = true) : fle c x y = true ∧ fle c y x = true := by
  obtain ⟨hx, hy, hk⟩ := (feq_iff c x y).mp h
  exact ⟨(fle_iff c x y).mpr ⟨hx, hy, hk.le⟩, (fle_iff c y x).mpr ⟨hy, hx, hk.ge⟩⟩

/-! ### Clamping -/

section Clamp
variable {c : Config} {x lo hi : F32}

/-- A value inside the range is not changed by a clamp. -/
theorem fclamp_of_mem (hlo : fle c lo x = true) (hhi : fle c x hi = true) : fclamp c x lo hi = x := by
  simp only [fclamp, fmin, fmax, hlo, hhi, if_true]

/-- A value that is not at or above the lower bound, a NaN too, becomes the lower bound. -/
theorem fclamp_of_below (hlh : fle c lo hi = true) (hlo : fle c lo x = false) : fclamp c x lo hi = lo := by
  simp only [fclamp, fmin, fmax, hlo, hlh, if_true, if_false, Bool.false_eq_true]

/-- A value above the range becomes the upper bound. -/
theorem fclamp_of_above (hlo : fle c lo x = true) (hhi : fle c x hi = false) : fclamp c x lo hi = hi := by
  simp only [fclamp, fmin, fmax, hlo, hhi, if_true, if_false, Bool.false_eq_true]

end Clamp

/-! ### Parameter values (46 R303) -/

/-- What a legal build says of the bounds of CUTOFF (00 R7). -/
theorem legalConfig_cutoff {c : Config} (h : legalConfig c = true) :
    positive c.minCutoff = true ∧ fIsFinite c.maxCutoff = true ∧ fLeRaw c.minCutoff c.maxCutoff = true := by
  simp only [legalConfig, Bool.and_eq_true] at h
  simp only [h, and_self]

/-- The bounds of every register are finite and in order. -/
theorem param_bounds {c : Config} (h : legalConfig c = true) (p : ParamReg) :
    fIsFinite (paramLo c p) = true ∧ fIsFinite (paramHi c p) = true ∧ fLeRaw (paramLo c p) (paramHi c p) = true := by
  obtain ⟨hmin, hmax, hle⟩ := legalConfig_cutoff h
  simp only [positive, Bool.and_eq_true] at hmin
  cases p with
  | cutoff => exact ⟨hmin.1, hmax, hle⟩
  | _ =>
    dsimp only [paramLo, paramHi]
    decide

/-- A value with a zero stored as `+0.0` (46 R303). -/
def plusZero (c : Config) (x : F32) : F32 := if feq c x 0#32 then 0#32 else x

/-- Storing a zero as `+0.0` keeps a finite value in its range and makes it no `-0.0`. -/
theorem legalParam_plusZero {c : Config} {p : ParamReg} {x : F32} (hx : fIsFinite x = true)
    (hlo : fle c (paramLo c p) x = true) (hhi : fle c x (paramHi c p) = true) : legalParam c p (plusZero c x) := by
  unfold plusZero
  split
  · rename_i hz
    obtain ⟨hx0, h0x⟩ := fle_of_feq hz
    exact ⟨by decide, fle_trans hlo hx0, fle_trans h0x hhi, by decide⟩
  · rename_i hz
    refine ⟨hx, hlo, hhi, ?_⟩
    rintro rfl
    exact hz (feq_of_fle_fle (fle_of_fLeRaw c (by decide)) (fle_of_fLeRaw c (by decide)))

/-- What a finite value is stored as is legal (10 R33). -/
theorem storedParam_legal {c : Config} (hc : legalConfig c = true) (p : ParamReg) {d : F32} (hd : fIsFinite d = true) :
    legalParam c p (storedParam c p d) := by
  obtain ⟨hlo, hhi, hle⟩ := param_bounds hc p
  obtain ⟨hcases, hge, hle'⟩ := fclamp_range c (x := d) (fle_of_fLeRaw c hle)
  refine legalParam_plusZero ?_ hge hle'
  obtain h | h | h := hcases <;> rw [h] <;> assumption

/-- Settles O19: the write stores `storedParam`, which is legal, and the three branches of its clamp. -/
theorem setParamStoresClampedValue : Obligations.SetParamStoresClampedValue := by
  unfold Obligations.SetParamStoresClampedValue
  intro s a d p hc hp hd
  obtain ⟨hlo, hhi, hle⟩ := param_bounds hc p
  have hle := fle_of_fLeRaw s.cfg hle
  have hw : writeReg s (regOf s.cfg a) d = .ok (s.setRegs (putParam s.regs p (storedParam s.cfg p d))) := by
    simp only [hp, writeReg, not_nan_of_finite hd, not_inf_of_finite hd, Bool.or_self, Bool.false_eq_true, if_false]
  refine ⟨_, storedParam s.cfg p d, exec_setParam_of_ok hw, rfl, ?_, storedParam_legal hc p hd,
    ⟨fun h => ?_, fun h1 h2 => ?_, fun h => ?_⟩,
    fun q hq => getParam_putParam_other _ _ _ _ hq⟩
  · simp only [readReg, State.setRegs_cfg, hp, Option.map_some, regValue, State.setRegs_regs, getParam_putParam_same]
  · exact congrArg (plusZero s.cfg) (fclamp_of_below hle h)
  · exact congrArg (plusZero s.cfg) (fclamp_of_mem h1 h2)
  · have hge : fle s.cfg (paramLo s.cfg p) d = true :=
      fle_trans hle (fle_total s.cfg (not_nan_of_finite hd) (not_nan_of_finite hhi) h)
    exact congrArg (plusZero s.cfg) (fclamp_of_above hge h)

end Sys2Proof.Machine
end

section
/-! PROOFS. Reads of the register space (spec 10 R31, R38, R39, R43, R45; 46 R304): the response, the fields of STATUS, ERR_CODE,
FRAME_COUNT and the voice readback, and what every register reads after reset. -/

namespace Sys2Proof.Machine

/-! ### READ_REG (46 R304) -/

/-- A credit that is not used up gives one more word. -/
theorem takeCredit_of_ne_zero {cr : Option Nat} (h : cr ≠ some 0) : ∃ cr', takeCredit cr = some cr' := by
  cases cr with
  | none => exact ⟨none, rfl⟩
  | some k =>
    cases k with
    | zero => exact absurd rfl h
    | succ k => exact ⟨some k, rfl⟩

/-- The state once the response `r` has been handed over and the host's credit is `cr`. -/
def responded (r : Word) (cr : Option Nat) (s : State) : State :=
  s.setPorts { s.ports with respOut := s.ports.respOut ++ [r], respCredit := cr }

/-- The response is handed over when the host takes it. -/
theorem respond_of_takes {s : State} (r : Word) (h : s.ports.respCredit ≠ some 0) :
    ∃ cr, respond r s = .done (responded r cr s) := by
  obtain ⟨cr, hcr⟩ := takeCredit_of_ne_zero h
  exact ⟨cr, by simp only [respond, hcr, responded]⟩

/-- A host that takes no response holds the machine (70 R382). -/
theorem respond_of_stalled {s : State} (r : Word) (h : s.ports.respCredit = some 0) :
    respond r s = .stuck .responsePortStuck s := by
  simp only [respond, h, takeCredit_zero]

/-- Settles O23: the read's word is responded; a byte transport appends its four bytes, weighted by `toNat_of_bytes`. -/
theorem readRegResponds : Obligations.ReadRegResponds := by
  unfold Obligations.ReadRegResponds
  intro s a r hr hcredit
  obtain ⟨cr, hdone⟩ := respond_of_takes r hcredit
  refine ⟨responded r cr s, by simp only [exec, execReadReg, hr, hdone, Progress.outcome], rfl,
    ⟨_, _, _, _, ?_, toNat_of_bytes r⟩, rfl, rfl, rfl, rfl, rfl, rfl⟩
  simp only [respBytes, responded, State.setPorts_ports, List.flatMap_append, List.flatMap_singleton]
  rfl

/-- Settles O24: a reserved address responds 0 and then records BAD_ADDR; the stall comes before either. -/
theorem readRegReservedAndStuck : Obligations.ReadRegReservedAndStuck := by
  unfold Obligations.ReadRegReservedAndStuck
  refine fun s a => ⟨fun hnone hcredit => ?_, fun hstall => ?_⟩
  · obtain ⟨cr, hdone⟩ := respond_of_takes 0#32 hcredit
    have hr : readReg s a = none := by simp only [readReg, hnone, Option.map_none]
    exact ⟨responded 0#32 cr s, by simp only [exec, execReadReg, hr, hdone], rfl, rfl⟩
  · cases hr : readReg s a <;> simp only [exec, execReadReg, hr, respond_of_stalled _ hstall, Progress.outcome]

/-! ### STATUS (10 R38) -/

@[simp] theorem readReg_status (s : State) : readReg s 0x20#8 = some (statusWord s) := rfl

/-- Bit `v` of VOICE_BUSY. -/
theorem busyBits_testBit (vs : List Voice) (v : Nat) : (busyBits vs).testBit v = (vs.getD v Voice.reset).busy := by
  induction vs generalizing v with
  | nil => simp only [busyBits, Nat.zero_testBit, List.getD_nil]; rfl
  | cons V vs ih =>
    cases v with
    | zero =>
      rw [busyBits, Nat.testBit_zero, List.getD_cons_zero]
      cases V.busy <;> simp
    | succ v =>
      have hhalf : ((if V.busy then 1 else 0) + 2 * busyBits vs) / 2 = busyBits vs := by split <;> omega
      rw [busyBits, Nat.testBit_succ, hhalf, ih, List.getD_cons_succ]

/-- The three flags of STATUS as a number. -/
def statusFlags (s : State) : Nat :=
  (if s.g.prepared then 1 else 0) + (if reverbActive s then 2 else 0) + (if s.g.err then 4 else 0)

theorem statusFlags_testBit (s : State) (k : Nat) :
    (statusFlags s).testBit k =
      if k = 0 then s.g.prepared else if k = 1 then reverbActive s else if k = 2 then s.g.err else false := by
  have hlt : statusFlags s < 8 := by unfold statusFlags; split <;> split <;> split <;> omega
  rcases Nat.lt_or_ge k 3 with hk | hk
  · unfold statusFlags
    interval_cases k <;> cases s.g.prepared <;> cases reverbActive s <;> cases s.g.err <;> rfl
  · have hpow : 2 ^ 3 ≤ 2 ^ k := Nat.pow_le_pow_right (by decide) hk
    rw [Nat.testBit_lt_two_pow (by omega), if_neg (by omega), if_neg (by omega), if_neg (by omega)]

/-- Every bit of STATUS: the flags below bit 8, VOICE_BUSY in bits 15:8, zeros above. -/
theorem statusWord_getLsbD (s : State) (k : Nat) :
    (statusWord s).getLsbD k =
      if k < 8 then (statusFlags s).testBit k
      else decide (k < 16) && ((s.voices.take s.cfg.nv).getD (k - 8) Voice.reset).busy := by
  have hlt : statusFlags s < 2 ^ 8 := by unfold statusFlags; split <;> split <;> split <;> omega
  have hword : statusWord s = BitVec.ofNat 32 (2 ^ 8 * (busyBits (s.voices.take s.cfg.nv) % 2 ^ 8) + statusFlags s) :=
    congrArg (BitVec.ofNat 32) (Nat.add_comm _ _)
  rw [hword, BitVec.getLsbD_ofNat, Nat.testBit_two_pow_mul_add _ hlt, Nat.testBit_mod_two_pow, busyBits_testBit]
  by_cases h8 : k < 8
  · simp only [h8, if_true, decide_eq_true (show k < 32 by omega), Bool.true_and]
  · have h16 : decide (k - 8 < 8) = decide (k < 16) := decide_eq_decide.mpr (by omega)
    rw [if_neg h8, if_neg h8, h16]
    by_cases hk : k < 16
    · simp only [hk, decide_eq_true (show k < 32 by omega), Bool.true_and]
    · simp only [hk, decide_false, Bool.false_and, Bool.and_false]

/-- A voice is busy exactly when it is not IDLE (44 R240). -/
theorem busy_iff (V : Voice) : V.busy = true ↔ V.state ≠ .idle := by
  simp only [Voice.busy, bne_iff_ne]

/-- Settles O25: the bits of `statusWord_getLsbD`, field by field; with a full pool no voice of it is left out. -/
theorem statusFields : Obligations.StatusFields := by
  unfold Obligations.StatusFields
  intro s w hpool hnv hw
  obtain rfl : statusWord s = w := Option.some.inj ((readReg_status s).symm.trans hw)
  have hall : s.voices.take s.cfg.nv = s.voices := by rw [← hpool, List.take_length]
  simp only [statusWord_getLsbD, statusFlags_testBit, hall]
  refine ⟨rfl, rfl, rfl, rfl, fun k h3 h7 => ?_, fun v hv => ?_, fun k hk => ?_⟩
  · rw [if_pos (by omega), if_neg (by omega), if_neg (by omega), if_neg (by omega)]
  · rw [if_neg (by omega), decide_eq_true (by omega), Bool.true_and, Nat.add_sub_cancel_left]
    exact busy_iff (s.voice v)
  · rw [if_neg (by omega), List.getD_eq_default _ _ (by omega)]
    exact Bool.and_false _

/-! ### ERR_CODE, FRAME_COUNT and the readback words (10 R39, R43, R45) -/

/-- The number of two words put side by side. -/
theorem toNat_append_add {m n : Nat} (x : BitVec m) (y : BitVec n) : (x ++ y).toNat = x.toNat * 2 ^ n + y.toNat := by
  rw [BitVec.toNat_append, ← Nat.shiftLeft_add_eq_or_of_lt y.isLt, Nat.shiftLeft_eq]

/-- The number VSTATE shows. -/
theorem vstateWord_toNat (V : Voice) :
    (vstateWord V).toNat =
      (voiceStateBits V.state).toNat + 16 * (envStageBits V.env.stage).toNat + 256 * V.note.toNat := by
  simp only [vstateWord, toNat_append_add, BitVec.toNat_ofNat]
  omega

/-- The numbers of the lifecycle states. -/
theorem voiceStateBits_mem (st : VoiceState) :
    (st, (voiceStateBits st).toNat) ∈ [(VoiceState.idle, 0), (.playing, 1), (.releasing, 2), (.fading, 3)] := by
  cases st <;> decide

/-- The numbers of the envelope stages. -/
theorem envStageBits_mem (sg : EnvStage) :
    (sg, (envStageBits sg).toNat) ∈ [(EnvStage.idle, 0), (.attack, 1), (.decay, 2), (.sustain, 3), (.release, 4)] := by
  cases sg <;> decide

/-- Word `k` of the readback block of voice `v`. -/
theorem readReg_voice (s : State) {a : Byte} {v k : Nat} (hv : v < s.cfg.nv) (hv8 : v < 8) (hk : k < 8)
    (ha : a.toNat = 0x40 + 8 * v + k) : readReg s a = some (voiceWord (s.voice v) k) := by
  rw [readReg, regOf_voice hv hv8 hk ha]; rfl

/-- The two halves of the frame counter. -/
theorem frames_halves (f : BitVec 64) :
    f.toNat = (f.extractLsb' 32 32).toNat * 4294967296 + (f.extractLsb' 0 32).toNat := by
  have hlt := f.isLt
  simp only [BitVec.extractLsb'_toNat, Nat.shiftRight_eq_div_pow]
  omega

/-- Settles O27: the fields of each word. -/
theorem readbackFields : Obligations.ReadbackFields := by
  unfold Obligations.ReadbackFields
  intro s
  refine ⟨⟨errCodeWord s, rfl, BitVec.extractLsb'_append_eq_right, ?_, ?_⟩, ⟨_, _, rfl, rfl, frames_halves _⟩,
    fun v a hv hv8 ha => ?_⟩
  · exact (BitVec.extractLsb'_append_eq_of_le (by decide)).trans BitVec.extractLsb'_append_eq_right
  · exact (BitVec.extractLsb'_append_eq_of_le (by decide)).trans BitVec.extractLsb'_append_eq_left
  · have hread : ∀ k, k < 8 → readReg s (a + BitVec.ofNat 8 k) = some (voiceWord (s.voice v) k) := by
      intro k hk
      refine readReg_voice s hv hv8 hk ?_
      rw [ha, BitVec.toNat_add, BitVec.toNat_ofNat, BitVec.toNat_ofNat]
      omega
    have hfirst : readReg s a = some (voiceWord (s.voice v) 0) := by
      simpa only [BitVec.ofNat_eq_ofNat, BitVec.add_zero] using hread 0 (by decide)
    exact ⟨⟨_, _, _, hfirst, vstateWord_toNat _, voiceStateBits_mem _, envStageBits_mem _⟩, hread 1 (by decide),
      hread 2 (by decide), hread 3 (by decide), hread 4 (by decide), hread 5 (by decide), hread 6 (by decide),
      hread 7 (by decide)⟩

/-! ### After reset (10 R31, 70 R370) -/

/-- A pool of voices at reset shows no voice as busy. -/
theorem busyBits_replicate_reset (n : Nat) : busyBits (List.replicate n Voice.reset) = 0 := by
  induction n with
  | zero => rfl
  | succ n ih => rw [List.replicate_succ, busyBits, ih]; rfl

/-- Right after reset the reverb path is not active. -/
theorem reverbActive_reset (c : Config) (p : Ports) : reverbActive (State.resetWith c p) = false := by
  have hzero : feq c 0#32 0#32 = true := feq_refl c (by decide)
  simp only [reverbActive, State.resetWith, Regs.reset, Global.reset, hzero, Bool.not_true, Bool.or_self]

/-- STATUS right after reset. -/
theorem statusWord_reset (c : Config) (p : Ports) : statusWord (State.resetWith c p) = 0#32 := by
  simp only [statusWord, reverbActive_reset, State.resetWith_voices, List.take_replicate, busyBits_replicate_reset]
  rfl

/-- Every voice reads as one at reset, in the pool and past it. -/
theorem voice_resetWith (c : Config) (p : Ports) (v : Nat) : (State.resetWith c p).voice v = Voice.reset := by
  simp only [State.voice, State.resetWith_voices, List.getD_eq_getElem?_getD, List.getElem?_replicate]
  split <;> rfl

/-- Every readback word of a voice at reset is 0. -/
theorem voiceWord_reset (k : Nat) : voiceWord Voice.reset k = 0#32 := by
  unfold voiceWord
  split <;> rfl

/-- Settles O9: STATUS and the readback words by the lemmas above, every other register by its field. -/
theorem resetRegisterValues : Obligations.ResetRegisterValues := by
  unfold Obligations.ResetRegisterValues
  intro c p
  have hstatus : readReg (State.resetWith c p) 0x20#8 = some 0#32 := by rw [readReg_status, statusWord_reset]
  have herr : readReg (State.resetWith c p) 0x21#8 = some 0#32 :=
    congrArg some (show (0#16 ++ 0#8 ++ 0#8 : Word) = 0#32 by decide)
  have hhigh : readReg (State.resetWith c p) 0x26#8 = some 0#32 :=
    congrArg some (show (0#64).extractLsb' 32 32 = 0#32 by decide)
  refine ⟨rfl, rfl, rfl, rfl, rfl, rfl, rfl, rfl, rfl, rfl, rfl, rfl, rfl, rfl, rfl, rfl, rfl, rfl, hstatus, herr, rfl, rfl,
    rfl, rfl, hhigh, fun a hlo hnv hhi => ?_, rfl⟩
  rw [readReg_voice (k := (a.toNat - 0x40) % 8) (v := (a.toNat - 0x40) / 8) _ (by rw [State.resetWith_cfg]; omega) (by omega)
    (by omega) (by omega), voice_resetWith, voiceWord_reset]

end Sys2Proof.Machine
end

section
/-! PROOFS. PREPARE (spec 46 R302, 40 R130, R131, 43 R222): the rates, the orders and tables, the voices. -/

namespace Sys2Proof.Machine

/-- PREPARE accepts legal operands. -/
theorem exec_prepare_of_legal {s : State} {nch mb : Nat} {fs : F32} (h : prepareLegal s.cfg nch mb fs = true) :
    exec (.prepare nch mb fs) s = .next (prepared s nch mb fs) := by
  simp only [exec, execPrepare, h, if_true]

/-- A PREPARE with legal operands that has completed has left `prepared`. -/
theorem eq_prepared_of_exec {s t : State} {nch mb : Nat} {fs : F32} (hl : prepareLegal s.cfg nch mb fs = true)
    (h : exec (.prepare nch mb fs) s = .next t) : t = prepared s nch mb fs := by
  rw [exec_prepare_of_legal hl] at h
  cases h
  rfl

/-- The operands PREPARE accepts (46 R302). -/
theorem prepareLegal_iff (c : Config) (nch mb : Nat) (fs : F32) :
    prepareLegal c nch mb fs = true ↔
      fle c 0x3F800000#32 fs = true ∧ fle c fs c.fsMax = true ∧ mb ≠ 0 ∧ (nch = 1 ∨ nch = 2) := by
  simp [prepareLegal, and_assoc]

/-- A saturated nearest integer fits the field it is stored in. -/
theorem toNat_ofNat_fRneSat (x : F32) : (BitVec.ofNat 32 (fRneSat x 2147483648)).toNat = fRneSat x 2147483648 := by
  have hle := fRneSat_le x 2147483648
  rw [BitVec.toNat_ofNat]
  omega

/-- Settles O15: the fields of `prepared`; the three integers fit their fields. -/
theorem prepareSetsRates : Obligations.PrepareSetsRates := by
  unfold Obligations.PrepareSetsRates
  intro s nch mb fs hlo hhi hmb hmb' hnch
  have hl := (prepareLegal_iff s.cfg nch mb fs).mpr ⟨hlo, hhi, hmb, hnch⟩
  have hmbFits : (BitVec.ofNat 32 mb).toNat = mb := by rw [BitVec.toNat_ofNat]; omega
  have hnchFits : (BitVec.ofNat 32 nch).toNat = nch := by rw [BitVec.toNat_ofNat]; omega
  exact ⟨prepared s nch mb fs, exec_prepare_of_legal hl, rfl, rfl, hmbFits, hnchFits, rfl, rfl, rfl, rfl, rfl, rfl,
    toNat_ofNat_fRneSat _, rfl, rfl, rfl, rfl, rfl, rfl, rfl, rfl, rfl, rfl, rfl, rfl⟩

/-- The row of orders of waveform `w`, and in it the order of a band. -/
theorem buildOrders_row {c : Config} (nyq : F32) {w b : Nat} {bm : F32} (hw : w < 3) (hb : c.bandMax[b]? = some bm) :
    ∃ row, (buildOrders c nyq)[w]? = some row ∧ row[b]? = some (harmonicOrder c nyq w bm) :=
  ⟨c.bandMax.map (harmonicOrder c nyq w), by simp [buildOrders, hw], by simp [hb]⟩

/-- Settles O16: the order by `buildOrders_get`, its bound by `harmonicOrder_pos`, the table point by `buildTables_read`. -/
theorem prepareBuildsTables : Obligations.PrepareBuildsTables := by
  unfold Obligations.PrepareBuildsTables
  intro s t nch mb fs hl h w b k bm hw hb hk
  obtain rfl := eq_prepared_of_exec hl h
  have horder := buildOrders_get s.cfg (prepared s nch mb fs).g.nyq w b bm hw hb
  obtain ⟨row, hrow, hn⟩ := buildOrders_row (prepared s nch mb fs).g.nyq hw hb
  refine ⟨horder, horder ▸ harmonicOrder_pos _ _ _ _, ?_⟩
  exact (buildTables_read s.cfg _ w b k row _ hw hrow hn hk).trans (congrArg (fun o : Word => cfgWtv w o.toNat k) horder.symm)

/-- Settles O17: every voice of the new pool is `preparedVoice`, whose fields are written out in the statement. -/
theorem prepareInitialisesVoices : Obligations.PrepareInitialisesVoices := by
  unfold Obligations.PrepareInitialisesVoices
  intro s t nch mb fs hl h
  obtain rfl := eq_prepared_of_exec hl h
  refine ⟨List.length_replicate, fun v hv => ?_⟩
  have hread : ∀ V : Voice, (List.replicate s.cfg.nv V).getD v Voice.reset = V := fun V => by
    simp [List.getD_eq_getElem?_getD, hv]
  exact hread _

end Sys2Proof.Machine
end

section
/-! PROOFS. NOTE_ON, NOTE_OFF, PITCH_BEND and CONTROLLER (spec 46 R305 to R308, 44 R241 to R263). -/

namespace Sys2Proof.Machine

/-! ### NOTE_ON (44 R241) -/

/-- The state from which an accepted NOTE_ON starts its note: PITCH_WHEEL is written. -/
def wheelSet (w : Nat) (s : State) : State := s.setRegs { s.regs with pitchWheel := BitVec.ofNat 32 w }

/-- An accepted NOTE_ON starts the note. -/
theorem exec_noteOn_of_accepted {s : State} {v : Nat} (n vel w : Nat) (hp : s.g.prepared = true) (hv : v < s.cfg.nv) :
    exec (.noteOn v n vel w) s = .next (startNote (wheelSet w s) v n vel w) := by
  simp only [exec, execNoteOn, hp, Bool.not_true, Bool.false_eq_true, if_false, Nat.not_le.mpr hv, wheelSet]

/-- The envelope of a started note: the rates are pushed and the attack begins from the level held (42 R182, R183). -/
theorem envNoteOn_envPush (s : State) (e : Envelope) :
    envNoteOn (envPush s e) = { e with
      stage := .attack
      ticks := 0#32
      rA := fdiv s.cfg 0x3F800000#32 (fmul s.cfg s.regs.attack s.g.fc)
      rD := fdiv s.cfg (fsub s.cfg 0x3F800000#32 s.regs.sustain) (fmul s.cfg s.regs.decay s.g.fc)
      sus := s.regs.sustain } := by
  simp only [envPush, envNoteOn]
  split <;> rfl

/-- Settles O28: the voice read back is `startVoice`, whose fields the statement writes out. -/
theorem noteOnStartsVoice : Obligations.NoteOnStartsVoice := by
  unfold Obligations.NoteOnStartsVoice
  intro s v n vel7 w hp hv hlen hn hw
  refine ⟨_, exec_noteOn_of_accepted n vel7 w hp hv, ?_⟩
  have hW : (startNote (wheelSet w s) v n vel7 w).voice v =
      startVoice (wheelSet w s) (s.voice v) n vel7 w (xorshift s.g.rng) (xorshift (xorshift s.g.rng)) :=
    State.setVoice_voice_same _ v _ hlen
  have hnote : (BitVec.ofNat 7 n).toNat = n := by rw [BitVec.toNat_ofNat]; omega
  have hwheel : (BitVec.ofNat 32 w).toNat = w := by rw [BitVec.toNat_ofNat]; omega
  dsimp only
  rw [hW]
  exact ⟨rfl, hnote, rfl, rfl, rfl, rfl, rfl, rfl, rfl, rfl, rfl, rfl, rfl, tuned_setFreq (wheelSet w s) _ _,
    tuned_setFreq (wheelSet w s) _ _, envNoteOn_envPush (wheelSet w s) (s.voice v).env, rfl, rfl, rfl, rfl, rfl, rfl, rfl,
    rfl, hwheel⟩

/-- Settles O29: the accepted NOTE_ON is a write of PITCH_WHEEL, of the RNG and of one voice. -/
theorem noteOnFrame : Obligations.NoteOnFrame := by
  unfold Obligations.NoteOnFrame
  intro s t v n vel7 w hp hv h
  rw [exec_noteOn_of_accepted n vel7 w hp hv] at h
  cases h
  exact ⟨fun u hu => State.setVoice_voice_other _ u v _ hu, List.length_set, rfl, rfl, rfl, rfl, rfl⟩

/-! ### NOTE_OFF (44 R258, R262) -/

/-- An accepted NOTE_OFF releases or kills its voice. -/
theorem exec_noteOff_of_accepted {s : State} {v : Nat} (tail : Bool) (rv : Nat) (hp : s.g.prepared = true)
    (hv : v < s.cfg.nv) : exec (.noteOff v tail rv) s =
      .next (s.setVoice v (if tail then releaseVoice s (s.voice v) else killVoice (s.voice v))) := by
  simp only [exec, execNoteOff, hp, Bool.not_true, Bool.false_eq_true, if_false, Nat.not_le.mpr hv]
  cases tail <;> rfl

/-- Settles O30: the two branches of `releaseVoice`. -/
theorem noteOffReleasesVoice : Obligations.NoteOffReleasesVoice := by
  unfold Obligations.NoteOffReleasesVoice
  intro s v rv hp hv hlen
  refine ⟨_, exec_noteOff_of_accepted true rv hp hv, fun h => ?_, fun h => ?_,
    fun u hu => State.setVoice_voice_other _ u v _ hu, List.length_set, rfl, rfl, rfl, rfl, rfl⟩
  · rw [State.setVoice_voice_same _ v _ hlen, if_pos rfl, releaseVoice, if_neg]
    obtain h | h := h <;> simp [h]
  · rw [State.setVoice_voice_same _ v _ hlen, if_pos rfl, releaseVoice, if_pos h]
    rfl

/-- Settles O31: the fields of `killVoice`. -/
theorem noteOffKillsVoice : Obligations.NoteOffKillsVoice := by
  unfold Obligations.NoteOffKillsVoice
  intro s v rv hp hv hlen
  refine ⟨_, exec_noteOff_of_accepted false rv hp hv, ?_⟩
  dsimp only
  rw [State.setVoice_voice_same _ v _ hlen]
  exact ⟨rfl, rfl, rfl, rfl, rfl, rfl, rfl, rfl, rfl, rfl, rfl, rfl, rfl, rfl, rfl, rfl, rfl, rfl,
    fun u hu => State.setVoice_voice_other _ u v _ hu, List.length_set, rfl, rfl, rfl, rfl, rfl⟩

/-! ### PITCH_BEND (44 R263) and CONTROLLER (46 R308) -/

/-- What PITCH_BEND does to a voice: a busy one is retuned (46 R307). -/
def bentVoice (s : State) (w : Nat) (V : Voice) : Voice := if V.busy then bendVoice (wheelSet w s) w V else V

theorem bentVoice_of_idle (s : State) (w : Nat) {V : Voice} (h : V.state = .idle) : bentVoice s w V = V := by
  simp only [bentVoice, busy_of_idle h, Bool.false_eq_true, if_false]

theorem bentVoice_of_busy (s : State) (w : Nat) {V : Voice} (h : V.state ≠ .idle) :
    bentVoice s w V = bendVoice (wheelSet w s) w V := by
  simp only [bentVoice, (busy_iff V).mpr h, if_true]

/-- PITCH_BEND writes PITCH_WHEEL and bends each voice. -/
theorem exec_pitchBend (s : State) (w : Nat) :
    exec (.pitchBend w) s = .next ((wheelSet w s).setVoices (s.voices.map (bentVoice s w))) := rfl

/-- A voice after PITCH_BEND. -/
theorem voice_pitchBend (s : State) (w v : Nat) :
    ((wheelSet w s).setVoices (s.voices.map (bentVoice s w))).voice v = bentVoice s w (s.voice v) :=
  voice_map s _ (bentVoice_of_idle s w rfl) v

/-- Settles O32: a busy voice is `bendVoice`, whose fields are those of `retune`; an idle one stays. -/
theorem pitchBendRetunesBusyVoices : Obligations.PitchBendRetunesBusyVoices := by
  unfold Obligations.PitchBendRetunesBusyVoices
  intro s w hw
  refine ⟨_, exec_pitchBend s w, rfl, rfl, rfl, rfl, rfl, List.length_map _, fun v hv => ⟨fun h => ?_, fun h => ?_⟩⟩
  · rw [voice_pitchBend, bentVoice_of_idle s w h]
  · dsimp only
    rw [voice_pitchBend, bentVoice_of_busy s w h]
    exact ⟨rfl, rfl, rfl, rfl, tuned_setFreq (wheelSet w s) _ _, tuned_setFreq (wheelSet w s) _ _, rfl, rfl⟩

/-- CONTROLLER writes MOD_WHEEL or does nothing. -/
theorem exec_controller (s : State) (cc val : Nat) :
    exec (.controller cc val) s =
      .next (if cc = 1 then s.setRegs { s.regs with modWheel := BitVec.ofNat 32 val } else s) := by
  simp only [exec, execController]
  split <;> rfl

/-- Settles O33: the two branches of `exec_controller`. -/
theorem controllerSetsModWheel : Obligations.ControllerSetsModWheel := by
  unfold Obligations.ControllerSetsModWheel
  intro s cc val hval
  refine ⟨_, exec_controller s cc val, fun h => ?_, fun h => if_neg h⟩
  have hfits : (BitVec.ofNat 32 val).toNat = val := by rw [BitVec.toNat_ofNat]; omega
  rw [if_pos h]
  exact ⟨hfits, rfl⟩

end Sys2Proof.Machine
end

section
/-! PROOFS. Oscillators, smoothers and bands (spec 40 R134, R135; 41 R150 to R161). -/

namespace Sys2Proof.Machine

/-- Settles O47: one sample by definition; the phase is a 32-bit sum. -/
theorem oscillatorSample : Obligations.OscillatorSample := by
  unfold Obligations.OscillatorSample
  exact fun s wave o => ⟨rfl, BitVec.toNat_add _ _, rfl⟩

/-! ### Band selection (40 R134) -/

/-- The scan of three bands or more, one at a time. -/
theorem bandScan_cons_cons (c : Config) (f m m' : F32) (ms : List F32) :
    bandScan c f (m :: m' :: ms) = if flt c f m then 0 else bandScan c f (m' :: ms) + 1 := rfl

/-- The scan of one band or more ends at one of them. -/
theorem bandScan_lt (c : Config) (f m : F32) (ms : List F32) : bandScan c f (m :: ms) < (m :: ms).length := by
  induction ms generalizing m with
  | nil => exact Nat.zero_lt_one
  | cons m' ms ih =>
    have hrest := ih m'
    rw [bandScan_cons_cons]
    simp only [List.length_cons] at *
    split <;> omega

/-- No band before the one found exceeds the frequency. -/
theorem bandScan_before (c : Config) (f m : F32) (ms : List F32) :
    ∀ j, j < bandScan c f (m :: ms) → flt c f ((m :: ms).getD j 0#32) = false := by
  induction ms generalizing m with
  | nil => exact fun j hj => absurd hj (Nat.not_lt_zero j)
  | cons m' ms ih =>
    intro j hj
    rw [bandScan_cons_cons] at hj
    split at hj
    · exact absurd hj (Nat.not_lt_zero j)
    · rename_i hm
      cases j with
      | zero => simpa using hm
      | succ j => exact ih m' j (by omega)

/-- The band found is the last one or exceeds the frequency. -/
theorem bandScan_found (c : Config) (f m : F32) (ms : List F32) :
    bandScan c f (m :: ms) = (m :: ms).length - 1 ∨ flt c f ((m :: ms).getD (bandScan c f (m :: ms)) 0#32) = true := by
  induction ms generalizing m with
  | nil => exact .inl rfl
  | cons m' ms ih =>
    rw [bandScan_cons_cons]
    split
    · rename_i hm; exact .inr hm
    · obtain h | h := ih m'
      · exact .inl (by rw [h]; rfl)
      · exact .inr h

/-- A frequency at least as high exceeds no more bands. -/
theorem flt_of_fle_of_flt {c : Config} {f f' m : F32} (h : fle c f f' = true) (hm : flt c f' m = true) :
    flt c f m = true := by
  obtain ⟨hf, -, hk⟩ := (fle_iff c f f').mp h
  simp only [flt, Bool.and_eq_true, Bool.not_eq_true', decide_eq_true_eq] at *
  exact ⟨⟨hf, hm.1.2⟩, hk.trans_lt hm.2⟩

/-- The scan rises with the frequency (40 R135). -/
theorem bandScan_mono {c : Config} {f f' : F32} (h : fle c f f' = true) (m : F32) (ms : List F32) :
    bandScan c f (m :: ms) ≤ bandScan c f' (m :: ms) := by
  induction ms generalizing m with
  | nil => exact le_refl _
  | cons m' ms ih =>
    rw [bandScan_cons_cons, bandScan_cons_cons]
    by_cases hm : flt c f' m = true
    · rw [if_pos (flt_of_fle_of_flt h hm)]
      exact Nat.zero_le _
    · rw [if_neg hm]
      split
      · exact Nat.zero_le _
      · exact Nat.succ_le_succ (ih m')

/-- A list of one band or more. -/
theorem bandMax_eq_cons {c : Config} (h : 1 ≤ c.nb) : ∃ m ms, c.bandMax = m :: ms :=
  List.exists_cons_of_length_pos h

/-- The band selected is one of the bands; with no band it is 0. -/
theorem bandSelect_lt_of_nb_le {c : Config} {n : Nat} (f : F32) (h0 : 0 < n) (hn : c.nb ≤ n) : bandSelect c f < n := by
  unfold bandSelect
  cases hb : c.bandMax with
  | nil => exact h0
  | cons m ms =>
    have hlen : (m :: ms).length ≤ n := by rw [← hb]; exact hn
    exact (bandScan_lt c f m ms).trans_le hlen

/-- Settles O49: the four lemmas on the scan, for a list of one band or more. -/
theorem bandSelectionIsFirstAndMonotone : Obligations.BandSelectionIsFirstAndMonotone := by
  unfold Obligations.BandSelectionIsFirstAndMonotone
  intro c f hnb
  obtain ⟨m, ms, hb⟩ := bandMax_eq_cons hnb
  simp only [bandSelect, Config.nb, hb]
  exact ⟨bandScan_lt c f m ms, bandScan_before c f m ms, bandScan_found c f m ms, fun f' h => bandScan_mono h m ms⟩

/-! ### Setting a frequency (41 R150) -/

/-- Settles O48: the frequency is a clamp, the increment `setFreq_inc`, and the band fits its four bits. -/
theorem frequencyIsClamped : Obligations.FrequencyIsClamped := by
  unfold Obligations.FrequencyIsClamped
  intro s o f hnyq
  obtain ⟨-, hlo, hhi⟩ := fclamp_range s.cfg (x := f) hnyq
  refine ⟨fun h1 h2 => fclamp_of_mem h1 h2, fun h => fclamp_of_below hnyq h, fun h1 h2 => fclamp_of_above h1 h2, hlo, hhi, ?_,
    setFreq_inc s o f, fun hnb => ?_, rfl, rfl, fun h => feq_of_fle_fle hhi ?_⟩
  · rw [setFreq_inc]
    exact fRneSat_le _ _
  · have hlt := bandSelect_lt_of_nb_le (setFreq s o f).freq (by decide) hnb
    exact Nat.mod_eq_of_lt hlt
  · show fle s.cfg s.g.nyq (fclamp s.cfg f 0#32 s.g.nyq) = true
    by_cases h2 : fle s.cfg f s.g.nyq = true
    · rw [fclamp_of_mem (fle_trans hnyq h) h2]
      exact h
    · rw [fclamp_of_above (fle_trans hnyq h) (by simpa using h2)]
      exact fle_refl s.cfg ((fle_iff _ _ _).mp hnyq).2.1

/-! ### Smoothers (41 R156, R157) -/

/-- A smoother at rest gives its target. -/
theorem smNext_of_rest {c : Config} {m : Smoother} (h : m.cnt = 0#32) : smNext c m = (m.tgt, m) := by
  simp only [smNext, h, if_true]

/-- A smoother at rest stays as it is. -/
theorem smAfter_of_rest {c : Config} {m : Smoother} (h : m.cnt = 0#32) (k : Nat) : smAfter c m k = m := by
  induction k with
  | zero => rfl
  | succ k ih => rw [smAfter, ih, smNext_of_rest h]

/-- One call keeps the target and the step, and the count goes down to 0. -/
theorem smNext_frame (c : Config) (m : Smoother) :
    (smNext c m).2.tgt = m.tgt ∧ (smNext c m).2.step = m.step ∧ (smNext c m).2.cnt.toNat = m.cnt.toNat - 1 := by
  by_cases h : m.cnt = 0#32
  · rw [smNext_of_rest h, h]
    exact ⟨rfl, rfl, rfl⟩
  · have hne : m.cnt.toNat ≠ 0 := fun h0 => h (BitVec.eq_of_toNat_eq h0)
    have hone : (1#32).toNat ≤ m.cnt.toNat := Nat.one_le_iff_ne_zero.mpr hne
    simp only [smNext, h, if_false]
    exact ⟨trivial, trivial, BitVec.toNat_sub_of_le hone⟩

/-- The same for `k` calls. -/
theorem smAfter_frame (c : Config) (m : Smoother) (k : Nat) :
    (smAfter c m k).tgt = m.tgt ∧ (smAfter c m k).step = m.step ∧ (smAfter c m k).cnt.toNat = m.cnt.toNat - k := by
  induction k with
  | zero => exact ⟨rfl, rfl, rfl⟩
  | succ k ih =>
    obtain ⟨htgt, hstep, hcnt⟩ := ih
    obtain ⟨htgt', hstep', hcnt'⟩ := smNext_frame c (smAfter c m k)
    refine ⟨htgt'.trans htgt, hstep'.trans hstep, hcnt'.trans ?_⟩
    rw [hcnt]; omega

/-- A smoother with two calls or more to go moves by its step. -/
theorem smNext_of_two_le {c : Config} {m : Smoother} (h : 2 ≤ m.cnt.toNat) :
    (smNext c m).1 = fadd c m.cur m.step ∧ (smNext c m).2.cur = fadd c m.cur m.step := by
  have h0 : m.cnt ≠ 0#32 := by rintro h0; rw [h0] at h; exact absurd h (by decide)
  have h1 : m.cnt - 1#32 ≠ 0#32 := by bv_omega
  simp only [smNext, h0, h1, if_false, and_self]

/-- A smoother with at most one call to go gives its target. -/
theorem smNext_of_le_one {c : Config} {m : Smoother} (h : m.cnt.toNat ≤ 1) : (smNext c m).1 = m.tgt := by
  by_cases h0 : m.cnt = 0#32
  · rw [smNext_of_rest h0]
  · have h1 : m.cnt - 1#32 = 0#32 := by bv_omega
    simp only [smNext, h0, h1, if_false, if_true]

/-- Settles O50: the three branches of `smSetTarget`, and the count after `k` calls by `smAfter_frame`. -/
theorem smootherReachesTarget : Obligations.SmootherReachesTarget := by
  unfold Obligations.SmootherReachesTarget
  intro c m t
  refine ⟨fun h => ?_, fun h hlen => ?_, fun h hlen => ?_⟩
  · simp only [smSetTarget, h, if_true]
  · have hm : smSetTarget c m t = { m with cur := t, tgt := t, cnt := 0#32 } := by
      simp only [smSetTarget, h, hlen, Bool.false_eq_true, if_false, if_true]
    refine ⟨hm, fun k => ?_⟩
    rw [hm, smValue, smAfter_of_rest rfl, smNext_of_rest rfl]
  · have hm : smSetTarget c m t =
        { m with tgt := t, cnt := m.len, step := fdiv c (fsub c t m.cur) (fOfNat c m.len.toNat) } := by
      simp only [smSetTarget, h, hlen, Bool.false_eq_true, if_false]
    have hcnt : (smSetTarget c m t).cnt = m.len := by rw [hm]
    have htgt : (smSetTarget c m t).tgt = t := by rw [hm]
    refine ⟨hm, fun k hk => ?_, fun k hk => ?_⟩
    · obtain ⟨-, hstep, hleft⟩ := smAfter_frame c (smSetTarget c m t) k
      obtain ⟨hval, hcur⟩ := smNext_of_two_le (c := c) (m := smAfter c (smSetTarget c m t) k) (by rw [hleft, hcnt]; omega)
      rw [← hstep]
      exact ⟨hval, hcur.trans hval.symm⟩
    · obtain ⟨htgt', -, hleft⟩ := smAfter_frame c (smSetTarget c m t) k
      rw [smValue, smNext_of_le_one (by rw [hleft, hcnt]; omega), htgt', htgt]

end Sys2Proof.Machine
end

section
/-! PROOFS. The voice between two samples (spec 42 R185, 44 R250 to R254): the envelope tick, the control update, the counters and
the fade. -/

namespace Sys2Proof.Machine

/-! ### The envelope tick (42 R185) -/

section Tick
variable (c : Config) {e : Envelope}

theorem envTick_idle (h : e.stage = .idle) : envTick c e = { e with level := 0#32 } := by
  simp only [envTick, h]

theorem envTick_attack_end (h : e.stage = .attack) (hl : fle c 0x3F800000#32 (fadd c e.level e.rA) = true) :
    envTick c e =
      { e with level := 0x3F800000#32, stage := if flt c 0#32 e.rD then .decay else .sustain, ticks := 0#32 } := by
  simp only [envTick, h, hl, if_true]

theorem envTick_attack (h : e.stage = .attack) (hl : fle c 0x3F800000#32 (fadd c e.level e.rA) = false) :
    envTick c e = { e with level := fadd c e.level e.rA, ticks := satInc e.ticks } := by
  simp only [envTick, h, hl, Bool.false_eq_true, if_false]

theorem envTick_decay_end (h : e.stage = .decay) (hl : fle c (fsub c e.level e.rD) e.sus = true) :
    envTick c e = { e with level := e.sus, stage := .sustain, ticks := 0#32 } := by
  simp only [envTick, h, hl, if_true]

theorem envTick_decay (h : e.stage = .decay) (hl : fle c (fsub c e.level e.rD) e.sus = false) :
    envTick c e = { e with level := fsub c e.level e.rD, ticks := satInc e.ticks } := by
  simp only [envTick, h, hl, Bool.false_eq_true, if_false]

theorem envTick_sustain (h : e.stage = .sustain) : envTick c e = { e with level := e.sus, ticks := satInc e.ticks } := by
  simp only [envTick, h]

theorem envTick_release_end (h : e.stage = .release) (hl : fle c (fsub c e.level e.rR) 0#32 = true) :
    envTick c e = { e with level := 0#32, stage := .idle, ticks := 0#32 } := by
  simp only [envTick, h, hl, if_true]

theorem envTick_release (h : e.stage = .release) (hl : fle c (fsub c e.level e.rR) 0#32 = false) :
    envTick c e = { e with level := fsub c e.level e.rR, ticks := satInc e.ticks } := by
  simp only [envTick, h, hl, Bool.false_eq_true, if_false]

/-- A tick writes the stage, the level and the tick counter alone. -/
theorem envTick_frame (c : Config) (e : Envelope) :
    envTick c e =
      { e with stage := (envTick c e).stage, level := (envTick c e).level, ticks := (envTick c e).ticks } := by
  unfold envTick
  split
  · rfl
  · dsimp only; split <;> rfl
  · dsimp only; split <;> rfl
  · rfl
  · dsimp only; split <;> rfl

/-- The tick counter: 0 in a new stage, one higher in the same one unless that is IDLE. -/
theorem envTick_ticks (c : Config) (e : Envelope) :
    ((envTick c e).stage ≠ e.stage → (envTick c e).ticks = 0#32) ∧
    ((envTick c e).stage = e.stage → e.stage ≠ .idle → (envTick c e).ticks = satInc e.ticks) := by
  cases h : e.stage with
  | idle => rw [envTick_idle c h]; simp [h]
  | attack =>
    cases hl : fle c 0x3F800000#32 (fadd c e.level e.rA) with
    | true => rw [envTick_attack_end c h hl]; dsimp only; split <;> simp
    | false => rw [envTick_attack c h hl]; simp [h]
  | decay =>
    cases hl : fle c (fsub c e.level e.rD) e.sus with
    | true => rw [envTick_decay_end c h hl]; simp
    | false => rw [envTick_decay c h hl]; simp [h]
  | sustain => rw [envTick_sustain c h]; simp [h]
  | release =>
    cases hl : fle c (fsub c e.level e.rR) 0#32 with
    | true => rw [envTick_release_end c h hl]; simp
    | false => rw [envTick_release c h hl]; simp [h]

end Tick

/-- Settles O51: the equations of the tick, stage by stage. -/
theorem envelopeTickTransitions : Obligations.EnvelopeTickTransitions := by
  unfold Obligations.EnvelopeTickTransitions
  intro c e
  obtain ⟨hnew, hsame⟩ := envTick_ticks c e
  refine ⟨fun h => ?_, fun h => ⟨fun hl => ?_, fun hl => ?_⟩, fun h => ⟨fun hl => ?_, fun hl => ?_⟩, fun h => ?_,
    fun h => ⟨fun hl => ?_, fun hl => ?_⟩, hnew, fun h hidle => ?_, envTick_frame c e⟩
  · rw [envTick_idle c h]; exact ⟨h, rfl, rfl⟩
  · rw [envTick_attack c h hl]; exact ⟨h, rfl⟩
  · rw [envTick_attack_end c h hl]
    exact ⟨rfl, fun hd => if_pos hd, fun hd => if_neg (by simp [hd])⟩
  · rw [envTick_decay c h hl]; exact ⟨h, rfl⟩
  · rw [envTick_decay_end c h hl]; exact ⟨rfl, rfl⟩
  · rw [envTick_sustain c h]; exact ⟨h, rfl⟩
  · rw [envTick_release c h hl]; exact ⟨h, rfl⟩
  · rw [envTick_release_end c h hl]; exact ⟨rfl, rfl⟩
  · rw [hsame h hidle, satInc_toNat]

/-! ### The control update (44 R250) -/

/-- The envelope part of a control update writes the envelope, the lifecycle state and the fade timer. -/
theorem envUpdate_eq (s : State) (V : Voice) :
    ∃ st fd, envUpdate s V = { V with env := envTick s.cfg (envPush s V.env), state := st, fade := fd } := by
  unfold envUpdate
  dsimp only
  split
  · exact ⟨_, _, rfl⟩
  · exact ⟨_, _, rfl⟩

/-- Settles O46: the lifecycle by `controlUpdate_state`, the other fields by definition once `envUpdate` is written out. -/
theorem controlUpdateEffects : Obligations.ControlUpdateEffects := by
  unfold Obligations.ControlUpdateEffects
  intro s V
  have hlife := controlUpdate_state s V
  obtain ⟨st, fd, henv⟩ := envUpdate_eq s V
  refine ⟨controlUpdate_env s V, fun h1 h2 => ?_, fun hn => ?_, ?_, ?_, ?_, ?_, ?_, ?_, tuned_setFreq _ _ _, rfl, ?_⟩
  · obtain ⟨-, -, hn⟩ | ⟨-, -, hst, hfd⟩ := hlife
    · exact absurd ⟨h1, h2⟩ hn
    · exact ⟨hst, hfd⟩
  · obtain ⟨hst, hfd, -⟩ | ⟨h1, h2, -⟩ := hlife
    · exact ⟨hst, hfd⟩
    · exact absurd ⟨h1, h2⟩ hn
  all_goals
    unfold controlUpdate
    rw [henv]
    rfl

/-! ### The counters of a sample (44 R252, R253) -/

/-- The voice from which a sample is made: a control update is due when the sub-block counter is 0 (44 R252). -/
def dueUpdate (s : State) (V : Voice) : Voice := if V.sbc = 0#32 then controlUpdate s V else V

theorem voiceSample_eq (s : State) (V : Voice) : voiceSample s V = voiceChain s (dueUpdate s V) := rfl

/-- What a fade step leaves. -/
theorem fadeStep_frame (V : Voice) :
    (fadeStep V).env = V.env ∧ (fadeStep V).wave = V.wave ∧ (fadeStep V).sbc = V.sbc := by
  obtain ⟨-, h⟩ | ⟨-, -, h⟩ | ⟨-, -, h⟩ := fadeStep_cases V <;> rw [h] <;> exact ⟨rfl, rfl, rfl⟩

/-- The signal chain leaves the envelope and the waveform, and counts the sub-block down. -/
theorem voiceChain_frame (s : State) (V : Voice) :
    (voiceChain s V).2.env = V.env ∧ (voiceChain s V).2.wave = V.wave ∧ (voiceChain s V).2.sbc = V.sbc - 1#32 :=
  fadeStep_frame _

/-- The fade timer over the signal chain: it runs in FADING alone, and the voice is IDLE when it has run out (44 R253). -/
theorem voiceChain_life (s : State) (V : Voice) :
    (V.state ≠ .fading ∧ (voiceChain s V).2.state = V.state ∧ (voiceChain s V).2.fade = V.fade) ∨
    (V.state = .fading ∧ V.fade.toNat ≤ 1 ∧ (voiceChain s V).2.state = .idle ∧ (voiceChain s V).2.fade = 0#32) ∨
    (V.state = .fading ∧ 1 < V.fade.toNat ∧ (voiceChain s V).2.state = .fading ∧
      (voiceChain s V).2.fade = V.fade - 1#32) := by
  simp only [voiceChain]
  obtain ⟨hst, h⟩ | ⟨hst, hfd, h⟩ | ⟨hst, hfd, h⟩ := fadeStep_cases
    { V with
      osc1 := (oscSample s V.wave V.osc1).2
      osc2 := (oscSample s V.wave V.osc2).2
      flt := (filterSample s V.drive V.flt (fadd s.cfg (oscSample s V.wave V.osc1).1 (oscSample s V.wave V.osc2).1)).2
      sbc := V.sbc - 1#32 }
  · rw [h]; exact .inl ⟨hst, rfl, rfl⟩
  · rw [h]; exact .inr (.inl ⟨hst, hfd, rfl, rfl⟩)
  · rw [h]; exact .inr (.inr ⟨hst, hfd, hst, rfl⟩)

/-- A counter that is not 0 goes down by one. -/
theorem toNat_sub_one {n : Nat} {x : BitVec (n + 1)} (h : x.toNat ≠ 0) : (x - 1#(n + 1)).toNat = x.toNat - 1 := by
  have hone : (1#(n + 1)).toNat ≤ x.toNat := by
    rw [BitVec.toNat_ofNat]
    exact (Nat.mod_le _ _).trans (Nat.one_le_iff_ne_zero.mpr h)
  rw [BitVec.toNat_sub_of_le hone, BitVec.toNat_ofNat, Nat.mod_eq_of_lt (Nat.one_lt_two_pow (Nat.succ_ne_zero n))]

/-- Settles O45: the branch of `voiceSample`, and the counter that the chain counts down. -/
theorem subBlockCounter : Obligations.SubBlockCounter := by
  unfold Obligations.SubBlockCounter
  intro s V hlo hhi
  refine ⟨fun h => ?_, fun h => ?_⟩
  · have hdue : voiceSample s V = voiceChain s (controlUpdate s V) := by rw [voiceSample_eq, dueUpdate, if_pos h]
    obtain ⟨-, -, hsbc⟩ := voiceChain_frame s (controlUpdate s V)
    have hsub : (BitVec.ofNat 32 s.cfg.sub).toNat = s.cfg.sub := by rw [BitVec.toNat_ofNat]; omega
    refine ⟨hdue, ?_⟩
    rw [hdue, hsbc, controlUpdate_sbc, toNat_sub_one (by rw [hsub]; omega), hsub]
  · have hdue : voiceSample s V = voiceChain s V := by rw [voiceSample_eq, dueUpdate, if_neg h]
    obtain ⟨-, -, hsbc⟩ := voiceChain_frame s V
    refine ⟨hdue, ?_⟩
    rw [hdue, hsbc, toNat_sub_one fun h0 => h (BitVec.eq_of_toNat_eq h0)]

/-! ### The fade (44 R253) -/

/-- A control update that is due leaves a FADING voice FADING and its timer alone. -/
theorem dueUpdate_of_fading (s : State) {V : Voice} (h : V.state = .fading) :
    (dueUpdate s V).state = .fading ∧ (dueUpdate s V).fade = V.fade := by
  unfold dueUpdate
  split
  · obtain ⟨hst, hfd, -⟩ | ⟨hrel, -⟩ := controlUpdate_state s V
    · exact ⟨hst.trans h, hfd⟩
    · rw [h] at hrel; cases hrel
  · exact ⟨h, rfl⟩

/-- One frame of a FADING voice: the timer goes down, or it has run out and the voice is IDLE. -/
theorem voiceFrame_of_fading (s : State) {V : Voice} (h : V.state = .fading) :
    (V.fade.toNat ≤ 1 → (voiceFrame s V).state = .idle ∧ (voiceFrame s V).fade = 0#32) ∧
    (1 < V.fade.toNat → (voiceFrame s V).state = .fading ∧ (voiceFrame s V).fade.toNat = V.fade.toNat - 1) := by
  obtain ⟨hst, hfd⟩ := dueUpdate_of_fading s h
  have hbusy : V.busy = true := (busy_iff V).mpr (by simp [h])
  have hframe : voiceFrame s V = (voiceChain s (dueUpdate s V)).2 := by
    rw [voiceFrame, if_pos hbusy, voiceSample_eq]
  rw [hframe]
  obtain ⟨hn, -⟩ | ⟨-, hle, hst', hfd'⟩ | ⟨-, hlt, hst', hfd'⟩ := voiceChain_life s (dueUpdate s V)
  · exact absurd hst hn
  · rw [hfd] at hle
    exact ⟨fun _ => ⟨hst', hfd'⟩, fun hlt => by omega⟩
  · rw [hfd] at hlt hfd'
    exact ⟨fun hle => by omega, fun _ => ⟨hst', by rw [hfd', toNat_sub_one (by omega)]⟩⟩

/-- A FADING voice over `k` frames, as long as its timer runs. -/
theorem voiceRun_of_fading (s : State) (k : Nat) {V : Voice} (h : V.state = .fading) (hk : k < V.fade.toNat) :
    (voiceRun s k V).state = .fading ∧ (voiceRun s k V).fade.toNat = V.fade.toNat - k := by
  induction k generalizing V with
  | zero => exact ⟨h, rfl⟩
  | succ k ih =>
    obtain ⟨hst, hfd⟩ := (voiceFrame_of_fading s h).2 (by omega)
    obtain ⟨hst', hfd'⟩ := ih hst (by omega)
    rw [voiceRun_succ]
    exact ⟨hst', by omega⟩

/-- A FADING voice once its timer has run out. -/
theorem voiceRun_past_fade (s : State) (k : Nat) {V : Voice} (h : V.state = .fading) (h1 : 1 ≤ V.fade.toNat)
    (hk : V.fade.toNat ≤ k) : (voiceRun s k V).state = .idle ∧ (voiceRun s k V).fade = 0#32 := by
  induction k generalizing V with
  | zero => omega
  | succ k ih =>
    rw [voiceRun_succ]
    obtain ⟨hend, hrun⟩ := voiceFrame_of_fading s h
    by_cases hone : V.fade.toNat ≤ 1
    · obtain ⟨hst, hfd⟩ := hend hone
      rw [voiceRun_of_idle s k hst]
      exact ⟨hst, hfd⟩
    · obtain ⟨hst, hfd⟩ := hrun (by omega)
      exact ih hst (by omega) (by omega)

/-- Settles O44: the run of a FADING voice before and after its timer has run out. -/
theorem fadeTimerEndsVoice : Obligations.FadeTimerEndsVoice := by
  unfold Obligations.FadeTimerEndsVoice
  exact fun s V h h1 => ⟨fun k hk => voiceRun_of_fading s k h hk, fun k hk => voiceRun_past_fade s k h h1 hk⟩

end Sys2Proof.Machine
end

section
/-! PROOFS. The machine invariant (spec 10 R31 to R41, 44 R251, R257, 45 R288, 60 R342): it holds at reset, each kind of update of the
state keeps it, and so does every command and every step. -/

namespace Sys2Proof.Machine

/-! ### What legal parameters give (00 R7) -/

/-- The bounds of the sub-block length. -/
theorem legalConfig_sub {c : Config} (h : legalConfig c = true) : 1 ≤ c.sub ∧ c.sub ≤ 65535 := by
  simp only [legalConfig, Bool.and_eq_true, decide_eq_true_eq] at h
  omega

/-- The default seed is not 0. -/
theorem legalConfig_seed {c : Config} (h : legalConfig c = true) : c.defaultSeed ≠ 0#32 := by
  simp only [legalConfig, Bool.and_eq_true, decide_eq_true_eq] at h
  simp only [h, ne_eq, not_false_eq_true]

/-! ### Subtracting a zero -/

/-- The magnitude bits of an operand as it is read. -/
theorem fMag_fIn (c : Config) (x : F32) : fMag (fIn c x) = flushMag c (fMag x) := by
  unfold fIn flushMag
  cases c.ftz with
  | false => simp
  | true =>
    simp only [fIsSubnormal, Bool.true_and, Bool.and_eq_true, decide_eq_true_eq]
    split <;> split
    · exact fMag_fPack _ _ (by decide)
    · omega
    · omega
    · rfl

/-- Reading an operand commutes with the unary minus. -/
theorem fIn_fNeg (c : Config) (x : F32) : fIn c (fNeg x) = fNeg (fIn c x) :=
  f32_ext (by simp only [fSign_fIn, fSign_fNeg]) (by simp only [fMag_fIn, fMag_fNeg])

/-- A difference is a sum with the negated operand. -/
theorem fsub_eq_fadd_fNeg (c : Config) (x y : F32) : fsub c x y = fadd c x (fNeg y) := by
  rw [fsub, fadd, fIn_fNeg]

/-- Subtracting a zero from a value that is no zero and is not flushed gives the value. -/
theorem fsub_zero (c : Config) (x z : F32) (h : fIsFinite x = true) (hs : fIsSubnormal x = false ∨ c.ftz = false)
    (hx : fMag x ≠ 0) (hz : fMag z = 0) : fsub c x z = x := by
  rw [fsub_eq_fadd_fNeg, fadd_zero c x _ h hs hx (by rw [fMag_fNeg, hz])]

/-! ### At reset -/

/-- The registers at reset are legal: CUTOFF at its upper bound, every other one at a fixed value of its range (10 R31). -/
theorem legalRegs_reset {c : Config} (h : legalConfig c = true) : legalRegs c (Regs.reset c) := by
  have hfixed : ∀ p : ParamReg, p ≠ .cutoff → fIsFinite (getParam (Regs.reset c) p) = true ∧
      fLeRaw (paramLo c p) (getParam (Regs.reset c) p) = true ∧ fLeRaw (getParam (Regs.reset c) p) (paramHi c p) = true ∧
      getParam (Regs.reset c) p ≠ 0x80000000#32 := by
    intro p hp
    cases p with
    | cutoff => exact absurd rfl hp
    | _ =>
      dsimp only [getParam, Regs.reset, paramLo, paramHi]
      decide
  refine ⟨fun p => ?_, by simp only [Regs.reset]; decide, by simp only [Regs.reset]; decide,
    by simp only [Regs.reset]; decide, by simp only [Regs.reset]; decide⟩
  by_cases hp : p = .cutoff
  · subst hp
    obtain ⟨hmin, hmax, hle⟩ := legalConfig_cutoff h
    refine ⟨hmax, fle_of_fLeRaw c hle, fle_refl c (not_nan_of_finite hmax), ?_⟩
    intro hneg
    have hneg : c.maxCutoff = 0x80000000#32 := hneg
    rw [hneg] at hle
    have hzero : fLeRaw c.minCutoff 0#32 = true := hle
    simp only [positive, hzero, Bool.not_true, Bool.and_false, Bool.false_eq_true] at hmin
  · obtain ⟨hfin, hlo, hhi, hneg⟩ := hfixed p hp
    exact ⟨hfin, fle_of_fLeRaw c hlo, fle_of_fLeRaw c hhi, hneg⟩

/-- A voice at reset is legal. -/
theorem legalVoice_reset (c : Config) : legalVoice c Voice.reset :=
  ⟨rfl, by decide, Nat.zero_le _, Nat.zero_le _⟩

/-- The invariant holds at reset. -/
theorem inv_resetWith {c : Config} (p : Ports) (h : legalConfig c = true) : Inv (State.resetWith c p) where
  cfg := h
  pool := List.length_replicate
  regs := legalRegs_reset h
  rng := legalConfig_seed h
  voices := fun V hV => (List.mem_replicate.mp hV).2 ▸ legalVoice_reset c
  record := ⟨fun _ => ⟨rfl, rfl, rfl⟩, fun herr => Bool.noConfusion herr⟩
  built := fun hp => Bool.noConfusion hp
  silent := fun _ V hV => (List.mem_replicate.mp hV).2 ▸ rfl
  dryWet := (fsub_zero c 0x3F800000#32 0#32 (by decide) (.inl (by decide)) (by decide) (by decide)).symm

/-- Settles O59: the reset state meets the invariant clause by clause, and the default parameters are legal. -/
theorem invariantHoldsAtReset : Obligations.InvariantHoldsAtReset := by
  unfold Obligations.InvariantHoldsAtReset
  exact ⟨fun c p h => inv_resetWith p h, inv_resetWith Ports.reset (by decide +kernel)⟩

/-! ### Updates that keep the invariant -/

/-- The two global states agree in what PREPARE derives from its operands. -/
structure SameRates (g g' : Global) : Prop where
  prepared : g'.prepared = g.prepared
  fs : g'.fs = g.fs
  maxBlock : g'.maxBlock = g.maxBlock
  nch : g'.nch = g.nch
  nyq : g'.nyq = g.nyq
  incScale : g'.incScale = g.incScale
  cutScale : g'.cutScale = g.cutScale
  fc : g'.fc = g.fc
  fRamp : g'.fRamp = g.fRamp
  idleLen : g'.idleLen = g.idleLen
  lfoInc : g'.lfoInc = g.lfoInc
  order : g'.order = g.order

/-- What PREPARE has built depends on the derived rates alone. -/
theorem preparedOk_setG {s : State} {g : Global} (hr : SameRates s.g g) (h : preparedOk s) : preparedOk (s.setG g) := by
  simp only [preparedOk, ratesOk, prepareRates, State.setG_cfg, State.setG_g, State.setG_wt, hr.fs, hr.maxBlock, hr.nch,
    hr.nyq, hr.incScale, hr.cutScale, hr.fc, hr.fRamp, hr.idleLen, hr.lfoInc, hr.order] at *
  exact h

section Updates
variable {s : State} (h : Inv s)
include h

theorem Inv.setPorts (p : Ports) : Inv (s.setPorts p) := by
  obtain ⟨hcfg, hpool, hregs, hrng, hvoices, hrecord, hbuilt, hsilent, hdryWet⟩ := h
  exact ⟨hcfg, hpool, hregs, hrng, hvoices, hrecord, hbuilt, hsilent, hdryWet⟩

theorem Inv.setRegs {r : Regs} (hr : legalRegs s.cfg r) : Inv (s.setRegs r) := by
  obtain ⟨hcfg, hpool, -, hrng, hvoices, hrecord, hbuilt, hsilent, hdryWet⟩ := h
  exact ⟨hcfg, hpool, hr, hrng, hvoices, hrecord, hbuilt, hsilent, hdryWet⟩

theorem Inv.setVoices {vs : List Voice} (hlen : vs.length = s.voices.length) (hlegal : ∀ V ∈ vs, legalVoice s.cfg V)
    (hidle : s.g.prepared = false → ∀ V ∈ vs, V.state = .idle) : Inv (s.setVoices vs) := by
  obtain ⟨hcfg, hpool, hregs, hrng, -, hrecord, hbuilt, -, hdryWet⟩ := h
  exact ⟨hcfg, hlen.trans hpool, hregs, hrng, hlegal, hrecord, hbuilt, hidle, hdryWet⟩

theorem Inv.setG {g : Global} (hr : SameRates s.g g) (hrng : g.rng ≠ 0#32) (hrecord : legalRecord g)
    (hdryWet : g.gDryLast = fsub s.cfg 0x3F800000#32 g.gWetLast) : Inv (s.setG g) := by
  obtain ⟨hcfg, hpool, hregs, -, hvoices, -, hbuilt, hsilent, -⟩ := h
  exact ⟨hcfg, hpool, hregs, hrng, hvoices, hrecord, fun hp => preparedOk_setG hr (hbuilt (hr.prepared.symm.trans hp)),
    fun hp => hsilent (hr.prepared.symm.trans hp), hdryWet⟩

/-- In a prepared machine a voice may be set to any legal one. -/
theorem Inv.setVoice (hp : s.g.prepared = true) (v : Nat) {V : Voice} (hV : legalVoice s.cfg V) : Inv (s.setVoice v V) := by
  refine h.setVoices List.length_set (fun W hW => ?_) (fun hn => absurd (hp.symm.trans hn) (by decide))
  obtain hW | rfl := List.mem_or_eq_of_mem_set hW
  · exact h.voices W hW
  · exact hV

/-- A map that keeps legal voices legal and idle ones idle may be applied to the pool. -/
theorem Inv.mapVoices {f : Voice → Voice} (hf : ∀ V, legalVoice s.cfg V → legalVoice s.cfg (f V))
    (hidle : ∀ V, V.state = .idle → (f V).state = .idle) : Inv (s.setVoices (s.voices.map f)) := by
  refine h.setVoices (List.length_map _) (fun W hW => ?_) (fun hp W hW => ?_)
  · obtain ⟨V, hV, rfl⟩ := List.mem_map.mp hW
    exact hf V (h.voices V hV)
  · obtain ⟨V, hV, rfl⟩ := List.mem_map.mp hW
    exact hidle V (h.silent hp V hV)

theorem Inv.setRng {r : Word} (hr : r ≠ 0#32) : Inv (s.setG { s.g with rng := r }) :=
  h.setG (by constructor <;> rfl) hr h.record h.dryWet

/-- The error action keeps the record consistent: a first error makes the count 1, and no count wraps to 0 (60 R342). -/
theorem Inv.raiseError (e : ErrorCode) (op : Byte) : Inv (raiseError e op s) := by
  refine h.setG (by constructor <;> rfl) h.rng ⟨fun herr => Bool.noConfusion herr, fun _ => ?_⟩ h.dryWet
  obtain ⟨-, hlater⟩ := h.record
  have hcount : (Machine.raiseError e op s).g.errCount ≠ 0#16 := by
    intro h0
    have hn := raiseError_errCount e op s
    rw [h0, BitVec.toNat_ofNat] at hn
    omega
  have hcode : 1 ≤ (Machine.raiseError e op s).g.errCode.toNat ∧ (Machine.raiseError e op s).g.errCode.toNat ≤ 7 := by
    cases herr : s.g.err with
    | false => rw [(raiseError_first herr e op).1]; exact errorByte_range e
    | true =>
      obtain ⟨h1, h7, -⟩ := hlater herr
      rw [(raiseError_later herr e op).1]
      exact ⟨h1, h7⟩
  exact ⟨hcode.1, hcode.2, hcount⟩

/-- Closing a block moves both reverb gains together or neither (45 R288). -/
theorem Inv.closeBlock {b : Block} (hb : b.tD = fsub s.cfg 0x3F800000#32 b.tW) : Inv (closeBlock b s) := by
  unfold Machine.closeBlock
  split
  · refine h.setG (by constructor <;> rfl) h.rng h.record ?_
    cases b.active
    · exact h.dryWet
    · exact hb
  · exact h

end Updates

/-! ### Legal registers (10 R31 to R36) -/

theorem legalRegs_putParam {c : Config} {r : Regs} (h : legalRegs c r) (p : ParamReg) {x : F32} (hx : legalParam c p x) :
    legalRegs c (putParam r p x) := by
  obtain ⟨hparam, hwave, hmod, hwheel, hctrl⟩ := h
  refine ⟨fun q => ?_, by simpa using hwave, by simpa using hmod, by simpa using hwheel, by simpa using hctrl⟩
  by_cases hq : q = p
  · subst hq
    rw [getParam_putParam_same]
    exact hx
  · rw [getParam_putParam_other r p q x hq]
    exact hparam q

theorem legalRegs_pitchWheel {c : Config} {r : Regs} (h : legalRegs c r) {w : Nat} (hw : w < 16384) :
    legalRegs c { r with pitchWheel := BitVec.ofNat 32 w } := by
  obtain ⟨hparam, hwave, hmod, -, hctrl⟩ := h
  refine ⟨fun p => ?_, hwave, hmod, ?_, hctrl⟩
  · cases p <;> exact hparam _
  · rw [BitVec.toNat_ofNat]; omega

theorem legalRegs_modWheel {c : Config} {r : Regs} (h : legalRegs c r) {w : Nat} (hw : w < 128) :
    legalRegs c { r with modWheel := BitVec.ofNat 32 w } := by
  obtain ⟨hparam, hwave, -, hwheel, hctrl⟩ := h
  refine ⟨fun p => ?_, hwave, ?_, hwheel, hctrl⟩
  · cases p <;> exact hparam _
  · rw [BitVec.toNat_ofNat]; omega

/-- A completed register write keeps the invariant. -/
theorem Inv.writeReg {s t : State} {r : Option Reg} {d : Word} (h : Inv s) (hw : writeReg s r d = .ok t) : Inv t := by
  obtain ⟨hparam, hwave, hmod, hwheel, hctrl⟩ := h.regs
  obtain ⟨-, rfl⟩ | ⟨-, rfl⟩ | ⟨-, rfl⟩ | ⟨p, -, hd, rfl⟩ := writeReg_ok hw
  · refine h.setRegs ⟨fun p => ?_, ?_, hmod, hwheel, hctrl⟩
    · cases p <;> exact hparam _
    · dsimp only; split
      · omega
      · decide
  · refine h.setRegs ⟨fun p => ?_, hwave, hmod, hwheel, ?_⟩
    · cases p <;> exact hparam _
    · rw [BitVec.toNat_and]; exact Nat.and_le_right
  · refine h.setRng ?_
    split
    · exact legalConfig_seed h.cfg
    · assumption
  · exact h.setRegs (legalRegs_putParam h.regs p (storedParam_legal h.cfg p hd))

/-! ### Legal voices (44 R251, R257) -/

/-- A voice that is not FADING and has no timer running meets the clause on the timer. -/
theorem fadeClause_of_not_fading {V : Voice} (hst : V.state ≠ .fading) (hfd : V.fade = 0#32) :
    V.state = .fading ↔ V.fade ≠ 0#32 :=
  ⟨fun h => absurd h hst, fun h => absurd hfd h⟩

/-- A legal voice that is not FADING has no timer running. -/
theorem legalVoice_fade {c : Config} {V : Voice} (h : legalVoice c V) (hst : V.state ≠ .fading) : V.fade = 0#32 := by
  obtain ⟨-, hfade, -, -⟩ := h
  by_contra hfd
  exact hst (hfade.mpr hfd)

theorem legalVoice_startVoice {s : State} (hr : legalRegs s.cfg s.regs) (V : Voice) (n vel w : Nat) (r1 r2 : Word) :
    legalVoice s.cfg (startVoice s V n vel w r1 r2) := by
  obtain ⟨-, hwave, -⟩ := hr
  refine ⟨rfl, fadeClause_of_not_fading (by simp) rfl, Nat.zero_le _, ?_⟩
  rw [startVoice_wave, BitVec.extractLsb'_toNat]
  exact (Nat.mod_le _ _).trans hwave

theorem legalVoice_killVoice {c : Config} {V : Voice} (h : legalVoice c V) : legalVoice c (killVoice V) := by
  obtain ⟨-, -, -, hwave⟩ := h
  exact ⟨rfl, fadeClause_of_not_fading (by simp) rfl, Nat.zero_le _, hwave⟩

/-- A released voice is in RELEASE: the stage of a PLAYING or RELEASING voice is not IDLE. -/
theorem legalVoice_releaseVoice {s : State} {V : Voice} (h : legalVoice s.cfg V) : legalVoice s.cfg (releaseVoice s V) := by
  unfold releaseVoice
  split
  · rename_i hst
    have hnotFading : V.state ≠ .fading := by obtain hst | hst := hst <;> simp [hst]
    have hfade := legalVoice_fade h hnotFading
    obtain ⟨hstage, -, hsbc, hwave⟩ := h
    have hnotIdle : V.env.stage ≠ .idle := by
      intro hidle
      obtain hst | hst := hst <;> simp [hst, hidle, stageFits] at hstage
    refine ⟨?_, fadeClause_of_not_fading (by simp) hfade, hsbc, hwave⟩
    simp [envNoteOff, hnotIdle, stageFits]
  · exact h

/-- Retuning a voice keeps it legal. -/
theorem legalVoice_bentVoice {s : State} (w : Nat) {V : Voice} (h : legalVoice s.cfg V) :
    legalVoice s.cfg (bentVoice s w V) := by
  unfold bentVoice
  split
  · have hsame := retune_same (wheelSet w s)
      { V with fbase := fmul s.cfg (noteFreq s.cfg V.note.toNat) (bendMult s.cfg w) }
    obtain ⟨hstage, hfade, hsbc, hwave⟩ := h
    refine ⟨?_, ?_, ?_, ?_⟩
    · exact hsame.state.symm ▸ hsame.env.symm ▸ hstage
    · exact hsame.state.symm ▸ hsame.fade.symm ▸ hfade
    · exact hsame.sbc.symm ▸ hsbc
    · exact hsame.wave.symm ▸ hwave
  · exact h

theorem bentVoice_state (s : State) (w : Nat) (V : Voice) : (bentVoice s w V).state = V.state := by
  unfold bentVoice
  split
  · exact (retune_same (wheelSet w s) _).state
  · rfl

/-- The stage after a push and a tick still fits the voice, unless a RELEASING voice's envelope has ended (44 R251). -/
theorem stageFits_tick {s : State} {V : Voice} (h : stageFits V.state V.env.stage = true) :
    stageFits V.state (envTick s.cfg (envPush s V.env)).stage = true ∨
      (V.state = .releasing ∧ (envTick s.cfg (envPush s V.env)).stage = .idle) := by
  obtain ⟨-, -, hpush⟩ := envPush_cases s V.env
  have htick := envTick_stage s.cfg (envPush s V.env)
  cases hst : V.state with
  | idle | fading =>
    simp only [hst, stageFits, beq_iff_eq] at h ⊢
    simp only [h, reduceCtorEq, false_and, or_false] at hpush
    simp only [hpush, reduceCtorEq, false_and, or_false] at htick
    exact .inl htick
  | releasing =>
    simp only [hst, stageFits, beq_iff_eq, true_and] at h ⊢
    simp only [h, reduceCtorEq, false_and, or_false] at hpush
    simp only [hpush, reduceCtorEq, false_and, false_or, true_and] at htick
    exact htick
  | playing =>
    have hplay : (envPush s V.env).stage = .attack ∨ (envPush s V.env).stage = .decay ∨ (envPush s V.env).stage = .sustain := by
      simp only [hst, stageFits, Bool.or_eq_true, beq_iff_eq] at h
      obtain hpush | ⟨-, hpush⟩ := hpush
      · rw [hpush, ← or_assoc]; exact h
      · exact .inr (.inr hpush)
    refine .inl ?_
    simp only [stageFits, Bool.or_eq_true, beq_iff_eq, or_assoc]
    obtain ht | ⟨-, ht | ht⟩ | ⟨-, ht⟩ | ⟨hrel, -⟩ := htick
    · rw [ht]; exact hplay
    · exact .inr (.inl ht)
    · exact .inr (.inr ht)
    · exact .inr (.inr ht)
    · rw [hrel] at hplay; simp at hplay

/-- What a legal voice is in the middle of a sample, once a control update that is due has been made: the sub-block counter is not
0, and a FADING voice may have any timer. -/
structure MidSample (c : Config) (V : Voice) : Prop where
  stage : stageFits V.state V.env.stage = true
  fade : V.state ≠ .fading → V.fade = 0#32
  sbc : V.sbc.toNat ≠ 0 ∧ V.sbc.toNat ≤ c.sub
  wave : V.wave.toNat ≤ 2

theorem dueUpdate_midSample {s : State} (hc : legalConfig s.cfg = true) {V : Voice} (h : legalVoice s.cfg V) :
    MidSample s.cfg (dueUpdate s V) := by
  have hfade := legalVoice_fade h
  obtain ⟨hstage, -, hsbc, hwave⟩ := h
  unfold dueUpdate
  split
  · obtain ⟨hlo, hhi⟩ := legalConfig_sub hc
    have hsub : (controlUpdate s V).sbc.toNat ≠ 0 ∧ (controlUpdate s V).sbc.toNat ≤ s.cfg.sub := by
      rw [controlUpdate_sbc, BitVec.toNat_ofNat]; omega
    have hwave' : (controlUpdate s V).wave.toNat ≤ 2 := by rw [controlUpdate_wave]; exact hwave
    have hfit := stageFits_tick (s := s) hstage
    rw [← controlUpdate_env] at hfit
    obtain ⟨hst, hfd, hn⟩ | ⟨-, hidle, hst, -⟩ := controlUpdate_state s V
    · refine ⟨?_, fun hf => ?_, hsub, hwave'⟩
      · rw [hst]
        exact hfit.resolve_right hn
      · rw [hfd]
        exact hfade (hst ▸ hf)
    · refine ⟨?_, fun hf => absurd hst hf, hsub, hwave'⟩
      rw [hst, hidle]; rfl
  · rename_i hn
    exact ⟨hstage, hfade, ⟨fun h0 => hn (BitVec.eq_of_toNat_eq h0), hsbc⟩, hwave⟩

/-- The signal chain makes a legal voice of one in the middle of a sample. -/
theorem MidSample.chain {s : State} {V : Voice} (h : MidSample s.cfg V) : legalVoice s.cfg (voiceChain s V).2 := by
  obtain ⟨hstage, hfade, ⟨hne, hle⟩, hwave⟩ := h
  obtain ⟨henv, hwave', hsbc⟩ := voiceChain_frame s V
  have hcount : (voiceChain s V).2.sbc.toNat ≤ s.cfg.sub := by rw [hsbc, toNat_sub_one hne]; omega
  refine ⟨?_, ?_, hcount, hwave' ▸ hwave⟩
  · rw [henv]
    obtain ⟨-, hst, -⟩ | ⟨hst, -, hst', -⟩ | ⟨hst, -, hst', -⟩ := voiceChain_life s V
    · rw [hst]; exact hstage
    · rw [hst] at hstage; rw [hst']; exact hstage
    · rw [hst] at hstage; rw [hst']; exact hstage
  · obtain ⟨hn, hst, hfd⟩ | ⟨-, -, hst, hfd⟩ | ⟨-, hlt, hst, hfd⟩ := voiceChain_life s V
    · exact fadeClause_of_not_fading (hst ▸ hn) (hfd.trans (hfade hn))
    · exact fadeClause_of_not_fading (by simp [hst]) hfd
    · refine ⟨fun _ h0 => ?_, fun _ => hst⟩
      have hdown := toNat_sub_one (x := V.fade) (by omega)
      rw [← hfd, h0, BitVec.toNat_ofNat] at hdown
      omega

/-- A frame keeps a voice legal. -/
theorem legalVoice_voiceFrame {s : State} (hc : legalConfig s.cfg = true) {V : Voice} (h : legalVoice s.cfg V) :
    legalVoice s.cfg (voiceFrame s V) := by
  unfold voiceFrame
  split
  · exact (dueUpdate_midSample hc h).chain
  · exact h

theorem legalVoice_voiceRun {s : State} (hc : legalConfig s.cfg = true) (k : Nat) {V : Voice} (h : legalVoice s.cfg V) :
    legalVoice s.cfg (voiceRun s k V) := by
  induction k generalizing V with
  | zero => exact h
  | succ k ih => exact ih (legalVoice_voiceFrame hc h)

/-! ### PREPARE and RENDER -/

/-- A successful PREPARE builds what the invariant asks of a prepared machine. -/
theorem Inv.prepared {s : State} (h : Inv s) {nch mb : Nat} {fs : F32} (hl : prepareLegal s.cfg nch mb fs = true)
    (hmb : mb < 65536) : Inv (prepared s nch mb fs) where
  cfg := h.cfg
  pool := List.length_replicate
  regs := h.regs
  rng := h.rng
  voices := fun _ hV => (List.mem_replicate.mp hV).2 ▸ legalVoice_reset s.cfg
  record := h.record
  built := fun _ => ⟨⟨nch, mb, hl, hmb, rfl, rfl⟩, ⟨rfl, rfl, rfl, rfl, rfl, rfl, rfl⟩, rfl, rfl⟩
  silent := fun hp => Bool.noConfusion hp
  dryWet := rfl

/-- A run of frames changes the frame counter, the voices and the ports, and nothing else. -/
theorem FrameRun.eq_updates {b : Block} {i k : Nat} {s t : State} (h : FrameRun b i k s t) :
    t = ((s.setG { s.g with frames := s.g.frames + BitVec.ofNat 64 k }).setVoices (s.voices.map (voiceRun s k))).setPorts
      t.ports := by
  obtain ⟨hcfg, hregs, hwt, hvoices, hg, -⟩ := h
  cases t
  simp only at hcfg hregs hwt hvoices hg
  simp only [hcfg, hregs, hwt, hvoices, hg]
  rfl

/-- A run of frames keeps the invariant. -/
theorem FrameRun.inv {b : Block} {i k : Nat} {s t : State} (h : FrameRun b i k s t) (hs : Inv s) : Inv t := by
  rw [h.eq_updates]
  have hg : Inv (s.setG { s.g with frames := s.g.frames + BitVec.ofNat 64 k }) :=
    hs.setG (by constructor <;> rfl) hs.rng hs.record hs.dryWet
  refine (hg.mapVoices (fun V hV => legalVoice_voiceRun hs.cfg k hV) fun V hV => ?_).setPorts _
  rw [voiceRun_of_idle s k hV]
  exact hV

/-! ### Every command and every step -/

/-- Every command keeps the invariant. -/
theorem Inv.exec {i : Instr} {s t : State} (hs : Inv s) (hwf : i.wellFormed = true) (h : exec i s = .next t) : Inv t := by
  cases i with
  | nop => cases h; exact hs
  | prepare nch mb fs =>
    simp only [Instr.wellFormed, Bool.and_eq_true, decide_eq_true_eq] at hwf
    obtain ⟨hl, rfl⟩ | ⟨-, rfl⟩ := exec_prepare_next h
    · exact hs.prepared hl hwf.2
    · exact hs.raiseError _ _
  | setParam a d =>
    obtain hw | rfl | rfl := exec_setParam_next h
    · exact hs.writeReg hw
    · exact hs.raiseError _ _
    · exact hs.raiseError _ _
  | readReg a =>
    obtain ⟨r, cr, -, ⟨-, rfl⟩ | ⟨-, -, rfl⟩⟩ := exec_readReg_next h
    · exact hs.setPorts _
    · exact (hs.setPorts _).raiseError _ _
  | noteOn v note vel wheel =>
    simp only [Instr.wellFormed, Bool.and_eq_true, decide_eq_true_eq] at hwf
    obtain ⟨-, rfl⟩ | ⟨-, -, rfl⟩ | ⟨hp, -, rfl⟩ := exec_noteOn_next h
    · exact hs.raiseError _ _
    · exact hs.raiseError _ _
    · have hw := hs.setRegs (legalRegs_pitchWheel hs.regs hwf.2)
      have hdraw : xorshift (xorshift s.g.rng) ≠ 0#32 := by
        rw [ne_eq, xorshift_eq_zero, xorshift_eq_zero]
        exact hs.rng
      exact (hw.setRng hdraw).setVoice hp v (legalVoice_startVoice hw.regs _ note vel wheel _ _)
  | noteOff v tail relVel =>
    obtain ⟨-, rfl⟩ | ⟨-, -, rfl⟩ | ⟨hp, hv, rfl⟩ := exec_noteOff_next h
    · exact hs.raiseError _ _
    · exact hs.raiseError _ _
    · have hV := hs.voices _ (State.voice_mem s v (hs.pool ▸ hv))
      refine hs.setVoice hp v ?_
      split
      · exact legalVoice_releaseVoice hV
      · exact legalVoice_killVoice hV
  | pitchBend wheel =>
    simp only [Instr.wellFormed, decide_eq_true_eq] at hwf
    cases h
    exact (hs.setRegs (legalRegs_pitchWheel hs.regs hwf)).mapVoices (f := bentVoice s wheel)
      (fun V hV => legalVoice_bentVoice wheel hV) fun V hV => (bentVoice_state s wheel V).trans hV
  | controller cc val =>
    simp only [Instr.wellFormed, Bool.and_eq_true, decide_eq_true_eq] at hwf
    rw [exec_controller] at h
    split at h <;> cases h
    · exact hs.setRegs (legalRegs_modWheel hs.regs hwf.2)
    · exact hs
  | render n =>
    obtain ⟨-, rfl⟩ | ⟨-, -, rfl⟩ | ⟨-, -, rfl⟩ | ⟨-, -, -, u, -, hrun, rfl⟩ := exec_render_next h
    · exact hs.raiseError _ _
    · exact hs.raiseError _ _
    · exact hs
    · exact (hrun.inv hs).closeBlock (hrun.cfg ▸ rfl)

/-- Settles O60: a reset leaves the reset state of the same legal parameters; every other step is a command or the record of a
reserved opcode. -/
theorem everyStepKeepsInvariant : Obligations.EveryStepKeepsInvariant := by
  unfold Obligations.EveryStepKeepsInvariant
  intro s t hs hstep
  unfold step at hstep
  split at hstep
  · obtain ⟨rest, ⟨i, hwf, hexec⟩ | ⟨op, rfl⟩⟩ := stepCommand_next hstep
    · exact (hs.setPorts _).exec hwf hexec
    · exact (hs.setPorts _).raiseError _ _
  · cases hstep
    exact inv_resetWith _ hs.cfg
  · rename_i k _
    cases hstep
    exact inv_resetWith _ ((abandonedCommand_cfg k s).symm ▸ hs.cfg)

end Sys2Proof.Machine
end

section
/-! PROOFS. The lifecycle over the commands (spec 44 R257): what one frame can do to it, and then every command. -/

namespace Sys2Proof.Machine

/-- The changes a RENDER may cause in a lifecycle state (44 R257). -/
def renderMayBecome (a b : VoiceState) : Prop :=
  a = b ∨ (a = .releasing ∧ (b = .fading ∨ b = .idle)) ∨ (a = .fading ∧ b = .idle)

theorem renderMayBecome.trans {a b d : VoiceState} (hab : renderMayBecome a b) (hbd : renderMayBecome b d) :
    renderMayBecome a d := by
  obtain rfl | ⟨rfl, rfl | rfl⟩ | ⟨rfl, rfl⟩ := hab
  · exact hbd
  · obtain rfl | ⟨hb, -⟩ | ⟨-, rfl⟩ := hbd
    · exact .inr (.inl ⟨rfl, .inl rfl⟩)
    · cases hb
    · exact .inr (.inl ⟨rfl, .inr rfl⟩)
  · obtain rfl | ⟨hb, -⟩ | ⟨hb, -⟩ := hbd
    · exact .inr (.inl ⟨rfl, .inr rfl⟩)
    · cases hb
    · cases hb
  · obtain rfl | ⟨hb, -⟩ | ⟨hb, -⟩ := hbd
    · exact .inr (.inr ⟨rfl, rfl⟩)
    · cases hb
    · cases hb

/-- A control update takes a voice from RELEASING to FADING at most. -/
theorem dueUpdate_mayBecome (s : State) (V : Voice) : renderMayBecome V.state (dueUpdate s V).state := by
  unfold dueUpdate
  split
  · obtain ⟨hst, -⟩ | ⟨hrel, -, hst, -⟩ := controlUpdate_state s V
    · exact .inl hst.symm
    · exact .inr (.inl ⟨hrel, .inl hst⟩)
  · exact .inl rfl

/-- The signal chain takes a voice from FADING to IDLE at most. -/
theorem voiceChain_mayBecome (s : State) (V : Voice) : renderMayBecome V.state (voiceChain s V).2.state := by
  obtain ⟨-, hst, -⟩ | ⟨hfad, -, hst, -⟩ | ⟨hfad, -, hst, -⟩ := voiceChain_life s V
  · exact .inl hst.symm
  · exact .inr (.inr ⟨hfad, hst⟩)
  · exact .inl (hfad.trans hst.symm)

theorem voiceFrame_mayBecome (s : State) (V : Voice) : renderMayBecome V.state (voiceFrame s V).state := by
  unfold voiceFrame
  split
  · exact (dueUpdate_mayBecome s V).trans (voiceChain_mayBecome s _)
  · exact .inl rfl

theorem voiceRun_mayBecome (s : State) (k : Nat) (V : Voice) : renderMayBecome V.state (voiceRun s k V).state := by
  induction k generalizing V with
  | zero => exact .inl rfl
  | succ k ih => exact (voiceFrame_mayBecome s V).trans (ih _)

/-- A register write leaves the voices. -/
theorem writeReg_voices {r : Option Reg} {d : Word} {s t : State} (h : writeReg s r d = .ok t) : t.voices = s.voices := by
  obtain hw | hw | ⟨regs, hw⟩ | ⟨rng, -, hw⟩ := writeReg_cases s r d <;> rw [hw] at h <;> cases h <;> rfl

/-- Every voice is IDLE after a successful PREPARE. -/
theorem prepared_voice_state (s : State) (nch mb : Nat) (fs : F32) (v : Nat) :
    ((prepared s nch mb fs).voice v).state = .idle := by
  simp only [State.voice, prepared, List.getD_eq_getElem?_getD, List.getElem?_replicate]
  split <;> rfl

/-- The state of voice `u` when voice `v` is set to `V`. -/
theorem setVoice_state (s : State) (v u : Nat) (V : Voice) :
    ((s.setVoice v V).voice u).state = (s.voice u).state ∨ (v = u ∧ ((s.setVoice v V).voice u).state = V.state) := by
  rw [voice_setVoice]
  split
  · rename_i h
    exact .inr ⟨h.1.symm, rfl⟩
  · exact .inl rfl

/-- A released voice stays as it is or goes from PLAYING or RELEASING to RELEASING (44 R258). -/
theorem releaseVoice_state (s : State) (V : Voice) :
    V.state = (releaseVoice s V).state ∨ (V.state = .playing ∧ (releaseVoice s V).state = .releasing) := by
  unfold releaseVoice
  split
  · rename_i h
    obtain h | h := h
    · exact .inr ⟨h, rfl⟩
    · exact .inl h
  · exact .inl rfl

/-- Settles O43: each command by the lemma that says what it does to the voices; a refused command does nothing to them. -/
theorem lifecycleTransitions : Obligations.LifecycleTransitions := by
  unfold Obligations.LifecycleTransitions
  intro i s t v h
  have unchanged : t.voices = s.voices → mayBecome i v (s.voice v).state (t.voice v).state := fun hv =>
    .inl (by rw [State.voice, State.voice, hv])
  cases i with
  | nop => cases h; exact unchanged rfl
  | prepare nch mb fs =>
    obtain ⟨-, rfl⟩ | ⟨-, rfl⟩ := exec_prepare_next h
    · exact .inr (prepared_voice_state s nch mb fs v)
    · exact unchanged rfl
  | setParam a d =>
    obtain hw | rfl | rfl := exec_setParam_next h
    · exact unchanged (writeReg_voices hw)
    · exact unchanged rfl
    · exact unchanged rfl
  | readReg a =>
    obtain ⟨r, cr, -, ⟨-, rfl⟩ | ⟨-, -, rfl⟩⟩ := exec_readReg_next h <;> exact unchanged rfl
  | noteOn u note vel wheel =>
    obtain ⟨-, rfl⟩ | ⟨-, -, rfl⟩ | ⟨-, -, rfl⟩ := exec_noteOn_next h
    · exact unchanged rfl
    · exact unchanged rfl
    · obtain hst | ⟨huv, hst⟩ := setVoice_state _ u v _
      · exact .inl hst.symm
      · exact .inr ⟨huv, hst⟩
  | noteOff u tail relVel =>
    obtain ⟨-, rfl⟩ | ⟨-, -, rfl⟩ | ⟨-, -, rfl⟩ := exec_noteOff_next h
    · exact unchanged rfl
    · exact unchanged rfl
    · obtain hst | ⟨rfl, hst⟩ := setVoice_state s u v (if tail then releaseVoice s (s.voice u) else killVoice (s.voice u))
      · exact .inl hst.symm
      · cases tail with
        | false => exact .inr ⟨rfl, hst⟩
        | true =>
          obtain hrel | ⟨hplay, hrel⟩ := releaseVoice_state s (s.voice u)
          · exact .inl (hrel.trans hst.symm)
          · exact .inr ⟨rfl, hplay, hst.trans hrel⟩
  | pitchBend wheel =>
    cases h
    exact .inl ((congrArg Voice.state (voice_pitchBend s wheel v)).trans (bentVoice_state s wheel _)).symm
  | controller cc val =>
    rw [exec_controller] at h
    split at h <;> cases h <;> exact unchanged rfl
  | render n =>
    obtain ⟨k, hk⟩ := exec_render_voice h v
    rw [hk]
    exact voiceRun_mayBecome s k (s.voice v)

end Sys2Proof.Machine
end

section
/-! PROOFS. RENDER (spec 46 R309, 45 R280 to R286, 70 R371, R382): what an accepted block leaves, its samples, the stalled partners,
and a reset in the middle of it. -/

namespace Sys2Proof.Machine

/-! ### An accepted RENDER -/

/-- An accepted RENDER is its frames and the end of the block; a block of no frame is no exception. -/
theorem exec_render_of_accepted {s : State} {n : Nat} (hp : s.g.prepared = true) (hn : n ≤ s.g.maxBlock.toNat) :
    exec (.render n) s = (renderBlock n s).outcome := by
  simp only [exec, execRender, hp, Bool.not_true, Bool.false_eq_true, if_false, Nat.not_lt.mpr hn]
  split
  · rename_i h0
    subst h0
    rfl
  · rfl

/-- What an accepted RENDER that completes leaves. -/
theorem exec_render_accepted_next {s t : State} {n : Nat} (hp : s.g.prepared = true) (hn : n ≤ s.g.maxBlock.toNat)
    (h : exec (.render n) s = .next t) :
    ∃ u, FrameRun (openBlock n s) 0 n s u ∧ t = closeBlock (openBlock n s) u := by
  rw [exec_render_of_accepted hp hn, Progress.outcome_next, renderBlock] at h
  split at h
  · cases h
  · rename_i u hu
    cases h
    exact ⟨u, renderFrames_done hu, rfl⟩

/-- With partners that do their duty it completes, and they are as they were. -/
theorem exec_render_completes {s : State} {n : Nat} (hp : s.g.prepared = true) (hn : n ≤ s.g.maxBlock.toNat)
    (ha : partnersAnswer s) :
    ∃ u, renderFrames (openBlock n s) n 0 s = .done u ∧ FrameRun (openBlock n s) 0 n s u ∧
      exec (.render n) s = .next (closeBlock (openBlock n s) u) ∧ partnersAnswer u := by
  obtain ⟨hresp, hframe, hrv⟩ := ha
  obtain ⟨u, hu, hframe', hrv'⟩ := renderFrames_completes (openBlock n s) n 0 s hframe hrv
  have hrun := renderFrames_done hu
  refine ⟨u, hu, hrun, ?_, hrun.respCredit.trans hresp, hframe', hrv'⟩
  simp only [exec_render_of_accepted hp hn, renderBlock, hu, Progress.outcome]

/-- The last gains at the end of a block of two frames or more (45 R285). -/
theorem closeBlock_gains {b : Block} (h : 2 ≤ b.n) (s : State) :
    (closeBlock b s).g.gMLast = b.tM ∧ (closeBlock b s).g.gDryLast = (if b.active then b.tD else s.g.gDryLast) ∧
      (closeBlock b s).g.gWetLast = (if b.active then b.tW else s.g.gWetLast) := by
  simp only [closeBlock, h, if_true]
  exact ⟨rfl, rfl, rfl⟩

/-- A block of less than two frames moves no gain. -/
theorem closeBlock_of_short {b : Block} (h : b.n < 2) (s : State) : closeBlock b s = s :=
  if_neg (Nat.not_le.mpr h)

/-- Settles O34: the fields of the run of frames; the end of the block moves the last gains alone. -/
theorem renderEmitsFrames : Obligations.RenderEmitsFrames := by
  unfold Obligations.RenderEmitsFrames
  intro s n hp hn ha
  obtain ⟨u, -, hrun, hexec, -⟩ := exec_render_completes hp hn ha
  obtain ⟨hcfg, hregs, hwt, hvoices, hports, hg⟩ := closeBlock_frame (openBlock n s) u
  refine ⟨_, _, hexec, ?_, ?_, (congrArg Ports.frameOut hports).trans hrun.frameOut, ?_, hvoices.trans hrun.voices,
    hcfg.trans hrun.cfg, hregs.trans hrun.regs, hwt.trans hrun.wt, (congrArg Ports.cmdIn hports).trans hrun.cmdIn,
    (congrArg Ports.respOut hports).trans hrun.respOut, ?_⟩
  · rw [List.length_map, List.length_range]
  · intro y hy
    obtain ⟨j, -, rfl⟩ := List.mem_map.mp hy
    exact frameAt_length _ _ _ _
  · rw [hg, hrun.g]
  · rw [hg, hrun.g]

/-- Settles O35: the two cases of the end of a block, for the block that `openBlock` made of the registers. -/
theorem renderMovesLastGains : Obligations.RenderMovesLastGains := by
  unfold Obligations.RenderMovesLastGains
  intro s t n hp hn h
  obtain ⟨u, hrun, rfl⟩ := exec_render_accepted_next hp hn h
  have hgains : u.g.gMLast = s.g.gMLast ∧ u.g.gDryLast = s.g.gDryLast ∧ u.g.gWetLast = s.g.gWetLast := by
    rw [hrun.g]
    exact ⟨rfl, rfl, rfl⟩
  obtain ⟨hM, hD, hW⟩ := hgains
  refine ⟨fun h2 => ?_, fun h2 => ?_⟩
  · obtain ⟨hM', hD', hW'⟩ := closeBlock_gains (b := openBlock n s) h2 u
    refine ⟨hM', fun hact => ⟨hD'.trans (if_pos hact), hW'.trans (if_pos hact)⟩, fun hact => ?_⟩
    have hact' : ¬ (openBlock n s).active = true := by simpa [openBlock] using hact
    exact ⟨(hD'.trans (if_neg hact')).trans hD, (hW'.trans (if_neg hact')).trans hW⟩
  · rw [closeBlock_of_short (b := openBlock n s) h2]
    exact ⟨hM, hD, hW⟩

/-- Settles O36: the reverb traffic of the run of frames. -/
theorem renderReverbTraffic : Obligations.RenderReverbTraffic := by
  unfold Obligations.RenderReverbTraffic
  intro s t n hp hn h
  obtain ⟨u, hrun, rfl⟩ := exec_render_accepted_next hp hn h
  obtain ⟨-, -, -, -, hports, -⟩ := closeBlock_frame (openBlock n s) u
  rw [hports]
  refine ⟨fun hact => ?_, fun hact => ?_⟩
  · obtain ⟨hsend, hret, hdraws, -⟩ := hrun.quiet hact
    exact ⟨hsend, hret, hdraws⟩
  · obtain ⟨hsend, hret, -⟩ := hrun.sent hact
    refine ⟨_, by rw [List.length_map, List.length_range], fun d hd => ?_, hsend, hret⟩
    obtain ⟨j, -, rfl⟩ := List.mem_map.mp hd
    exact List.length_replicate

/-! ### The samples (45 R280 to R286) -/

/-- A frame of an inactive block: the master ramp times the voice sum on every channel. -/
theorem frameAt_inactive {b : Block} (h : b.active = false) (i : Nat) (s : State) (j : Nat) :
    frameAt b i s j =
      List.replicate s.g.nch.toNat (fmul s.cfg (ramp s.cfg s.g.gMLast b.tM i b.n) (voiceMix s j)) := by
  simp only [frameAt, h, Bool.false_eq_true, if_false, masterFrame, List.map_replicate]

/-- A frame of an active block: the blend with the return frame, times the master ramp. -/
theorem frameAt_active {b : Block} (h : b.active = true) (i : Nat) (s : State) (j : Nat) :
    frameAt b i s j = (List.range s.g.nch.toNat).map fun ch =>
      fmul s.cfg (ramp s.cfg s.g.gMLast b.tM i b.n)
        (fadd s.cfg (fmul s.cfg (ramp s.cfg s.g.gDryLast b.tD i b.n) (voiceMix s j))
          (fmul s.cfg (ramp s.cfg s.g.gWetLast b.tW i b.n) (returnSample s j ch))) := by
  simp only [frameAt, h, if_true, masterFrame, blend, List.map_map]
  rfl

/-- Settles O37: frame `i` of the run is `frameAt`, written out by the two lemmas above. -/
theorem renderSamples : Obligations.RenderSamples := by
  unfold Obligations.RenderSamples
  intro s n hp hn ha
  obtain ⟨u, -, hrun, hexec, -⟩ := exec_render_completes hp hn ha
  obtain ⟨-, -, -, -, hports, -⟩ := closeBlock_frame (openBlock n s) u
  have hout := (congrArg Ports.frameOut hports).trans hrun.frameOut
  refine ⟨_, _, hexec, by rw [List.length_map, List.length_range], hout, ?_, fun i hi => ?_, fun hact => ?_⟩
  · rw [frameBytes, hout, bytesOfFrames, List.flatMap_append]
    rfl
  · have hget : ∀ y, frameAt (openBlock n s) i s i = y →
        ((List.range n).map fun j => frameAt (openBlock n s) (0 + j) s j)[i]? = some y := by
      rintro y rfl
      simp only [List.getElem?_map, List.getElem?_range hi, Option.map_some, Nat.zero_add]
    exact ⟨fun hact => hget _ (frameAt_inactive hact i s i), fun hact => hget _ (frameAt_active hact i s i)⟩
  · obtain ⟨hsend, -, -⟩ := hrun.sent hact
    rw [hports, hsend]

/-! ### Stalled partners (70 R382) -/

/-- A frame completes when the host takes it and, in an active block, the reverb unit answers. -/
theorem renderFrame_completes_of_credit (b : Block) (i : Nat) {s : State} (hf : takeCredit s.ports.frameCredit ≠ none)
    (hr : b.active = true → takeCredit s.ports.rvCredit ≠ none) : ∃ t, renderFrame b i s = .done t := by
  obtain ⟨cr, hcr⟩ := Option.ne_none_iff_exists'.mp hf
  cases hact : b.active with
  | false => exact ⟨_, by simp only [renderFrame, hact, emit, State.setVoices_ports, hcr]; rfl⟩
  | true =>
    obtain ⟨rr, hrr⟩ := Option.ne_none_iff_exists'.mp (hr hact)
    exact ⟨_, by simp only [renderFrame, hact, if_true, hrr, emit, State.setPorts_ports, portsAfterReverb, hcr]; rfl⟩

/-- A frame waits at the frame port when the host takes none. -/
theorem renderFrame_frame_stuck (b : Block) (i : Nat) {s : State} (hf : s.ports.frameCredit = some 0)
    (hr : b.active = true → takeCredit s.ports.rvCredit ≠ none) : ∃ t, renderFrame b i s = .stuck .framePortStuck t := by
  cases hact : b.active with
  | false => exact ⟨_, by simp only [renderFrame, hact, emit, State.setVoices_ports, hf, takeCredit_zero]; rfl⟩
  | true =>
    obtain ⟨rr, hrr⟩ := Option.ne_none_iff_exists'.mp (hr hact)
    exact ⟨_, by
      simp only [renderFrame, hact, if_true, hrr, emit, State.setPorts_ports, portsAfterReverb, hf, takeCredit_zero]
      rfl⟩

/-- A frame of an active block waits at the reverb port when the unit answers no send. -/
theorem renderFrame_reverb_stuck {b : Block} (hact : b.active = true) (i : Nat) {s : State}
    (hr : s.ports.rvCredit = some 0) : ∃ t, renderFrame b i s = .stuck .reverbPortStuck t :=
  ⟨_, by simp only [renderFrame, hact, if_true, hr, takeCredit_zero]; rfl⟩

/-- A run of more frames than the host takes waits at the frame port. -/
theorem renderFrames_frame_stuck (b : Block) (k m i : Nat) (s : State) (hk : k < m) (hf : s.ports.frameCredit = some k)
    (hr : s.ports.rvCredit = none) : ∃ t, renderFrames b m i s = .stuck .framePortStuck t := by
  induction k generalizing m i s with
  | zero =>
    obtain ⟨m, rfl⟩ := Nat.exists_eq_succ_of_ne_zero (by omega : m ≠ 0)
    obtain ⟨t, ht⟩ := renderFrame_frame_stuck b i hf (fun _ => by simp [hr])
    exact ⟨t, by simp only [renderFrames, ht]⟩
  | succ k ih =>
    obtain ⟨m, rfl⟩ := Nat.exists_eq_succ_of_ne_zero (by omega : m ≠ 0)
    obtain ⟨t, ht⟩ := renderFrame_completes_of_credit b i (s := s) (by simp [hf]) (fun _ => by simp [hr])
    have hstep := renderFrame_done ht
    have hf' : t.ports.frameCredit = some k := by
      simpa only [hf, takeCredit_succ, Option.some.injEq, eq_comm] using hstep.frameCredit
    have hr' : t.ports.rvCredit = none := by
      cases hact : b.active with
      | false =>
        obtain ⟨-, -, -, hq⟩ := hstep.quiet hact
        exact hq.trans hr
      | true =>
        obtain ⟨-, -, -, hq⟩ := hstep.sent hact
        simpa only [hr, takeCredit_none, Option.some.injEq, eq_comm] using hq
    obtain ⟨u, hu⟩ := ih m (i + 1) t (by omega) hf' hr'
    exact ⟨u, by simp only [renderFrames, ht, hu]⟩

/-- A run of more frames of an active block than the reverb unit answers waits at the reverb port. -/
theorem renderFrames_reverb_stuck {b : Block} (hact : b.active = true) (k m i : Nat) (s : State) (hk : k < m)
    (hr : s.ports.rvCredit = some k) (hf : s.ports.frameCredit = none) :
    ∃ t, renderFrames b m i s = .stuck .reverbPortStuck t := by
  induction k generalizing m i s with
  | zero =>
    obtain ⟨m, rfl⟩ := Nat.exists_eq_succ_of_ne_zero (by omega : m ≠ 0)
    obtain ⟨t, ht⟩ := renderFrame_reverb_stuck hact i hr
    exact ⟨t, by simp only [renderFrames, ht]⟩
  | succ k ih =>
    obtain ⟨m, rfl⟩ := Nat.exists_eq_succ_of_ne_zero (by omega : m ≠ 0)
    obtain ⟨t, ht⟩ := renderFrame_completes_of_credit b i (s := s) (by simp [hf]) (fun _ => by simp [hr])
    have hstep := renderFrame_done ht
    obtain ⟨-, -, -, hq⟩ := hstep.sent hact
    have hr' : t.ports.rvCredit = some k := by
      simpa only [hr, takeCredit_succ, Option.some.injEq, eq_comm] using hq
    have hf' : t.ports.frameCredit = none := by
      simpa only [hf, takeCredit_none, Option.some.injEq, eq_comm] using hstep.frameCredit
    obtain ⟨u, hu⟩ := ih m (i + 1) t (by omega) hr' hf'
    exact ⟨u, by simp only [renderFrames, ht, hu]⟩

/-- A run of frames that waits makes the accepted RENDER wait. -/
theorem exec_render_of_stuck {s t : State} {n : Nat} {f : Fault} (hp : s.g.prepared = true)
    (hn : n ≤ s.g.maxBlock.toNat) (h : renderFrames (openBlock n s) n 0 s = .stuck f t) :
    exec (.render n) s = .fault f := by
  simp only [exec_render_of_accepted hp hn, renderBlock, h, Progress.outcome]

/-- Settles O38: the run of frames waits at the port whose partner has stalled. -/
theorem renderWaitsForPartners : Obligations.RenderWaitsForPartners := by
  unfold Obligations.RenderWaitsForPartners
  intro s n k hp hn hk
  refine ⟨fun hf hr => ?_, fun hact hr hf => ?_⟩
  · obtain ⟨t, ht⟩ := renderFrames_frame_stuck (openBlock n s) k n 0 s hk hf hr
    exact exec_render_of_stuck hp hn ht
  · obtain ⟨t, ht⟩ := renderFrames_reverb_stuck (b := openBlock n s) hact k n 0 s hk hr hf
    exact exec_render_of_stuck hp hn ht

/-! ### Voices over a block (45 R280) -/

/-- The number of frames a RENDER of `n` runs when it completes: none when it is refused. -/
def framesRun (n : Nat) (s : State) : Nat := if s.g.prepared ∧ n ≤ s.g.maxBlock.toNat then n else 0

/-- A RENDER that completes has run every voice through `framesRun` frames. -/
theorem exec_render_voice_run {n : Nat} {s t : State} (h : exec (.render n) s = .next t) (v : Nat) :
    t.voice v = voiceRun s (framesRun n s) (s.voice v) := by
  have hread : ∀ k, t.voices = s.voices.map (voiceRun s k) → t.voice v = voiceRun s k (s.voice v) := fun k hk => by
    rw [State.voice, hk, voice_map s _ (voiceRun_of_idle s k rfl)]
  have hsame : t.voices = s.voices → t.voice v = voiceRun s 0 (s.voice v) := fun hv => by
    rw [State.voice, hv]
    rfl
  unfold framesRun
  split
  · rename_i hacc
    obtain ⟨u, hrun, rfl⟩ := exec_render_accepted_next hacc.1 hacc.2 h
    obtain ⟨-, -, -, hvoices, -, -⟩ := closeBlock_frame (openBlock n s) u
    exact hread n (hvoices.trans hrun.voices)
  · rename_i hacc
    obtain ⟨-, rfl⟩ | ⟨-, -, rfl⟩ | ⟨-, -, rfl⟩ | ⟨hp, -, hn, -⟩ := exec_render_next h
    · exact hsame rfl
    · exact hsame rfl
    · exact hsame rfl
    · exact absurd ⟨hp, hn⟩ hacc

/-- Settles O40: both voices run through the same number of frames, in contexts that agree in all a voice reads. -/
theorem voiceEvolvesAlone : Obligations.VoiceEvolvesAlone := by
  unfold Obligations.VoiceEvolvesAlone
  intro s s' t t' n v hcfg hregs hg hwt _ _ hv h h'
  have hcontext : SameContext s s' := ⟨hcfg, hregs, hwt, by rw [hg], by rw [hg], by rw [hg], by rw [hg], by rw [hg], by rw [hg]⟩
  have hframes : framesRun n s' = framesRun n s := by rw [framesRun, framesRun, hg]
  rw [exec_render_voice_run h v, exec_render_voice_run h' v, hframes, hv, voiceRun_congr hcontext]

/-- Frames in two runs are frames in one. -/
theorem voiceRun_add (s : State) (n m : Nat) (V : Voice) : voiceRun s (n + m) V = voiceRun s m (voiceRun s n V) := by
  induction n generalizing V with
  | zero => rw [Nat.zero_add]; rfl
  | succ n ih => rw [Nat.succ_add, voiceRun_succ, ih, voiceRun_succ]

/-- A completed block leaves the context of the voices, and what a further RENDER asks of the machine. -/
theorem closeBlock_context {b : Block} {i k : Nat} {s u : State} (hrun : FrameRun b i k s u) :
    SameContext s (closeBlock b u) ∧ (closeBlock b u).g.prepared = s.g.prepared ∧
      (closeBlock b u).g.maxBlock = s.g.maxBlock := by
  obtain ⟨hcfg, hregs, hwt, -, -, hg⟩ := closeBlock_frame b u
  refine ⟨⟨hcfg.trans hrun.cfg, hregs.trans hrun.regs, hwt.trans hrun.wt, ?_, ?_, ?_, ?_, ?_, ?_⟩, ?_, ?_⟩ <;> rw [hg, hrun.g]

/-- What a completed block adds: frames to the counter and to the output, and samples to every voice. -/
theorem closeBlock_counts {b : Block} {i k : Nat} {s u : State} (hrun : FrameRun b i k s u) :
    (closeBlock b u).voices = s.voices.map (voiceRun s k) ∧
      (closeBlock b u).g.frames = s.g.frames + BitVec.ofNat 64 k ∧
      (closeBlock b u).ports.frameOut.length = s.ports.frameOut.length + k := by
  obtain ⟨-, -, -, hvoices, hports, hg⟩ := closeBlock_frame b u
  refine ⟨hvoices.trans hrun.voices, by rw [hg, hrun.g], ?_⟩
  rw [hports, hrun.frameOut, List.length_append, List.length_map, List.length_range]

/-- Settles O41: the second RENDER runs in the same context, so the frames add up. -/
theorem renderSplitsKeepVoices : Obligations.RenderSplitsKeepVoices := by
  unfold Obligations.RenderSplitsKeepVoices
  intro s n m hp hn ha
  obtain ⟨u, -, hrun, hexec, hau⟩ := exec_render_completes (n := n) hp (by omega) ha
  obtain ⟨hcontext, hprep, hmax⟩ := closeBlock_context hrun
  obtain ⟨hv1, hf1, hl1⟩ := closeBlock_counts hrun
  obtain ⟨-, -, -, -, hports, -⟩ := closeBlock_frame (openBlock n s) u
  have ha' : partnersAnswer (closeBlock (openBlock n s) u) := by rw [partnersAnswer, hports]; exact hau
  obtain ⟨u', -, hrun', hexec', -⟩ := exec_render_completes (n := m) (hprep.trans hp) (by rw [hmax]; omega) ha'
  obtain ⟨hv2, hf2, hl2⟩ := closeBlock_counts hrun'
  obtain ⟨w, -, hrunw, hexecw, -⟩ := exec_render_completes hp hn ha
  obtain ⟨hv3, hf3, hl3⟩ := closeBlock_counts hrunw
  refine ⟨_, _, _, hexec, hexec', hexecw, ?_, ?_, by omega⟩
  · rw [hv2, hv1, hv3, voiceRun_congr hcontext, List.map_map]
    exact List.map_congr_left fun V _ => (voiceRun_add s n m V).symm
  · rw [hf2, hf1, hf3, BitVec.add_assoc, BitVec.ofNat_add]

/-! ### A reset during a RENDER (70 R371) -/

/-- The frame that a reset abandons has emitted nothing and taken no command byte. -/
theorem partialFrame_ports (k : Nat) (s : State) :
    (partialFrame k s).ports.frameOut = s.ports.frameOut ∧ (partialFrame k s).ports.cmdIn = s.ports.cmdIn := by
  unfold partialFrame
  split
  · exact ⟨rfl, rfl⟩
  · dsimp only
    split <;> exact ⟨rfl, rfl⟩

/-- Frame `j` of a RENDER of `n` frames. -/
def emittedFrame (n : Nat) (s : State) (j : Nat) : List F32 := frameAt (openBlock n s) (0 + j) s j

/-- The number of whole frames that `k` port transfers make. -/
def framesBeforeReset (k n : Nat) (s : State) : Nat := min (k / transfersPerFrame (openBlock n s)) n

/-- What a RENDER that a reset abandons has emitted: the first frames of the run. -/
theorem partialRender_ports {s : State} {n : Nat} (k : Nat) (hp : s.g.prepared = true) (hn : n ≤ s.g.maxBlock.toNat)
    (ha : partnersAnswer s) :
    (partialRender k n s).ports.frameOut =
      s.ports.frameOut ++ (List.range (framesBeforeReset k n s)).map (emittedFrame n s) ∧
    (partialRender k n s).ports.cmdIn = s.ports.cmdIn := by
  obtain ⟨-, hframe, hrv⟩ := ha
  obtain ⟨u, hu, -, -⟩ := renderFrames_completes (openBlock n s) (framesBeforeReset k n s) 0 s hframe hrv
  have hrun := renderFrames_done hu
  have hu' : renderFrames (openBlock n s) (min (k / transfersPerFrame (openBlock n s)) n) 0 s = .done u := hu
  simp only [partialRender, hp, hn, decide_true, Bool.and_self, if_true, hu']
  split
  · obtain ⟨hout, hin⟩ := partialFrame_ports (k % transfersPerFrame (openBlock n s)) u
    exact ⟨hout.trans hrun.frameOut, hin.trans hrun.cmdIn⟩
  · exact ⟨hrun.frameOut, hrun.cmdIn⟩

/-- A list over `0 .. n-1` is its first `m` entries and the rest. -/
theorem map_range_split {α : Type} (f : Nat → α) {m n : Nat} (h : m ≤ n) :
    (List.range n).map f = (List.range m).map f ++ (List.range (n - m)).map fun j => f (m + j) := by
  obtain ⟨d, rfl⟩ := Nat.exists_eq_add_of_le h
  rw [List.range_add, List.map_append, List.map_map, Nat.add_sub_cancel_left]
  rfl

/-- Settles O8: both the abandoned and the whole RENDER emit `frameAt`, the first of them the first `m` frames. -/
theorem resetDuringRenderKeepsEmittedFrames : Obligations.ResetDuringRenderKeepsEmittedFrames := by
  unfold Obligations.ResetDuringRenderKeepsEmittedFrames
  intro s k n rest hrst hdec hp hn ha
  obtain ⟨w, hf, hw⟩ := fetch_of_decode hdec
  have habandoned : abandonedCommand k s = partialRender k n (setCmdIn rest s) := by
    simp only [abandonedCommand, hf, hw]
  obtain ⟨hout, hin⟩ := partialRender_ports (s := setCmdIn rest s) k hp hn ha
  obtain ⟨u, -, hrun, hexec, -⟩ := exec_render_completes (s := setCmdIn rest s) hp hn ha
  obtain ⟨-, -, -, -, hports, -⟩ := closeBlock_frame (openBlock n (setCmdIn rest s)) u
  obtain ⟨part, hsplit, hpart, hwhole⟩ := dropPartialWord_split rest
  have hm : framesBeforeReset k n (setCmdIn rest s) = min (if reverbActive s then k / 3 else k) n := by
    have hact : (openBlock n (setCmdIn rest s)).active = reverbActive s := rfl
    rw [framesBeforeReset, transfersPerFrame, hact]
    split
    · rfl
    · rw [Nat.div_one]
  have hcmd : dropPartialWord (partialRender k n (setCmdIn rest s)).ports.cmdIn = dropPartialWord rest := congrArg _ hin
  rw [hm] at hout
  refine ⟨resetState (abandonedCommand k s), _, _, (List.range (n - min (if reverbActive s then k / 3 else k) n)).map fun j =>
      emittedFrame n (setCmdIn rest s) (min (if reverbActive s then k / 3 else k) n + j), part,
      by simp only [step, hrst], hexec, ?_, rfl, ?_, ?_,
    (congrArg (fun t => t.ports.frameOut) habandoned).trans hout, ?_, ?_, hpart, ?_⟩
  · rw [resetState, abandonedCommand_cfg]
    rfl
  · rw [List.length_map, List.length_range]
  · rw [List.length_map, List.length_range]
  · rw [hports, ← map_range_split _ (Nat.min_le_right _ n)]
    exact hrun.frameOut
  · rw [habandoned]
    exact hsplit.trans (congrArg (· ++ part) hcmd.symm)
  · rw [habandoned]
    exact (congrArg (fun l => l.length % 8) hcmd).trans hwhole

end Sys2Proof.Machine
end

section
/-! PROOFS. Correct rounding (spec 00 R11): `roundMag` gives the magnitude nearest to an exact quotient, ties to even, and infinity
from half a step above the largest finite value on. The exact value is `X / (Y * 2^d)` units, of which `n` is the number that is
rounded: `X / Y` itself, or for a division its integer part with a sticky bit. -/

namespace Sys2Proof.Machine

/-! ### The units of a magnitude -/

/-- The units of a pattern with magnitude bits `m`. -/
def magUnits (m : Nat) : Nat :=
  if m < 8388608 then m else (m % 8388608 + 8388608) * 2 ^ (m / 8388608 - 1)

theorem fUnits_eq_magUnits (x : F32) : fUnits x = magUnits (fMag x) := rfl

/-- A significand of at most 24 bits at exponent `e`, the carry into the next exponent included. -/
theorem magUnits_of_significand {e q : Nat} (hq : q ≤ 16777216) (he : e = 0 ∨ 8388608 ≤ q) :
    magUnits (e * 8388608 + q) = q * 2 ^ e := by
  unfold magUnits
  rcases Nat.lt_or_ge q 8388608 with hsmall | hlarge
  · obtain rfl : e = 0 := by omega
    rw [if_pos (by omega)]
    omega
  · rw [if_neg (by omega)]
    rcases Nat.lt_or_ge q 16777216 with hlt | hge
    · have hmod : (e * 8388608 + q) % 8388608 + 8388608 = q := by omega
      have hdiv : (e * 8388608 + q) / 8388608 - 1 = e := by omega
      rw [hmod, hdiv]
    · obtain rfl : q = 16777216 := by omega
      have hmod : (e * 8388608 + 16777216) % 8388608 + 8388608 = 8388608 := by omega
      have hdiv : (e * 8388608 + 16777216) / 8388608 - 1 = e + 1 := by omega
      rw [hmod, hdiv, Nat.pow_succ]
      omega

/-- Every magnitude is a significand at an exponent. -/
theorem significand_of_mag (m : Nat) : ∃ e q, m = e * 8388608 + q ∧ q < 16777216 ∧ (e = 0 ∨ 8388608 ≤ q) := by
  rcases Nat.lt_or_ge m 8388608 with h | h
  · exact ⟨0, m, by omega, by omega, .inl rfl⟩
  · exact ⟨m / 8388608 - 1, m % 8388608 + 8388608, by omega, by omega, .inr (by omega)⟩

/-- Units rise with the magnitude bits. -/
theorem magUnits_strictMono : StrictMono magUnits := by
  refine strictMono_nat_of_lt_succ fun m => ?_
  obtain ⟨e, q, rfl, hq, he⟩ := significand_of_mag m
  rw [magUnits_of_significand (by omega) he, Nat.add_assoc, magUnits_of_significand (by omega) (by omega)]
  exact Nat.mul_lt_mul_of_pos_right (Nat.lt_succ_self q) (Nat.two_pow_pos e)

/-! ### Where the exact value lies -/

/-- `n` stands for the exact value `X / Y` in a rounding that drops `d` bits or more: it is the value, or it is odd, which a
sticky bit makes it, and the value lies strictly between its neighbours. -/
def StandsFor (d n X Y : Nat) : Prop :=
  X = n * Y ∨ (2 ≤ d ∧ n % 2 = 1 ∧ (n - 1) * Y < X ∧ X < (n + 1) * Y)

/-- Doubled and compared with a multiple of 4, or with anything where nothing is sticky, `n` is on the side where `X / Y` is. -/
theorem StandsFor.compare {d n X Y k : Nat} (h : StandsFor d n X Y) (hY : 0 < Y) (hk : k % 4 = 0 ∨ d < 2) :
    (2 * n < k → 2 * X < k * Y) ∧ (2 * n = k → 2 * X = k * Y) ∧ (k < 2 * n → k * Y < 2 * X) := by
  obtain rfl | ⟨hd, hodd, hlo, hhi⟩ := h
  · rw [← Nat.mul_assoc]
    exact ⟨fun hlt => Nat.mul_lt_mul_of_pos_right hlt hY, fun heq => by rw [heq],
      fun hlt => Nat.mul_lt_mul_of_pos_right hlt hY⟩
  · obtain ⟨j, rfl⟩ : ∃ j, k = 2 * (2 * j) := ⟨k / 4, by omega⟩
    rw [Nat.mul_assoc 2]
    refine ⟨fun hlt => ?_, fun heq => by omega, fun hlt => ?_⟩
    · have := Nat.mul_le_mul_right Y (by omega : n + 1 ≤ 2 * j)
      omega
    · have := Nat.mul_le_mul_right Y (by omega : 2 * j ≤ n - 1)
      omega

/-- The rounded quotient in terms of the remainder. -/
theorem roundQuot_cases (n sh : Nat) :
    (roundQuot n sh = n / 2 ^ sh ∧
      (2 * (n % 2 ^ sh) < 2 ^ sh ∨ (2 * (n % 2 ^ sh) = 2 ^ sh ∧ n / 2 ^ sh % 2 = 0))) ∨
    (roundQuot n sh = n / 2 ^ sh + 1 ∧
      (2 ^ sh < 2 * (n % 2 ^ sh) ∨ (2 * (n % 2 ^ sh) = 2 ^ sh ∧ n / 2 ^ sh % 2 = 1))) := by
  unfold roundQuot
  split
  · rename_i hup
    simp only [Bool.or_eq_true, Bool.and_eq_true, decide_eq_true_eq] at hup
    exact .inr ⟨rfl, hup⟩
  · rename_i hup
    simp only [Bool.or_eq_true, Bool.and_eq_true, decide_eq_true_eq] at hup
    exact .inl ⟨rfl, by omega⟩

/-- The neighbours `q * w` and `(q + 1) * w` of the exact value `X`, and the one that is chosen: the nearer, on a tie the even. -/
structure Chosen (q w X Q : Nat) : Prop where
  lo : q * w ≤ X
  hi : X ≤ (q + 1) * w
  choice : (Q = q ∧ (2 * X < (2 * q + 1) * w ∨ (2 * X = (2 * q + 1) * w ∧ q % 2 = 0))) ∨
    (Q = q + 1 ∧ ((2 * q + 1) * w < 2 * X ∨ (2 * X = (2 * q + 1) * w ∧ q % 2 = 1)))

/-- `roundQuot` chooses so for the exact value. -/
theorem roundQuot_chosen {d n X Y sh : Nat} (h : StandsFor d n X Y) (hY : 0 < Y) (hsh : d ≤ sh) :
    Chosen (n / 2 ^ sh) (2 ^ sh * Y) X (roundQuot n sh) := by
  have hfour : ∀ j, (j * 2 ^ sh) % 4 = 0 ∨ d < 2 := by
    intro j
    rcases Nat.lt_or_ge d 2 with hd | hd
    · exact .inr hd
    · obtain ⟨e, rfl⟩ := Nat.exists_eq_add_of_le (show 2 ≤ sh by omega)
      refine .inl ?_
      rw [Nat.pow_add, show (2 : Nat) ^ 2 = 4 from rfl, ← Nat.mul_assoc, Nat.mul_right_comm]
      exact Nat.mul_mod_left _ _
  have hdiv := Nat.div_add_mod n (2 ^ sh)
  have hmod := Nat.mod_lt n (Nat.two_pow_pos sh)
  have hquot := roundQuot_cases n sh
  generalize n / 2 ^ sh = q at *
  generalize n % 2 ^ sh = r at *
  have hcmp : ∀ j, (2 * n < j * 2 ^ sh → 2 * X < j * (2 ^ sh * Y)) ∧ (2 * n = j * 2 ^ sh → 2 * X = j * (2 ^ sh * Y)) ∧
      (j * 2 ^ sh < 2 * n → j * (2 ^ sh * Y) < 2 * X) := fun j => by
    rw [← Nat.mul_assoc]
    exact h.compare hY (hfour j)
  generalize 2 ^ sh = a at *
  have hlo := hcmp (2 * q)
  have hmid := hcmp (2 * q + 1)
  have hhi := hcmp (2 * q + 2)
  have e0 : 2 * q * a = 2 * (a * q) := by ring
  have e1 : (2 * q + 1) * a = 2 * (a * q) + a := by ring
  have e2 : (2 * q + 2) * a = 2 * (a * q) + 2 * a := by ring
  have f0 : 2 * q * (a * Y) = 2 * (q * (a * Y)) := by ring
  have f2 : (2 * q + 2) * (a * Y) = 2 * ((q + 1) * (a * Y)) := by ring
  rw [e0, f0] at hlo
  rw [e1] at hmid
  rw [e2, f2] at hhi
  refine ⟨?_, ?_, ?_⟩
  · omega
  · omega
  · obtain ⟨hQ, hr | ⟨hr, hq⟩⟩ | ⟨hQ, hr | ⟨hr, hq⟩⟩ := hquot
    · exact .inl ⟨hQ, .inl (hmid.1 (by omega))⟩
    · exact .inl ⟨hQ, .inr ⟨hmid.2.1 (by omega), hq⟩⟩
    · exact .inr ⟨hQ, .inl (hmid.2.2 (by omega))⟩
    · exact .inr ⟨hQ, .inr ⟨hmid.2.1 (by omega), hq⟩⟩

/-- No value outside the interval between the neighbours is nearer, and one equally near is the same or the choice is even. -/
theorem Chosen.nearest {q w X Q Z : Nat} (h : Chosen q w X Q) (hZ : Z ≤ q * w ∨ (q + 1) * w ≤ Z) :
    ((Q * w : Nat) - X : Int).natAbs ≤ (Z - X : Int).natAbs ∧
      (((Q * w : Nat) - X : Int).natAbs = (Z - X : Int).natAbs → Z = Q * w ∨ Q % 2 = 0) := by
  obtain ⟨hlo, hhi, hchoice⟩ := h
  have e1 : (q + 1) * w = q * w + w := Nat.succ_mul q w
  have e2 : (2 * q + 1) * w = 2 * (q * w) + w := by ring
  rw [e1] at hhi hZ
  rw [e2] at hchoice
  obtain ⟨rfl, hcase⟩ | ⟨rfl, hcase⟩ := hchoice
  · generalize Q * w = l at *
    omega
  · rw [e1]
    generalize q * w = l at *
    omega

/-! ### The rounded magnitude -/

/-- The magnitude of a significand that is not halved below 24 bits: the shift `roundMag` makes, and its rounded quotient. -/
theorem roundMag_nearest {d n X Y : Nat} (h : StandsFor d n X Y) (hY : 0 < Y) (hfin : roundMag n d < 2139095040) (m : Nat) :
    ((magUnits (roundMag n d) * (2 ^ d * Y) : Nat) - X : Int).natAbs ≤ ((magUnits m * (2 ^ d * Y) : Nat) - X : Int).natAbs ∧
      (((magUnits (roundMag n d) * (2 ^ d * Y) : Nat) - X : Int).natAbs = ((magUnits m * (2 ^ d * Y) : Nat) - X : Int).natAbs →
        magUnits m = magUnits (roundMag n d) ∨ roundMag n d % 2 = 0) := by
  have hchosen := roundQuot_chosen h hY (Nat.le_max_left d (Nat.log2 n - 23))
  have hbounds := roundQuot_bounds n (max d (Nat.log2 n - 23))
  have hlt := quot_lt n d
  have hexp : max d (Nat.log2 n - 23) - d = 0 ∨ 8388608 ≤ n / 2 ^ max d (Nat.log2 n - 23) := by
    rcases Nat.lt_or_ge d (Nat.log2 n - 23) with hd | hd
    · rw [Nat.max_eq_right hd.le]
      exact .inr (quot_ge (by omega))
    · exact .inl (by omega)
  have hround : roundMag n d =
      (max d (Nat.log2 n - 23) - d) * 8388608 + roundQuot n (max d (Nat.log2 n - 23)) := by
    rw [roundMag_eq] at hfin ⊢
    omega
  obtain ⟨e, he⟩ := Nat.exists_eq_add_of_le (Nat.le_max_left d (Nat.log2 n - 23))
  simp only [he, Nat.add_sub_cancel_left] at hchosen hbounds hlt hexp hround
  have hunits : ∀ j, j ≤ 16777216 → (e = 0 ∨ 8388608 ≤ j) →
      magUnits (e * 8388608 + j) * (2 ^ d * Y) = j * (2 ^ (d + e) * Y) := by
    intro j hj hje
    rw [magUnits_of_significand hj hje, Nat.pow_add]
    ring
  have hpos : 0 < 2 ^ d * Y := Nat.mul_pos (Nat.two_pow_pos d) hY
  generalize n / 2 ^ (d + e) = q at *
  generalize roundQuot n (d + e) = Q at *
  have hside : magUnits m * (2 ^ d * Y) ≤ q * (2 ^ (d + e) * Y) ∨ (q + 1) * (2 ^ (d + e) * Y) ≤ magUnits m * (2 ^ d * Y) := by
    rcases Nat.lt_or_ge m (e * 8388608 + (q + 1)) with hm | hm
    · rw [← hunits q (by omega) hexp]
      exact .inl (Nat.mul_le_mul_right _ (magUnits_strictMono.monotone (by omega)))
    · rw [← hunits (q + 1) (by omega) (by omega)]
      exact .inr (Nat.mul_le_mul_right _ (magUnits_strictMono.monotone hm))
  obtain ⟨hle, htie⟩ := hchosen.nearest hside
  rw [hround, hunits Q (by omega) (by omega)]
  refine ⟨hle, fun heq => ?_⟩
  obtain hsame | heven := htie heq
  · rw [← hunits Q (by omega) (by omega)] at hsame
    exact .inl (Nat.eq_of_mul_eq_mul_right hpos hsame)
  · exact .inr (by omega)

end Sys2Proof.Machine
end

section
/-! PROOFS. Correct rounding of the four operations (spec 00 R11): where the result overflows, and that no finite value is nearer to
the exact result. -/

namespace Sys2Proof.Machine

/-! ### Overflow -/

/-- Rounding gives infinity exactly from half a step above the largest finite value on: below the shift 253 nothing reaches it, at
that shift the quotient must round up to 25 bits, and beyond it everything does. -/
theorem roundMag_eq_inf_iff (n d : Nat) : roundMag n d = 2139095040 ↔ 33554431 * 2 ^ (252 + d) ≤ n := by
  have hquot := roundQuot_cases n (max d (Nat.log2 n - 23))
  have hlt := quot_lt n d
  have hdiv := Nat.div_add_mod n (2 ^ max d (Nat.log2 n - 23))
  have hmod := Nat.mod_lt n (Nat.two_pow_pos (max d (Nat.log2 n - 23)))
  rw [roundMag_eq]
  rcases Nat.lt_trichotomy (max d (Nat.log2 n - 23)) (253 + d) with hsh | hsh | hsh
  · have hn : n < 2 ^ (24 + (252 + d)) :=
      Nat.lt_log2_self.trans_le (Nat.pow_le_pow_right (by decide) (by omega))
    rw [Nat.pow_add] at hn
    generalize 2 ^ (252 + d) = p at *
    omega
  · rw [show 253 + d = 252 + d + 1 by omega] at hsh
    simp only [hsh, Nat.pow_succ] at hquot hlt hdiv hmod ⊢
    generalize 2 ^ (252 + d) = p at *
    generalize roundQuot n (252 + d + 1) = Q at *
    generalize n % (p * 2) = r at *
    generalize n / (p * 2) = q at *
    rcases Nat.lt_or_ge q 16777215 with hq | hq
    · have := Nat.mul_le_mul_left (p * 2) (show q + 1 ≤ 16777215 by omega)
      rw [Nat.mul_succ] at this
      omega
    · obtain rfl : q = 16777215 := by omega
      omega
  · have hn : 2 ^ (25 + (252 + d)) ≤ n :=
      (Nat.pow_le_pow_right (by decide) (by omega : 25 + (252 + d) ≤ Nat.log2 n)).trans
        (Nat.log2_self_le (by rintro rfl; simp at hsh))
    have hbig := quot_ge (n := n) (by omega)
    rw [show Nat.log2 n - 23 = max d (Nat.log2 n - 23) by omega] at hbig
    rw [Nat.pow_add] at hn
    generalize 2 ^ (252 + d) = p at *
    omega

/-! ### A rounded value against the finite values -/

/-- `r` is the value `e / w` of units correctly rounded: no NaN, infinite exactly from half a step above the largest finite value
on, and otherwise at least as near as every finite value, a value equally near being the same or `r` even. -/
structure Rounds (r : F32) (e w : Int) : Prop where
  notNaN : fIsNaN r = false
  inf : fIsInf r = true ↔ 33554431 * 2 ^ 252 * w.natAbs ≤ e.natAbs
  nearest : fIsInf r = false → ∀ z, fIsFinite z = true → (fVal r * w - e).natAbs ≤ (fVal z * w - e).natAbs
  tie : fIsInf r = false → ∀ z, fIsFinite z = true → (fVal r * w - e).natAbs = (fVal z * w - e).natAbs →
    fVal z = fVal r ∨ fMag r % 2 = 0

/-- The value of a pattern from its sign and the units of its magnitude. -/
theorem fVal_eq_signed (x : F32) : fVal x = signed (fSign x) (magUnits (fMag x)) := rfl

theorem signed_mul (s : Bool) (m w : Nat) : signed s m * (w : Int) = signed s (m * w) := by
  cases s <;> simp [signed]

/-- A distance between signed magnitudes: of equal signs the distance of the magnitudes, of opposite ones their sum. -/
theorem natAbs_signed_sub (s s' : Bool) (m X : Nat) :
    (signed s' m - signed s X).natAbs = if s' = s then ((m : Int) - X).natAbs else m + X := by
  cases s <;> cases s' <;> simp only [signed, Bool.false_eq_true, if_true, if_false, reduceCtorEq] <;> omega

/-- Without FTZ `fRound` rounds the exact value that `n` stands for. -/
theorem fRound_rounds {c : Config} (hftz : c.ftz = false) (s : Bool) {n d X Y : Nat} (h : StandsFor d n X Y) (hY : 0 < Y) :
    Rounds (fRound c s n d) (signed s X) ((2 ^ d * Y : Nat) : Int) := by
  have hmag : fMag (fRound c s n d) = roundMag n d := by
    rw [fMag_fRound, flushMag, hftz, Bool.false_and, if_neg Bool.false_ne_true]
  have habs : (signed s X).natAbs = X := by cases s <;> simp [signed]
  have hinf : fIsInf (fRound c s n d) = true ↔ 33554431 * 2 ^ 252 * (2 ^ d * Y) ≤ X := by
    have hcmp := h.compare hY (k := 2 * (33554431 * 2 ^ (252 + d))) (.inl (by rw [Nat.pow_add]; omega))
    have hbound : 2 * (33554431 * 2 ^ (252 + d)) * Y = 2 * (33554431 * 2 ^ 252 * (2 ^ d * Y)) := by
      rw [Nat.pow_add]; ring
    rw [hbound] at hcmp
    rw [fIsInf, hmag, decide_eq_true_iff, roundMag_eq_inf_iff]
    generalize 33554431 * 2 ^ (252 + d) = a at *
    generalize 33554431 * 2 ^ 252 * (2 ^ d * Y) = b at *
    omega
  -- the distances to a magnitude of either sign come down to the distances of magnitudes
  have hdist : fIsInf (fRound c s n d) = false → ∀ z : F32,
      (fVal (fRound c s n d) * (2 ^ d * Y : Nat) - signed s X).natAbs ≤ (fVal z * (2 ^ d * Y : Nat) - signed s X).natAbs ∧
      ((fVal (fRound c s n d) * (2 ^ d * Y : Nat) - signed s X).natAbs = (fVal z * (2 ^ d * Y : Nat) - signed s X).natAbs →
        fVal z = fVal (fRound c s n d) ∨ fMag (fRound c s n d) % 2 = 0) := by
    intro hfin z
    have hlt : roundMag n d < 2139095040 := by
      have hle := roundMag_le n d
      rw [fIsInf, hmag, decide_eq_false_iff_not] at hfin
      omega
    rw [fVal_eq_signed, fVal_eq_signed z, fSign_fRound, hmag, signed_mul, signed_mul, natAbs_signed_sub, natAbs_signed_sub,
      if_pos rfl]
    split
    · rename_i hs
      obtain ⟨hle, htie⟩ := roundMag_nearest h hY hlt (fMag z)
      refine ⟨hle, fun heq => ?_⟩
      obtain hsame | heven := htie heq
      · exact .inl (by rw [hs, hsame])
      · exact .inr heven
    · obtain ⟨hle, htie⟩ := roundMag_nearest h hY hlt 0
      have hzero : magUnits 0 = 0 := rfl
      rw [hzero, Nat.zero_mul] at hle htie
      refine ⟨by omega, fun heq => ?_⟩
      obtain hsame | heven := htie (by omega)
      · have hz : magUnits (fMag z) = 0 := by
          have hpos : 0 < 2 ^ d * Y := Nat.mul_pos (Nat.two_pow_pos d) hY
          have hprod : magUnits (fMag z) * (2 ^ d * Y) = 0 := by omega
          exact (Nat.mul_eq_zero.mp hprod).resolve_right hpos.ne'
        refine .inl ?_
        rw [hz, ← hsame]
        cases s <;> cases fSign z <;> rfl
      · exact .inr heven
  exact ⟨fIsNaN_fRound _ _ _ _, by rw [habs, Int.natAbs_natCast]; exact hinf, fun hfin z _ => (hdist hfin z).1,
    fun hfin z _ => (hdist hfin z).2⟩

/-! ### Sums and differences -/

/-- A number is the sign and the magnitude of itself. -/
theorem signed_natAbs (e : Int) : signed (decide (e < 0)) e.natAbs = e := by
  unfold signed
  split <;> rename_i h <;> simp only [decide_eq_true_eq] at h <;> omega

/-- A zero is the exact sum 0 rounded. -/
theorem rounds_zero {r : F32} (h : fMag r = 0) : Rounds r 0 1 := by
  have hval : fVal r = 0 := by rw [fVal_eq_signed, h]; cases fSign r <;> rfl
  refine ⟨by simp [fIsNaN, h], by simp [fIsInf, h], fun _ z _ => by simp [hval], fun _ z _ heq => .inr (by rw [h])⟩

/-- The sum of finite values is correctly rounded. -/
theorem fadd_rounds {c : Config} (hftz : c.ftz = false) {x y : F32} (hx : fIsFinite x = true) (hy : fIsFinite y = true) :
    Rounds (fadd c x y) (fVal x + fVal y) 1 := by
  simp only [fadd, faddRaw, fIn_of_ftz_false hftz, not_nan_of_finite hx, not_nan_of_finite hy, not_inf_of_finite hx,
    not_inf_of_finite hy, Bool.or_self, Bool.false_eq_true, if_false]
  split
  · rename_i h0
    rw [h0]
    exact rounds_zero (fMag_fPack _ _ (by decide))
  · have hround := fRound_rounds hftz (decide (fVal x + fVal y < 0)) (d := 0) (Y := 1)
      (.inl (Nat.mul_one (fVal x + fVal y).natAbs).symm) Nat.one_pos
    rw [signed_natAbs] at hround
    exact hround

/-- The difference of finite values is correctly rounded. -/
theorem fsub_rounds {c : Config} (hftz : c.ftz = false) {x y : F32} (hx : fIsFinite x = true) (hy : fIsFinite y = true) :
    Rounds (fsub c x y) (fVal x - fVal y) 1 := by
  have hround := fadd_rounds hftz hx ((fIsFinite_fNeg y).trans hy)
  rw [fVal_fNeg, ← sub_eq_add_neg] at hround
  rw [fsub_eq_fadd_fNeg]
  exact hround

/-- Settles O57: `fadd_rounds` and `fsub_rounds`, in units. -/
theorem additionRoundsToNearestEven : Obligations.AdditionRoundsToNearestEven := by
  unfold Obligations.AdditionRoundsToNearestEven
  intro c x y r e hftz hx hy hre
  have hround : Rounds r e 1 := by
    obtain ⟨rfl, rfl⟩ | ⟨rfl, rfl⟩ := hre
    · exact fadd_rounds hftz hx hy
    · exact fsub_rounds hftz hx hy
  obtain ⟨hnan, hinf, hnear, htie⟩ := hround
  simp only [Int.mul_one] at hnear htie
  exact ⟨hinf, hnan, fun hfin z hz => ⟨hnear hfin z hz, htie hfin z hz⟩⟩

/-! ### Products and quotients -/

/-- The value of a finite pattern and its units. -/
theorem fVal_eq_signed_fUnits (x : F32) : fVal x = signed (fSign x) (fUnits x) := rfl

/-- The sign of a product or a quotient. -/
theorem signed_mul_signed (s s' : Bool) (m m' : Nat) : signed s m * signed s' m' = signed (s != s') (m * m') := by
  cases s <;> cases s' <;> simp [signed]

/-- The product of finite values is correctly rounded. -/
theorem fmul_rounds {c : Config} (hftz : c.ftz = false) {x y : F32} (hx : fIsFinite x = true) (hy : fIsFinite y = true) :
    Rounds (fmul c x y) (fVal x * fVal y) (2 ^ 149) := by
  have hround := fRound_rounds hftz (fSign x != fSign y) (d := 149) (Y := 1)
    (.inl (Nat.mul_one (fUnits x * fUnits y)).symm) Nat.one_pos
  rw [← signed_mul_signed, ← fVal_eq_signed_fUnits, ← fVal_eq_signed_fUnits] at hround
  simp only [fmul, fmulRaw, fIn_of_ftz_false hftz, not_nan_of_finite hx, not_nan_of_finite hy, not_inf_of_finite hx,
    not_inf_of_finite hy, Bool.or_self, Bool.false_eq_true, if_false]
  exact hround

/-- The integer part of a quotient with a sticky bit stands for the quotient. -/
theorem standsFor_sticky (X : Nat) {Y : Nat} (hY : 0 < Y) :
    StandsFor 3 (2 * (X / Y) + if X % Y = 0 then 0 else 1) (2 * X) Y := by
  have hdiv := Nat.div_add_mod X Y
  have hmod := Nat.mod_lt X hY
  rw [Nat.mul_comm Y] at hdiv
  split
  · refine .inl ?_
    rw [Nat.add_zero, Nat.mul_assoc]
    omega
  · refine .inr ⟨by decide, by omega, ?_, ?_⟩
    · rw [Nat.add_sub_cancel, Nat.mul_assoc]
      omega
    · rw [show 2 * (X / Y) + 1 + 1 = 2 * (X / Y + 1) by omega, Nat.mul_assoc, Nat.add_one_mul (X / Y)]
      omega

/-- The quotient of finite values by a value other than 0, in units of `2^-152`. -/
theorem fdiv_rounds {c : Config} (hftz : c.ftz = false) {x y : F32} (hx : fIsFinite x = true) (hy : fIsFinite y = true)
    (h0 : fIsZero y = false) : Rounds (fdiv c x y) (8 * (signed (fSign y) 1 * fVal x * 2 ^ 149)) (8 * fUnits y) := by
  have hpos : 0 < fUnits y := by
    rw [fUnits_eq_magUnits]
    rw [fIsZero, decide_eq_false_iff_not] at h0
    exact magUnits_strictMono (Nat.pos_of_ne_zero h0)
  have hround := fRound_rounds hftz (fSign x != fSign y) (standsFor_sticky (fUnits x * 2 ^ 151) hpos) hpos
  have hexact : signed (fSign x != fSign y) (2 * (fUnits x * 2 ^ 151)) = 8 * (signed (fSign y) 1 * fVal x * 2 ^ 149) := by
    rw [fVal_eq_signed_fUnits]
    cases fSign x <;> cases fSign y <;> simp [signed] <;> ring
  rw [hexact] at hround
  simp only [fdiv, fdivRaw, fIn_of_ftz_false hftz, not_nan_of_finite hx, not_nan_of_finite hy, not_inf_of_finite hx,
    not_inf_of_finite hy, h0, Bool.or_self, Bool.false_eq_true, if_false]
  exact hround

/-- The distance of a quotient to the exact one, scaled by the divisor. -/
theorem quotient_distance (x y r : F32) :
    (fVal r * (8 * fUnits y) - 8 * (signed (fSign y) 1 * fVal x * 2 ^ 149)).natAbs =
      8 * (fVal r * fVal y - fVal x * 2 ^ 149).natAbs := by
  have hsign : (signed (fSign y) 8).natAbs = 8 := by cases fSign y <;> rfl
  have hscale : fVal r * (8 * fUnits y) - 8 * (signed (fSign y) 1 * fVal x * 2 ^ 149) =
      signed (fSign y) 8 * (fVal r * fVal y - fVal x * 2 ^ 149) := by
    rw [fVal_eq_signed_fUnits y]
    cases fSign y <;> simp only [signed, Bool.false_eq_true, if_true, if_false, Nat.cast_ofNat, Nat.cast_one] <;> ring
  rw [hscale, Int.natAbs_mul, hsign]

/-- The size of a value in units. -/
theorem fVal_natAbs (x : F32) : (fVal x).natAbs = fUnits x := by
  unfold fVal
  split <;> simp

/-- Where a quotient overflows, in units of the dividend. -/
theorem quotient_overflow_iff (x y : F32) :
    33554431 * 2 ^ 252 * (8 * (fUnits y : Int)).natAbs ≤ (8 * (signed (fSign y) 1 * fVal x * 2 ^ 149)).natAbs ↔
      33554431 * 2 ^ 103 * (fVal y).natAbs ≤ (fVal x).natAbs := by
  have hsign : (signed (fSign y) 1).natAbs = 1 := by cases fSign y <;> rfl
  have hpow : ((2 : Int) ^ 149).natAbs = 2 ^ 149 := by norm_num
  have height : (8 : Int).natAbs = 8 := rfl
  simp only [Int.natAbs_mul, hsign, hpow, height, Int.natAbs_natCast, fVal_natAbs, Nat.one_mul]
  omega

/-- Settles O58: `fmul_rounds` and `fdiv_rounds`, in units of `2^-298` and scaled by the divisor. -/
theorem productAndQuotientRoundToNearestEven : Obligations.ProductAndQuotientRoundToNearestEven := by
  unfold Obligations.ProductAndQuotientRoundToNearestEven
  intro c x y z hftz hx hy hz
  refine ⟨?_, fun h0 => ?_⟩
  · obtain ⟨hnan, hinf, hnear, htie⟩ := fmul_rounds hftz hx hy
    have hbound : 33554431 * 2 ^ 252 * ((2 : Int) ^ 149).natAbs = 33554431 * 2 ^ 401 := by
      rw [show ((2 : Int) ^ 149).natAbs = 2 ^ 149 by norm_num, show (401 : Nat) = 252 + 149 from rfl, Nat.pow_add,
        Nat.mul_assoc]
    rw [hbound] at hinf
    exact ⟨hnan, hinf, fun hfin => ⟨hnear hfin z hz, htie hfin z hz⟩⟩
  · obtain ⟨hnan, hinf, hnear, htie⟩ := fdiv_rounds hftz hx hy h0
    rw [quotient_overflow_iff] at hinf
    simp only [quotient_distance] at hnear htie
    refine ⟨hnan, hinf, fun hfin => ⟨?_, fun heq => htie hfin z hz (congrArg (8 * ·) heq)⟩⟩
    exact Nat.le_of_mul_le_mul_left (hnear hfin z hz) (by decide)

end Sys2Proof.Machine
end

section
/-! PROOFS. Exact results (spec 00 R11, R12): operations whose exact result is a binary32 value give it, with FTZ and without, and what
they do to a zero. -/

namespace Sys2Proof.Machine

/-! ### A representable result is exact -/

/-- The units of a finite magnitude are below the bound of overflow. -/
theorem magUnits_lt_overflow {m : Nat} (h : m < 2139095040) : magUnits m < 33554431 * 2 ^ 252 := by
  have hmax : magUnits (253 * 8388608 + 16777215) = 16777215 * 2 ^ 253 :=
    magUnits_of_significand (by decide) (.inr (by decide))
  have hle : magUnits m ≤ magUnits (253 * 8388608 + 16777215) := magUnits_strictMono.monotone (by omega)
  rw [hmax] at hle
  omega

/-- A number that is itself the units of a finite magnitude rounds to that magnitude. -/
theorem roundMag_of_exact {m : Nat} (d : Nat) (h : m < 2139095040) : roundMag (magUnits m * 2 ^ d) d = m := by
  have hfin : roundMag (magUnits m * 2 ^ d) d < 2139095040 := by
    refine lt_of_le_of_ne (roundMag_le _ _) fun hinf => ?_
    rw [roundMag_eq_inf_iff, Nat.pow_add, ← Nat.mul_assoc] at hinf
    exact absurd (Nat.le_of_mul_le_mul_right hinf (Nat.two_pow_pos d)) (Nat.not_le.mpr (magUnits_lt_overflow h))
  have hstands : StandsFor d (magUnits m * 2 ^ d) (magUnits m * 2 ^ d) 1 := .inl (Nat.mul_one _).symm
  obtain ⟨hle, -⟩ := roundMag_nearest hstands Nat.one_pos hfin m
  rw [Nat.mul_one, sub_self, Int.natAbs_zero, Nat.le_zero, Int.natAbs_eq_zero, sub_eq_zero, Nat.cast_inj] at hle
  exact magUnits_strictMono.injective (Nat.eq_of_mul_eq_mul_right (Nat.two_pow_pos d) hle)

/-- A value that every build reads and writes as it stands: finite and not subnormal. -/
structure Plain (x : F32) : Prop where
  finite : fIsFinite x = true
  normal : fIsSubnormal x = false

theorem Plain.fIn_eq {x : F32} (h : Plain x) (c : Config) : fIn c x = x := fIn_of_not_subnormal c h.normal

theorem Plain.flushMag_eq {x : F32} (h : Plain x) (c : Config) : flushMag c (fMag x) = fMag x := by
  rw [← fMag_fIn, h.fIn_eq]

/-- Rounding the units of a plain value gives its magnitude with the sign that is asked for. -/
theorem fRound_of_exact {x : F32} (hx : Plain x) (c : Config) (s : Bool) (d : Nat) :
    fRound c s (fUnits x * 2 ^ d) d = fPack s (fMag x) := by
  have hlt := fMag_lt x
  refine f32_ext ?_ ?_
  · rw [fSign_fRound, fSign_fPack _ _ hlt]
  · rw [fMag_fRound, fUnits_eq_magUnits, roundMag_of_exact d (by simpa [fIsFinite] using hx.finite), hx.flushMag_eq,
      fMag_fPack _ _ hlt]

/-- The product of a plain value and a value of magnitude 1.0 is the plain value with the sign of the product. -/
theorem fmul_of_unit {x u : F32} (hx : Plain x) (hu : fMag u = 0x3F800000) (c : Config) :
    fmul c u x = fPack (fSign u != fSign x) (fMag x) := by
  have huFinite : fIsFinite u = true := by simp [fIsFinite, hu]
  have huPlain : Plain u := ⟨huFinite, by simp [fIsSubnormal, hu]⟩
  have hunits : fUnits u = 2 ^ 149 := by
    rw [fUnits_eq_magUnits, hu]
    decide +kernel
  rw [fmul, huPlain.fIn_eq, hx.fIn_eq, fmulRaw]
  simp only [not_nan_of_finite huFinite, not_nan_of_finite hx.finite, not_inf_of_finite huFinite, not_inf_of_finite hx.finite,
    Bool.or_self, Bool.false_eq_true, if_false]
  rw [hunits, Nat.mul_comm, fRound_of_exact hx]

/-- Multiplying by 1.0 changes no plain value. -/
theorem one_fmul {x : F32} (hx : Plain x) (c : Config) : fmul c 0x3F800000#32 x = x := by
  rw [fmul_of_unit hx (by decide), show fSign 0x3F800000#32 = false by decide, Bool.false_bne, fPack_self]

/-- Multiplying by -1.0 inverts the sign of a plain value. -/
theorem neg_one_fmul {x : F32} (hx : Plain x) (c : Config) : fmul c 0xBF800000#32 x = fNeg x := by
  rw [fmul_of_unit hx (by decide), show fSign 0xBF800000#32 = true by decide, Bool.true_bne, fNeg]

/-! ### Zeros -/

/-- Rounding 0 gives a zero. -/
theorem fMag_fRound_zero (c : Config) (s : Bool) (d : Nat) : fMag (fRound c s 0 d) = 0 := by
  have hround : roundMag 0 d = 0 := by
    have h := roundMag_of_exact (m := 0) d (by decide)
    rwa [show magUnits 0 = 0 from rfl, Nat.zero_mul] at h
  rw [fMag_fRound, hround, flushMag_zero]

/-- The sum of finite values does not depend on their order. -/
theorem fadd_comm {x y : F32} (hx : fIsFinite x = true) (hy : fIsFinite y = true) (c : Config) : fadd c x y = fadd c y x := by
  have hx' : fIsFinite (fIn c x) = true := (fIsFinite_fIn c x).trans hx
  have hy' : fIsFinite (fIn c y) = true := (fIsFinite_fIn c y).trans hy
  simp only [fadd, faddRaw, not_nan_of_finite hx', not_nan_of_finite hy', not_inf_of_finite hx', not_inf_of_finite hy',
    Bool.or_self, Bool.false_eq_true, if_false, Int.add_comm (fVal (fIn c y)), Bool.and_comm (fSign (fIn c y))]

/-- The product of finite values does not depend on their order. -/
theorem fmul_comm {x y : F32} (hx : fIsFinite x = true) (hy : fIsFinite y = true) (c : Config) : fmul c x y = fmul c y x := by
  have hx' : fIsFinite (fIn c x) = true := (fIsFinite_fIn c x).trans hx
  have hy' : fIsFinite (fIn c y) = true := (fIsFinite_fIn c y).trans hy
  simp only [fmul, fmulRaw, not_nan_of_finite hx', not_nan_of_finite hy', not_inf_of_finite hx', not_inf_of_finite hy',
    Bool.or_self, Bool.false_eq_true, if_false, Nat.mul_comm (fUnits (fIn c y)), bne_comm (a := fSign (fIn c y))]

/-- A zero times a finite value is a zero. -/
theorem fMag_zero_fmul {x z : F32} (hx : fIsFinite x = true) (hz : fMag z = 0) (c : Config) : fMag (fmul c z x) = 0 := by
  rw [fmul_comm (by simp [fIsFinite, hz]) hx, fMag_fmul_zero c x z hx hz]

/-- A zero divided by a value that is no NaN and is not read as a zero is a zero. -/
theorem fMag_zero_fdiv {z y : F32} (hz : fMag z = 0) (hy : fIsNaN y = false) (hy0 : fMag (fIn c y) ≠ 0) :
    fMag (fdiv c z y) = 0 := by
  have hin : fIn c z = z := fIn_of_not_subnormal c (by simp [fIsSubnormal, hz])
  have hunits : fUnits z = 0 := by rw [fUnits_eq_magUnits, hz]; rfl
  rw [fdiv, hin, fdivRaw]
  simp only [fIsNaN_fIn, hy, hunits, show fIsNaN z = false by simp [fIsNaN, hz], show fIsInf z = false by simp [fIsInf, hz],
    show fIsZero (fIn c y) = false by simp [fIsZero, hy0], Bool.or_self, Bool.false_eq_true, if_false, Nat.zero_mul,
    Nat.zero_div, Nat.zero_mod, if_true, Nat.mul_zero, Nat.add_zero]
  split
  · exact fMag_fPack _ _ (by decide)
  · exact fMag_fRound_zero c _ 3

/-- Adding a zero to a finite value gives a value that compares equal to it, with FTZ and without. -/
theorem feq_fadd_zero (c : Config) {x z : F32} (hx : fIsFinite x = true) (hz : fMag z = 0) : feq c (fadd c x z) x = true := by
  by_cases h0 : fMag (fIn c x) = 0
  · have hin : fIn c z = z := fIn_of_not_subnormal c (by simp [fIsSubnormal, hz])
    have hval : ∀ w : F32, fMag w = 0 → fVal w = 0 ∧ fIsNaN w = false ∧ fIsInf w = false := fun w hw =>
      ⟨by simp [fVal, fUnits, hw], by simp [fIsNaN, hw], by simp [fIsInf, hw]⟩
    obtain ⟨hvx, hnx, hix⟩ := hval _ h0
    obtain ⟨hvz, hnz, hiz⟩ := hval _ hz
    have hsum : fMag (fadd c x z) = 0 := by
      simp only [fadd, hin, faddRaw, hvx, hvz, hnx, hnz, hix, hiz, Bool.or_self, Bool.false_eq_true, if_false, Int.add_zero,
        if_true]
      exact fMag_fPack _ _ (by decide)
    have hkey : ∀ w : F32, fMag w = 0 → fKey w = 0 := fun w hw => by simp [fKey, hw]
    refine (feq_iff c _ _).mpr ⟨(hval _ hsum).2.1, not_nan_of_finite hx, ?_⟩
    rw [hkey _ h0, hkey _ (by rw [fMag_fIn, hsum, flushMag_zero])]
  · have hsub : fIsSubnormal x = false ∨ c.ftz = false := by
      by_contra hcon
      simp only [not_or, Bool.not_eq_false] at hcon
      refine h0 ?_
      rw [fIn, hcon.1, hcon.2, Bool.and_self, if_pos rfl]
      exact fMag_fPack _ _ (by decide)
    have hxz : fMag x ≠ 0 := fun hx0 => h0 (by rw [fMag_fIn, hx0, flushMag_zero])
    rw [fadd_zero c x z hx hsub hxz hz]
    exact feq_refl c (not_nan_of_finite hx)

/-! ### Results that every build computes alike -/

/-- A rounding that is not subnormal in one build is the same in every build. -/
theorem fRound_eq_default {s : Bool} {n d : Nat} (h : fIsSubnormal (fRound Config.default s n d) = false) (c : Config) :
    fRound c s n d = fRound Config.default s n d := by
  have hmag : fMag (fRound Config.default s n d) = roundMag n d := by
    rw [fMag_fRound, flushMag, show Config.default.ftz = false from rfl, Bool.false_and, if_neg Bool.false_ne_true]
  refine f32_ext (by rw [fSign_fRound, fSign_fRound]) ?_
  rw [fIsSubnormal, hmag] at h
  rw [hmag, fMag_fRound, flushMag]
  split
  · rename_i hflush
    simp only [Bool.and_eq_true, Bool.and_eq_false_iff, decide_eq_true_eq, decide_eq_false_iff_not] at h hflush
    omega
  · rfl

section Computed
variable {x y r : F32}

theorem fOfInt_eq {z : Int} (h : fOfInt Config.default z = r) (hr : fIsSubnormal r = false) (c : Config) : fOfInt c z = r := by
  subst h
  exact fRound_eq_default hr c

theorem fadd_eq (hx : Plain x) (hy : Plain y) (h : fadd Config.default x y = r) (hr : Plain r) (c : Config) :
    fadd c x y = r := by
  subst h
  have hr := hr.normal
  simp only [fadd, faddRaw, hx.fIn_eq, hy.fIn_eq, not_nan_of_finite hx.finite, not_nan_of_finite hy.finite,
    not_inf_of_finite hx.finite, not_inf_of_finite hy.finite, Bool.or_self, Bool.false_eq_true, if_false] at hr ⊢
  split
  · rfl
  · rename_i h0
    rw [if_neg h0] at hr
    exact fRound_eq_default hr c

theorem fmul_eq (hx : Plain x) (hy : Plain y) (h : fmul Config.default x y = r) (hr : Plain r) (c : Config) :
    fmul c x y = r := by
  subst h
  have hr := hr.normal
  simp only [fmul, fmulRaw, hx.fIn_eq, hy.fIn_eq, not_nan_of_finite hx.finite, not_nan_of_finite hy.finite,
    not_inf_of_finite hx.finite, not_inf_of_finite hy.finite, Bool.or_self, Bool.false_eq_true, if_false] at hr ⊢
  exact fRound_eq_default hr c

theorem fdiv_eq (hx : Plain x) (hy : Plain y) (h0 : fIsZero y = false) (h : fdiv Config.default x y = r) (hr : Plain r)
    (c : Config) : fdiv c x y = r := by
  subst h
  have hr := hr.normal
  simp only [fdiv, fdivRaw, hx.fIn_eq, hy.fIn_eq, not_nan_of_finite hx.finite, not_nan_of_finite hy.finite,
    not_inf_of_finite hx.finite, not_inf_of_finite hy.finite, h0, Bool.or_self, Bool.false_eq_true, if_false] at hr ⊢
  exact fRound_eq_default hr c

end Computed

end Sys2Proof.Machine
end

section
/-! PROOFS. The block ramp (spec 45 R286), the amount mappings (44 R247, R248) and the pitch wheel (44 R242, R243), from the exact
results. -/

namespace Sys2Proof.Machine

/-! ### The ramp (45 R286) -/

/-- A positive integer is no NaN and is read as no zero, with FTZ and without: it rounds to 1.0 or more. -/
theorem fOfNat_pos (c : Config) {n : Nat} (h : 1 ≤ n) : fIsNaN (fOfNat c n) = false ∧ fMag (fIn c (fOfNat c n)) ≠ 0 := by
  have hone : roundMag (2 ^ 149) 0 = 0x3F800000 := by decide +kernel
  have hle : 0x3F800000 ≤ roundMag (n * 2 ^ 149) 0 := by
    rw [← hone]
    exact roundMag_mono 0 (Nat.le_mul_of_pos_left _ h)
  have hmag : fMag (fOfNat c n) = flushMag c (roundMag (n * 2 ^ 149) 0) := by
    rw [fOfNat, fOfInt, fOfUnits, fMag_fRound]
    congr 2
  have hkept : ∀ m, 0x3F800000 ≤ m → flushMag c m = m := fun m hm => by
    rw [flushMag, if_neg]
    simp only [Bool.and_eq_true, decide_eq_true_eq, not_and]
    omega
  refine ⟨fIsNaN_fOfUnits c _, ?_⟩
  rw [fMag_fIn, hmag, hkept _ hle, hkept _ hle]
  omega

/-- The integer 0 is a zero. -/
theorem fMag_fOfNat_zero (c : Config) : fMag (fOfNat c 0) = 0 := by
  rw [fOfNat, fOfInt, fOfUnits, Nat.cast_zero, Int.zero_mul]
  exact fMag_fRound_zero c _ 0

/-- A frame before the last applies the last gain plus its share of the way. -/
theorem ramp_of_lt (c : Config) (g0 t : F32) {i n : Nat} (h : i + 1 < n) :
    ramp c g0 t i n = fadd c g0 (fmul c (fsub c t g0) (fdiv c (fOfNat c i) (fOfNat c (n - 1)))) := by
  rw [ramp, if_neg (by omega), if_neg (by omega)]

/-- The first frame applies the last gain: its share of the way is a zero. -/
theorem feq_ramp_zero (c : Config) {g0 t : F32} {n : Nat} (h : 2 ≤ n) (hg : fIsFinite g0 = true)
    (hd : fIsFinite (fsub c t g0) = true) : feq c (ramp c g0 t 0 n) g0 = true := by
  obtain ⟨hnan, hne⟩ := fOfNat_pos c (n := n - 1) (by omega)
  rw [ramp_of_lt c g0 t (by omega)]
  exact feq_fadd_zero c hg (fMag_fmul_zero c _ _ hd (fMag_zero_fdiv (fMag_fOfNat_zero c) hnan hne))

/-- Settles O42: the branches of `ramp`, and `feq_ramp_zero` for the first frame. -/
theorem rampMeetsBothEnds : Obligations.RampMeetsBothEnds := by
  unfold Obligations.RampMeetsBothEnds
  intro c g0 t n
  refine ⟨if_pos rfl, fun h => ?_, fun i h => ramp_of_lt c g0 t h, fun h _ hg _ hd => feq_ramp_zero c h hg hd⟩
  rw [ramp, if_neg (by omega), if_pos rfl]

/-! ### The amount mappings (44 R247, R248) -/

/-- For the 128 velocities no operation meets a subnormal value, so the velocity and its distance from 1.0 are the same in every
build, and finite. -/
theorem velocity_plain : ∀ v : Fin 128,
    let n := fOfNat Config.default v
    let q := fdiv Config.default n 0x42FE0000#32
    let d := fsub Config.default 0x3F800000#32 q
    fIsSubnormal n = false ∧ fIsFinite n = true ∧ fIsSubnormal q = false ∧ fIsFinite q = true ∧
      fIsSubnormal d = false ∧ fIsFinite d = true := by
  decide +kernel

/-- The distance of a velocity from 1.0 is finite. -/
theorem one_sub_velocity_finite (c : Config) {v : Nat} (h : v < 128) :
    fIsFinite (fsub c 0x3F800000#32 (velocityOf c v)) = true := by
  obtain ⟨hn', hn, hq', hq, hd', hd⟩ := velocity_plain ⟨v, h⟩
  have hvel : velocityOf c v = fdiv Config.default (fOfNat Config.default v) 0x42FE0000#32 := by
    rw [velocityOf, fOfNat, fOfInt_eq rfl hn' c]
    exact fdiv_eq ⟨hn, hn'⟩ ⟨by decide, by decide⟩ (by decide) rfl ⟨hq, hq'⟩ c
  rw [hvel, fsub_eq_fadd_fNeg]
  rw [fsub_eq_fadd_fNeg] at hd hd'
  have hneg : Plain (fNeg (fdiv Config.default (fOfNat Config.default v) 0x42FE0000#32)) :=
    ⟨by rw [fIsFinite_fNeg]; exact hq, by simpa [fIsSubnormal] using hq'⟩
  rw [fadd_eq ⟨by decide, by decide⟩ hneg rfl ⟨hd, hd'⟩ c]
  exact hd

/-- Taking a zero from 1.0 leaves 1.0. -/
theorem one_sub_zero (c : Config) {z : F32} (hz : fMag z = 0) : fsub c 0x3F800000#32 z = 0x3F800000#32 :=
  fsub_zero c _ _ (by decide) (.inl (by decide)) (by decide) hz

/-- An amount of 0 makes the velocity level 1.0 (44 R247). -/
theorem velLevelOf_zero (c : Config) {v : Nat} (h : v < 128) : velLevelOf c 0#32 (velocityOf c v) = 0x3F800000#32 :=
  one_sub_zero c (fMag_zero_fmul (one_sub_velocity_finite c h) (by decide) c)

/-- Adding a plain value that is no `-0.0` to `+0.0` gives the value. -/
theorem zero_fadd {x : F32} (hx : Plain x) (hneg : x ≠ 0x80000000#32) (c : Config) : fadd c 0#32 x = x := by
  by_cases h0 : fMag x = 0
  · have hsign : fSign x = false := by
      by_contra hs
      exact hneg (f32_ext (by rw [Bool.not_eq_false] at hs; rw [hs]; rfl) h0)
    obtain rfl : x = 0#32 := f32_ext hsign h0
    exact fadd_eq ⟨by decide, by decide⟩ ⟨by decide, by decide⟩ (by decide) ⟨by decide, by decide⟩ c
  · rw [fadd_comm (by decide) hx.finite, fadd_zero c x _ hx.finite (.inl hx.normal) h0 (by decide)]

section Amounts
variable {e : F32} (c : Config)

/-- Amount 0 gives 1.0. -/
theorem amtFactor_zero (he : fIsFinite e = true) : amtFactor c 0#32 e = 0x3F800000#32 := by
  rw [amtFactor, if_pos (fle_refl c (by decide)), one_sub_zero c (by decide),
    fadd_zero c _ _ (by decide) (.inl (by decide)) (by decide) (fMag_zero_fmul he (by decide) c)]

/-- Amount 1 gives the envelope value. -/
theorem amtFactor_one (he : Plain e) (hneg : e ≠ 0x80000000#32) : amtFactor c 0x3F800000#32 e = e := by
  have hzero : fsub c 0x3F800000#32 0x3F800000#32 = 0#32 := by
    rw [fsub_eq_fadd_fNeg]
    exact fadd_eq ⟨by decide, by decide⟩ ⟨by decide, by decide⟩ (by decide) ⟨by decide, by decide⟩ c
  rw [amtFactor, if_pos (fle_of_fLeRaw c (by decide)), one_fmul he, hzero, zero_fadd he hneg]

/-- Amount -1 gives 1.0 minus the envelope value. -/
theorem amtFactor_neg_one (he : Plain e) : amtFactor c 0xBF800000#32 e = fsub c 0x3F800000#32 e := by
  have hlt : fle c 0#32 0xBF800000#32 = false := by
    rw [fle, fIn_of_not_subnormal c (by decide), fIn_of_not_subnormal c (by decide)]
    decide
  rw [amtFactor, if_neg (by rw [hlt]; exact Bool.false_ne_true), neg_one_fmul he, fsub_eq_fadd_fNeg]

end Amounts

/-- A value between `+0.0` and 1.0 is finite. -/
theorem finite_of_within_unit {x : F32} (h : within 0#32 x 0x3F800000#32 = true) : fIsFinite x = true := by
  rw [within, Bool.and_eq_true] at h
  obtain ⟨hnan, -, hk⟩ := (fLeRaw_iff _ _).mp h.2
  obtain ⟨-, -, hk0⟩ := (fLeRaw_iff _ _).mp h.1
  have hone : fKey 0x3F800000#32 = 0x3F800000 := by decide
  have hzero : fKey 0#32 = 0 := by decide
  rw [hone] at hk
  rw [hzero] at hk0
  rw [fIsFinite, decide_eq_true_iff]
  unfold fKey at hk hk0
  cases hs : fSign x <;> simp only [hs, Bool.false_eq_true, if_true, if_false] at hk hk0 <;> omega

/-- Settles O55: the exact cases, one lemma each. -/
theorem amountMappingExactCases : Obligations.AmountMappingExactCases := by
  unfold Obligations.AmountMappingExactCases
  refine fun c => ⟨fun v hv => velLevelOf_zero c hv, fun e hwithin hneg hsub => ?_⟩
  have hplain : Plain e := ⟨finite_of_within_unit hwithin, hsub⟩
  exact ⟨amtFactor_zero c hplain.finite, amtFactor_one c hplain hneg, amtFactor_neg_one c hplain⟩

/-! ### The pitch wheel (44 R242, R243) -/

/-- The bend at the lower end, from -8192 and the divisor 8192.0. -/
theorem bendOf_low (c : Config) : bendOf c 0 = 0xBF800000#32 := by
  rw [bendOf, if_pos (by decide), fOfInt_eq (r := 0xC6000000#32) (by decide +kernel) (by decide)]
  exact fdiv_eq ⟨by decide, by decide⟩ ⟨by decide, by decide⟩ (by decide) (by decide +kernel) ⟨by decide, by decide⟩ c

/-- The bend at the centre. -/
theorem bendOf_centre (c : Config) : bendOf c 0x2000 = 0#32 := by
  rw [bendOf, if_neg (by decide), fOfInt_eq (r := 0#32) (by decide +kernel) (by decide)]
  exact fdiv_eq ⟨by decide, by decide⟩ ⟨by decide, by decide⟩ (by decide) (by decide +kernel) ⟨by decide, by decide⟩ c

/-- The bend at the upper end, from 8191 and the divisor 8191.0. -/
theorem bendOf_high (c : Config) : bendOf c 0x3FFF = 0x3F800000#32 := by
  rw [bendOf, if_neg (by decide), fOfInt_eq (r := 0x45FFF800#32) (by decide +kernel) (by decide)]
  exact fdiv_eq ⟨by decide, by decide⟩ ⟨by decide, by decide⟩ (by decide) (by decide +kernel) ⟨by decide, by decide⟩ c

/-- Two semitones times a bend that is exact. -/
theorem bendSemis_of_bend {c : Config} {w : Nat} {b r : F32} (hbend : bendOf c w = b) (hb : Plain b)
    (h : fmul Config.default 0x40000000#32 b = r) (hr : Plain r) : bendSemis c w = r := by
  rw [bendSemis, hbend]
  exact fmul_eq ⟨by decide, by decide⟩ hb h hr c

theorem bendSemis_centre (c : Config) : bendSemis c 0x2000 = 0#32 :=
  bendSemis_of_bend (bendOf_centre c) ⟨by decide, by decide⟩ (by decide +kernel) ⟨by decide, by decide⟩

/-- A zero over the twelve semitones of an octave. -/
theorem zero_fdiv_twelve (c : Config) : fdiv c 0#32 0x41400000#32 = 0#32 :=
  fdiv_eq ⟨by decide, by decide⟩ ⟨by decide, by decide⟩ (by decide) (by decide +kernel) ⟨by decide, by decide⟩ c

/-- `EXP2` of a zero is 1.0 (00 R18). -/
theorem cfgExp2_zero : cfgExp2 0#32 = 0x3F800000#32 := if_pos (by decide)

/-- Note 69 is 440.0: its distance from itself is 0 semitones. -/
theorem noteFreq_69 (c : Config) : noteFreq c 69 = 0x43DC0000#32 := by
  rw [noteFreq, fOfInt_eq (r := 0#32) (by decide +kernel) (by decide), zero_fdiv_twelve, cfgExp2_zero]
  exact fmul_eq ⟨by decide, by decide⟩ ⟨by decide, by decide⟩ (by decide +kernel) ⟨by decide, by decide⟩ c

/-- Settles O56: the three bends are exact, and twice each is exact. -/
theorem pitchWheelExactShifts : Obligations.PitchWheelExactShifts := by
  unfold Obligations.PitchWheelExactShifts
  refine fun c => ⟨?_, bendSemis_centre c, ?_, ?_, noteFreq_69 c⟩
  · exact bendSemis_of_bend (bendOf_low c) ⟨by decide, by decide⟩ (by decide +kernel) ⟨by decide, by decide⟩
  · exact bendSemis_of_bend (bendOf_high c) ⟨by decide, by decide⟩ (by decide +kernel) ⟨by decide, by decide⟩
  · rw [bendMult, bendSemis_centre, zero_fdiv_twelve, cfgExp2_zero]

end Sys2Proof.Machine
end

section
/-! PROOFS. The range of the envelope level (spec 42 R185): a sum of values that are not negative is not negative, a difference of a
level and a rate is at most 1.0, and the comparisons of the tick bound the other side, with FTZ and without. -/

namespace Sys2Proof.Machine

/-! ### Keys and values -/

/-- Values are ordered as their keys. -/
theorem fVal_le_of_fKey_le {x y : F32} (h : fKey x ≤ fKey y) : fVal x ≤ fVal y := by
  have hmono : ∀ {a b : Nat}, a ≤ b → magUnits a ≤ magUnits b := fun hab => magUnits_strictMono.monotone hab
  have hzero : magUnits 0 = 0 := rfl
  rw [fVal_eq_signed, fVal_eq_signed]
  unfold fKey at h
  unfold signed
  cases hx : fSign x <;> cases hy : fSign y <;> simp only [hx, hy, Bool.false_eq_true, if_true, if_false] at h ⊢
  · have := hmono (show fMag x ≤ fMag y by omega)
    omega
  · have hmx : fMag x = 0 := by omega
    have hmy : fMag y = 0 := by omega
    rw [hmx, hmy, hzero]
    omega
  · omega
  · have := hmono (show fMag y ≤ fMag x by omega)
    omega

theorem fKey_zero : fKey 0#32 = 0 := by decide
theorem fKey_one : fKey 0x3F800000#32 = 0x3F800000 := by decide

/-- A key that is positive once the operand has been read was positive before. -/
theorem fKey_pos_of_fIn {c : Config} {x : F32} (h : 0 < fKey (fIn c x)) : 0 < fKey x := by
  have hle := flushMag_le c (fMag x)
  rw [fKey_fIn] at h
  unfold signed at h
  unfold fKey
  cases hs : fSign x <;> simp only [hs, Bool.false_eq_true, if_true, if_false] at h ⊢ <;> omega

/-- A key that is at most that of 1.0 once the operand has been read was so before. -/
theorem fKey_le_one_of_fIn {c : Config} {x : F32} (h : fKey (fIn c x) ≤ 0x3F800000) : fKey x ≤ 0x3F800000 := by
  rw [fKey_fIn] at h
  unfold signed flushMag at h
  unfold fKey
  cases hs : fSign x <;> simp only [hs, Bool.false_eq_true, if_true, if_false] at h ⊢
  · split at h
    · rename_i hflush
      simp only [Bool.and_eq_true, decide_eq_true_eq] at hflush
      omega
    · exact h
  · omega

/-- A key that is not negative stays so as the operand is read, and so does one that is at most that of 1.0. -/
theorem fKey_fIn_bounds (c : Config) {x : F32} :
    (0 ≤ fKey x → 0 ≤ fKey (fIn c x)) ∧ (fKey x ≤ 0x3F800000 → fKey (fIn c x) ≤ 0x3F800000) := by
  have hzero : fIn c 0#32 = 0#32 := fIn_of_not_subnormal c (by decide)
  have hone : fIn c 0x3F800000#32 = 0x3F800000#32 := fIn_of_not_subnormal c (by decide)
  refine ⟨fun h => ?_, fun h => ?_⟩
  · have hk := fKey_fIn_mono c (x := 0#32) (y := x) (by rw [fKey_zero]; exact h)
    rwa [hzero, fKey_zero] at hk
  · have hk := fKey_fIn_mono c (x := x) (y := 0x3F800000#32) (by rw [fKey_one]; exact h)
    rwa [hone, fKey_one] at hk

/-- A zero has key 0. -/
theorem fKey_of_fMag_zero {x : F32} (h : fMag x = 0) : fKey x = 0 := by
  simp [fKey, h]

/-- Rounding keeps a number of units that is not negative so, and one that is at most that of 1.0. -/
theorem fKey_fOfUnits_bounds (c : Config) (z : Int) :
    (0 ≤ z → 0 ≤ fKey (fOfUnits c z)) ∧ (z ≤ fVal 0x3F800000#32 → fKey (fOfUnits c z) ≤ 0x3F800000) := by
  have hzero : fKey (fOfUnits c 0) = 0 := fKey_of_fMag_zero (fMag_fRound_zero c _ 0)
  have hone : fOfUnits c (fVal 0x3F800000#32) = 0x3F800000#32 :=
    fOfUnits_fVal c _ (by decide) (.inl (by decide)) fun h => absurd (fVal_eq_zero h) (by decide)
  refine ⟨fun h => ?_, fun h => ?_⟩
  · have hk := fKey_fOfUnits_mono c h
    rwa [hzero] at hk
  · have hk := fKey_fOfUnits_mono c h
    rwa [hone, fKey_one] at hk

/-! ### Sums that stay on one side -/

/-- An infinite value that is not negative has the sign of a positive one. -/
theorem fSign_of_inf {x : F32} (hinf : fIsInf x = true) (hk : 0 ≤ fKey x) : fSign x = false := by
  rw [fIsInf, decide_eq_true_iff] at hinf
  unfold fKey at hk
  cases hs : fSign x <;> simp only [hs, if_true] at hk
  · rfl
  · omega

/-- The sum of values that are not negative is no NaN and not negative. -/
theorem fadd_nonneg (c : Config) {x y : F32} (hx : fIsNaN x = false) (hy : fIsNaN y = false) (hkx : 0 ≤ fKey x)
    (hky : 0 ≤ fKey y) : fIsNaN (fadd c x y) = false ∧ 0 ≤ fKey (fadd c x y) := by
  have hkx := (fKey_fIn_bounds c).1 hkx
  have hky := (fKey_fIn_bounds c).1 hky
  have hvx := fVal_le_of_fKey_le (x := 0#32) (y := fIn c x) (by rw [fKey_zero]; exact hkx)
  have hvy := fVal_le_of_fKey_le (x := 0#32) (y := fIn c y) (by rw [fKey_zero]; exact hky)
  rw [show fVal 0#32 = 0 by decide] at hvx hvy
  simp only [fadd, faddRaw, fIsNaN_fIn, hx, hy, Bool.or_self, Bool.false_eq_true, if_false]
  split
  · rename_i hix
    rw [if_neg]
    · exact ⟨(fIsNaN_fIn c x).trans hx, hkx⟩
    · simp only [Bool.and_eq_true, not_and]
      intro hiy
      simp [fSign_of_inf hix hkx, fSign_of_inf hiy hky]
  · split
    · exact ⟨(fIsNaN_fIn c y).trans hy, hky⟩
    · split
      · have hmag : ∀ s, fMag (fPack s 0) = 0 := fun s => fMag_fPack s 0 (by decide)
        exact ⟨by simp [fIsNaN, hmag], (fKey_of_fMag_zero (hmag _)).ge⟩
      · exact ⟨fIsNaN_fOfUnits c _, (fKey_fOfUnits_bounds c _).1 (by omega)⟩

/-- A level of at most 1.0 less a value that is not negative is no NaN and at most 1.0. -/
theorem fsub_le_one (c : Config) {x y : F32} (hx : fIsFinite x = true) (hy : fIsNaN y = false) (hkx : fKey x ≤ 0x3F800000)
    (hky : 0 ≤ fKey y) : fIsNaN (fsub c x y) = false ∧ fKey (fsub c x y) ≤ 0x3F800000 := by
  have hkx := (fKey_fIn_bounds c).2 hkx
  have hky := (fKey_fIn_bounds c).1 hky
  have hvx := fVal_le_of_fKey_le (x := fIn c x) (y := 0x3F800000#32) (by rw [fKey_one]; exact hkx)
  have hvy := fVal_le_of_fKey_le (x := 0#32) (y := fIn c y) (by rw [fKey_zero]; exact hky)
  rw [show fVal 0#32 = 0 by decide] at hvy
  have hfx : fIsFinite (fIn c x) = true := (fIsFinite_fIn c x).trans hx
  simp only [fsub, faddRaw, not_nan_of_finite hfx, not_inf_of_finite hfx, fIsNaN_fNeg, fIsNaN_fIn, hy, Bool.or_self,
    Bool.false_eq_true, if_false]
  split
  · rw [fIsNaN_fNeg, fIsNaN_fIn, fKey_fNeg]
    exact ⟨hy, by omega⟩
  · split
    · have hmag : ∀ s, fMag (fPack s 0) = 0 := fun s => fMag_fPack s 0 (by decide)
      exact ⟨by simp [fIsNaN, hmag], by rw [fKey_of_fMag_zero (hmag _)]; decide⟩
    · rw [fVal_fNeg]
      exact ⟨fIsNaN_fOfUnits c _, (fKey_fOfUnits_bounds c _).2 (by omega)⟩

/-! ### The tick (42 R185) -/

theorem within_unit_zero : within 0#32 0#32 0x3F800000#32 = true := by decide
theorem within_unit_one : within 0#32 0x3F800000#32 0x3F800000#32 = true := by decide

/-- The range `[0, 1]` in terms of keys. -/
theorem within_unit_iff (x : F32) :
    within 0#32 x 0x3F800000#32 = true ↔ fIsNaN x = false ∧ 0 ≤ fKey x ∧ fKey x ≤ 0x3F800000 := by
  rw [within, Bool.and_eq_true, fLeRaw_iff, fLeRaw_iff, fKey_zero, fKey_one]
  have h0 : fIsNaN 0#32 = false := by decide
  have h1 : fIsNaN 0x3F800000#32 = false := by decide
  tauto

/-- A level that has not fallen to a bound which is not negative is above 0, and the subtraction keeps it at most 1.0. -/
theorem within_unit_fsub (c : Config) {l r b : F32} (hl : within 0#32 l 0x3F800000#32 = true) (hr : fLeRaw 0#32 r = true)
    (hb : fLeRaw 0#32 b = true) (habove : fle c (fsub c l r) b = false) : within 0#32 (fsub c l r) 0x3F800000#32 = true := by
  obtain ⟨-, -, hl1⟩ := (within_unit_iff l).mp hl
  obtain ⟨-, hr, hkr⟩ := (fLeRaw_iff _ _).mp hr
  obtain ⟨-, hb, hkb⟩ := (fLeRaw_iff _ _).mp hb
  rw [fKey_zero] at hkr hkb
  obtain ⟨hnan, hle⟩ := fsub_le_one c (finite_of_within_unit hl) hr hl1 hkr
  have hkb := (fKey_fIn_bounds c).1 hkb
  simp only [fle, hnan, hb, Bool.not_false, Bool.true_and, decide_eq_false_iff_not] at habove
  exact (within_unit_iff _).mpr ⟨hnan, (fKey_pos_of_fIn (c := c) (by omega)).le, hle⟩

/-- A level that has not risen to 1.0 is below it, and the addition keeps it at 0 or above. -/
theorem within_unit_fadd (c : Config) {l r : F32} (hl : within 0#32 l 0x3F800000#32 = true) (hr : fLeRaw 0#32 r = true)
    (hbelow : fle c 0x3F800000#32 (fadd c l r) = false) : within 0#32 (fadd c l r) 0x3F800000#32 = true := by
  obtain ⟨hl, hl0, -⟩ := (within_unit_iff l).mp hl
  obtain ⟨-, hr, hkr⟩ := (fLeRaw_iff _ _).mp hr
  rw [fKey_zero] at hkr
  obtain ⟨hnan, hge⟩ := fadd_nonneg c hl hr hl0 hkr
  obtain ⟨-, -, hk⟩ := (fle_iff _ _ _).mp (fle_total c (by decide) hnan hbelow)
  rw [fIn_of_not_subnormal c (x := 0x3F800000#32) (by decide), fKey_one] at hk
  exact (within_unit_iff _).mpr ⟨hnan, hge, fKey_le_one_of_fIn hk⟩

/-- Settles O52: each stage's level is a bound of the range, the sustain level, or a sum or difference that its comparison kept
inside. -/
theorem envelopeLevelStaysInUnitRange : Obligations.EnvelopeLevelStaysInUnitRange := by
  unfold Obligations.EnvelopeLevelStaysInUnitRange
  intro c e hlevel hsus hA hD hR
  cases h : e.stage with
  | idle =>
    rw [envTick_idle c h]
    exact within_unit_zero
  | attack =>
    cases hl : fle c 0x3F800000#32 (fadd c e.level e.rA) with
    | true =>
      rw [envTick_attack_end c h hl]
      exact within_unit_one
    | false =>
      rw [envTick_attack c h hl]
      exact within_unit_fadd c hlevel hA hl
  | decay =>
    cases hl : fle c (fsub c e.level e.rD) e.sus with
    | true =>
      rw [envTick_decay_end c h hl]
      exact hsus
    | false =>
      rw [envTick_decay c h hl]
      rw [within, Bool.and_eq_true] at hsus
      exact within_unit_fsub c hlevel hD hsus.1 hl
  | sustain =>
    rw [envTick_sustain c h]
    exact hsus
  | release =>
    cases hl : fle c (fsub c e.level e.rR) 0#32 with
    | true =>
      rw [envTick_release_end c h hl]
      exact within_unit_zero
    | false =>
      rw [envTick_release c h hl]
      exact within_unit_fsub c hlevel hR (by decide) hl

end Sys2Proof.Machine
end
